-- ==== Sys2Proof/Word.lean ====
section
/-! DEFINITION. The words of the port, bytes, bit strings, and one access at the port. -/

namespace Sys2Proof

/-- A byte, bits 7 (most significant) to 0: rule R9. A Symbol is one byte: rule R6. -/
abbrev Byte := BitVec 8

/-- A command word or a host register, bits 31 to 0: rules R6 (`CMD_BITS`), R9. -/
abbrev Word := BitVec 32

/-- A bit string in order of transmission, first bit at the head: rule R10. -/
abbrev Bits := List Bool

/-- The 3-bit index of a host register: rules R41, R51. -/
abbrev RegIndex := BitVec 3

/-- What the port carries for one access, rule R51: a write flag, an index and a 32-bit data word. Every access is one
whole word (rule R52), so no other access can be written down. The data word of a read means nothing. -/
structure Access where
  write : Bool
  index : RegIndex
  data  : Word
  deriving DecidableEq, Repr

end Sys2Proof
end

