-- ==== Sys2Proof/Config.lean ====
section
/-! DEFINITION. The implementation parameters: the fixed ones (rule R6) and the open ones (rule R7). -/

namespace Sys2Proof.Config

/-- `NSYM`, the number of code-table entries: rule R6. -/
abbrev nsym : Nat := 256

/-- `MAX_CODE_LEN`, the greatest length of one code: rule R6. -/
abbrev maxCodeLen : Nat := 255

/-- `NODE_CAP`, the greatest number of tree nodes TD stores: rule R6. -/
abbrev nodeCap : Nat := 511

/-- `PUSH_MAX`, the greatest number of bits one format B command carries: rule R6. -/
abbrev pushMax : Nat := 16

/-- `PAD_MAX`, the greatest padding count: rule R6. -/
abbrev padMax : Nat := 7

end Sys2Proof.Config

namespace Sys2Proof

/-- The open parameters, rule R7. The spec has the model take them as arguments: they stand in State, where no step changes
them, so that a statement about every state is a statement about every value of them (DESIGN CHOICE, log entry 1). -/
structure Params where
  /-- `PK_FIFO_CAP`, the capacity in bytes of PK's output FIFO. -/
  pkFifoCap : Nat
  /-- `OUT_CAP`, the capacity in bytes of DEC's output buffer. -/
  outCap : Nat
  /-- `BASE`, where the platform places the registers: no rule depends on it. -/
  base : Nat
  deriving DecidableEq, Repr

/-- The constraints of rule R7. -/
abbrev Params.wf (p : Params) : Prop :=
  33 ≤ p.pkFifoCap ∧ p.pkFifoCap ≤ 65535 ∧ 1 ≤ p.outCap ∧ p.outCap ≤ 2 ^ 32 - 1

/-- Where register `i` stands in the platform's byte address space, if it maps the port into one: decision D39. -/
def Params.regAddr (p : Params) (i : RegIndex) : Nat := p.base + 4 * i.toNat

end Sys2Proof
end

