-- ==== Sys2Proof/Syntax.lean ====
section
/-! DEFINITION. The instructions: one constructor per row of spec/opcode_table.json. -/

namespace Sys2Proof

/-- Nine commands (rules R80 to R85) and sixteen register operations (rule R89). The count of a format B command is a
number, its data the 16-bit field (rule R83); a register write carries the word written. -/
inductive Instr where
  /-- `PK.CLR`, format Z, op 0x1. -/
  | pkClr
  /-- `PK.CTCLR`, format Z, op 0x2. -/
  | pkCtclr
  /-- `PK.CTSEL sym`, format S, op 0x3. -/
  | pkCtsel (sym : Byte)
  /-- `PK.CTAPP n, data`, format B, op 0x4. -/
  | pkCtapp (n : Nat) (data : BitVec 16)
  /-- `PK.PUSH n, data`, format B, op 0x5. -/
  | pkPush (n : Nat) (data : BitVec 16)
  /-- `PK.ENC sym`, format S, op 0x6. -/
  | pkEnc (sym : Byte)
  /-- `PK.FLUSH`, format Z, op 0x7. -/
  | pkFlush
  /-- `DEC.CLR`, format Z, op 0x8. -/
  | decClr
  /-- `DEC.BYTE byte, last`, format D, op 0x9. -/
  | decByte (byte : Byte) (last : Bool)
  /-- `RD CMD`, pattern 0000. -/
  | rdCmd
  /-- `RD ERR`, pattern 0001. -/
  | rdErr
  /-- `RD PK_STAT`, pattern 0010. -/
  | rdPkStat
  /-- `RD PK_DATA`, pattern 0011. -/
  | rdPkData
  /-- `RD DEC_STAT`, pattern 0100. -/
  | rdDecStat
  /-- `RD DEC_DATA`, pattern 0101. -/
  | rdDecData
  /-- `RD DEC_LEN`, pattern 0110. -/
  | rdDecLen
  /-- `RD RSVD7`, pattern 0111. -/
  | rdRsvd7
  /-- `WR CMD, word`, pattern 1000. -/
  | wrCmd (word : Word)
  /-- `WR ERR, word`, pattern 1001. -/
  | wrErr (word : Word)
  /-- `WR PK_STAT, word`, pattern 1010. -/
  | wrPkStat (word : Word)
  /-- `WR PK_DATA, word`, pattern 1011. -/
  | wrPkData (word : Word)
  /-- `WR DEC_STAT, word`, pattern 1100. -/
  | wrDecStat (word : Word)
  /-- `WR DEC_DATA, word`, pattern 1101. -/
  | wrDecData (word : Word)
  /-- `WR DEC_LEN, word`, pattern 1110. -/
  | wrDecLen (word : Word)
  /-- `WR RSVD7, word`, pattern 1111. -/
  | wrRsvd7 (word : Word)
  deriving DecidableEq, Repr

end Sys2Proof
end

