-- ==== Sys2Proof/WellFormed.lean ====
section
/-! DEFINITION. Which instructions have an encoding (rule R83's conditions), and the names of the ways a word can be illegal. -/

namespace Sys2Proof

/-- Why a word written to `CMD` is no command: the four cases of rule R86. -/
inductive Illegal where
  /-- (a) `op` is 0x0 or 0xA to 0xF. -/
  | reservedOpcode
  /-- (b) a must-be-0 bit of the command's format is 1. -/
  | mustBeZero
  /-- (c) format B with `n = 0` or `n > 16`. -/
  | badCount
  /-- (d) format B with a 1 in `data[15:n]`. -/
  | strayData
  deriving DecidableEq, Repr

/-- Rule R83, the bit count: `1 <= n <= 16`. -/
def countOk (n : Nat) : Bool := decide (1 ≤ n) && decide (n ≤ Config.pushMax)

/-- Rule R83, the data: bits `15:n` are 0. -/
def dataOk (n : Nat) (data : BitVec 16) : Bool := data >>> n == 0#16

/-- The operands of a format B command: rule R83. -/
def formatBOk (n : Nat) (data : BitVec 16) : Bool := countOk n && dataOk n data

/-- An instruction is well formed when its operands fit its encoding. Only format B (rule R83) has operands that may not. -/
def Instr.wellFormed : Instr → Bool
  | .pkCtapp n data => formatBOk n data
  | .pkPush n data => formatBOk n data
  | .pkClr | .pkCtclr | .pkCtsel _ | .pkEnc _ | .pkFlush | .decClr | .decByte _ _ => true
  | .rdCmd | .rdErr | .rdPkStat | .rdPkData | .rdDecStat | .rdDecData | .rdDecLen | .rdRsvd7 => true
  | .wrCmd _ | .wrErr _ | .wrPkStat _ | .wrPkData _ | .wrDecStat _ | .wrDecData _ | .wrDecLen _ | .wrRsvd7 _ => true

end Sys2Proof
end

