-- ==== Sys2Proof/Decode.lean ====
section
/-! DEFINITION. The decoder of command words and of port accesses, and the encoder. -/

namespace Sys2Proof

/-! ## The fields of a command word: rules R80 to R84 -/

/-- `w[31:28]`, the opcode: rule R80. -/
def opField (w : Word) : BitVec 4 := w.extractLsb' 28 4

/-- `w[7:0]`: `sym` in format S (rule R82), `byte` in format D (rule R84). -/
def byteField (w : Word) : Byte := w.extractLsb' 0 8

/-- `w[20:16]`, `n` in format B: rule R83. -/
def countField (w : Word) : BitVec 5 := w.extractLsb' 16 5

/-- `w[15:0]`, `data` in format B: rule R83. -/
def dataField (w : Word) : BitVec 16 := w.extractLsb' 0 16

/-- `w[8]`, `last` in format D: rule R84. -/
def lastField (w : Word) : Bool := w.getLsbD 8

/-! ## Command words: rules R81 to R86 -/

/-- Format Z, rule R81: bits 27:0 must be 0. -/
def decodeZ (i : Instr) (w : Word) : Except Illegal Instr :=
  if w.extractLsb' 0 28 = 0#28 then .ok i else .error .mustBeZero

/-- Format S, rule R82: bits 27:8 must be 0. -/
def decodeS (f : Byte → Instr) (w : Word) : Except Illegal Instr :=
  if w.extractLsb' 8 20 = 0#20 then .ok (f (byteField w)) else .error .mustBeZero

/-- Format B, rule R83: bits 27:21 must be 0, `1 <= n <= 16`, bits `15:n` must be 0. -/
def decodeB (f : Nat → BitVec 16 → Instr) (w : Word) : Except Illegal Instr :=
  if w.extractLsb' 21 7 = 0#7 then
    if countOk (countField w).toNat then
      if dataOk (countField w).toNat (dataField w) then .ok (f (countField w).toNat (dataField w))
      else .error .strayData
    else .error .badCount
  else .error .mustBeZero

/-- Format D, rule R84: bits 27:9 must be 0. -/
def decodeD (f : Byte → Bool → Instr) (w : Word) : Except Illegal Instr :=
  if w.extractLsb' 9 19 = 0#19 then .ok (f (byteField w) (lastField w)) else .error .mustBeZero

/-- The command a word is, or why it is none: the opcode map of rule R85 and the illegal words of rule R86. -/
def decodeCmd (w : Word) : Except Illegal Instr :=
  match (opField w).toNat with
  | 0x1 => decodeZ .pkClr w
  | 0x2 => decodeZ .pkCtclr w
  | 0x3 => decodeS .pkCtsel w
  | 0x4 => decodeB .pkCtapp w
  | 0x5 => decodeB .pkPush w
  | 0x6 => decodeS .pkEnc w
  | 0x7 => decodeZ .pkFlush w
  | 0x8 => decodeZ .decClr w
  | 0x9 => decodeD .decByte w
  | _ => .error .reservedOpcode

/-! ## Port accesses: rule R89 -/

/-- A write of `CMD`: the command its word is (rule R90: a command line is shorthand for `WR CMD` of its word); a word that
is no command stays the register operation, which sets `ERR.ILL`. -/
def decodeCmdWrite (w : Word) : Instr :=
  match decodeCmd w with
  | .ok c => c
  | .error _ => .wrCmd w

/-- A read of register `i`: patterns `0 iii` of rule R89. -/
def decodeRead (i : RegIndex) : Instr :=
  match i.toNat with
  | 0 => .rdCmd
  | 1 => .rdErr
  | 2 => .rdPkStat
  | 3 => .rdPkData
  | 4 => .rdDecStat
  | 5 => .rdDecData
  | 6 => .rdDecLen
  | _ => .rdRsvd7

/-- A write of `w` to register `i`: patterns `1 iii` of rule R89. -/
def decodeWrite (i : RegIndex) (w : Word) : Instr :=
  match i.toNat with
  | 0 => decodeCmdWrite w
  | 1 => .wrErr w
  | 2 => .wrPkStat w
  | 3 => .wrPkData w
  | 4 => .wrDecStat w
  | 5 => .wrDecData w
  | 6 => .wrDecLen w
  | _ => .wrRsvd7 w

/-- The instruction an access is. All sixteen patterns are defined (rule R89), so no access is refused. -/
def decode (a : Access) : Instr :=
  if a.write then decodeWrite a.index a.data else decodeRead a.index

/-! ## The encoder -/

/-- A write access of register `i`. -/
def writeOf (i : RegIndex) (w : Word) : Access := ⟨true, i, w⟩

/-- A read access of register `i`; its data word carries nothing. -/
def readOf (i : RegIndex) : Access := ⟨false, i, 0#32⟩

/-- A word of format Z: rule R81. -/
def encodeZ (op : BitVec 4) : Word := op ++ 0#28

/-- A word of format S: rule R82. -/
def encodeS (op : BitVec 4) (sym : Byte) : Word := op ++ 0#20 ++ sym

/-- A word of format B: rule R83. -/
def encodeB (op : BitVec 4) (n : Nat) (data : BitVec 16) : Word := op ++ 0#7 ++ BitVec.ofNat 5 n ++ data

/-- A word of format D: rule R84. -/
def encodeD (op : BitVec 4) (byte : Byte) (last : Bool) : Word := op ++ 0#19 ++ BitVec.ofBool last ++ byte

/-- The access by which the host issues an instruction: a command is its word written to `CMD` (rule R80), a register
operation is its pattern `w iii` (rule R89). -/
def encode : Instr → Access
  | .pkClr => writeOf 0 (encodeZ 0x1)
  | .pkCtclr => writeOf 0 (encodeZ 0x2)
  | .pkCtsel sym => writeOf 0 (encodeS 0x3 sym)
  | .pkCtapp n data => writeOf 0 (encodeB 0x4 n data)
  | .pkPush n data => writeOf 0 (encodeB 0x5 n data)
  | .pkEnc sym => writeOf 0 (encodeS 0x6 sym)
  | .pkFlush => writeOf 0 (encodeZ 0x7)
  | .decClr => writeOf 0 (encodeZ 0x8)
  | .decByte byte last => writeOf 0 (encodeD 0x9 byte last)
  | .rdCmd => readOf 0
  | .rdErr => readOf 1
  | .rdPkStat => readOf 2
  | .rdPkData => readOf 3
  | .rdDecStat => readOf 4
  | .rdDecData => readOf 5
  | .rdDecLen => readOf 6
  | .rdRsvd7 => readOf 7
  | .wrCmd w => writeOf 0 w
  | .wrErr w => writeOf 1 w
  | .wrPkStat w => writeOf 2 w
  | .wrPkData w => writeOf 3 w
  | .wrDecStat w => writeOf 4 w
  | .wrDecData w => writeOf 5 w
  | .wrDecLen w => writeOf 6 w
  | .wrRsvd7 w => writeOf 7 w

/-- The word of a command, `encode(X)` of rule R90. -/
def encodeWord (i : Instr) : Word := (encode i).data

/-- The one spelling of an access: `WR CMD` of a legal word IS that command (rule R90), everything else is itself. -/
def Instr.canonical : Instr → Instr
  | .wrCmd w => decodeCmdWrite w
  | i => i

/-- Whether an instruction is one of the nine commands of rule R85. -/
def Instr.isCommand : Instr → Bool
  | .pkClr | .pkCtclr | .pkCtsel _ | .pkCtapp _ _ | .pkPush _ _ | .pkEnc _ | .pkFlush | .decClr | .decByte _ _ => true
  | .rdCmd | .rdErr | .rdPkStat | .rdPkData | .rdDecStat | .rdDecData | .rdDecLen | .rdRsvd7 => false
  | .wrCmd _ | .wrErr _ | .wrPkStat _ | .wrPkData _ | .wrDecStat _ | .wrDecData _ | .wrDecLen _ | .wrRsvd7 _ => false

/-! ## The opcode table's bits -/

/-- The access that a row's bits stand for: 32 bits are a command word, written to `CMD` (rule R80); otherwise bits 3:0 are a
register operation's pattern `w iii` (rule R89) and a write's data word follows in bits 39:8 (DESIGN CHOICE, log entry 2). -/
def tableAccess (nbits w : Nat) : Access :=
  if nbits = 32 then writeOf 0 (BitVec.ofNat 32 w)
  else ⟨w.testBit 3, BitVec.ofNat 3 w, BitVec.ofNat 32 (w >>> 8)⟩

/-- The instruction of a row's bits: a command word that is legal, or a register operation whose pattern byte has nothing
above its four bits. -/
def decodeTableWord (nbits w : Nat) : Option Instr :=
  if nbits = 32 then
    match decodeCmd (BitVec.ofNat 32 w) with
    | .ok c => if w < 2 ^ 32 then some c else none
    | .error _ => none
  else if nbits ≤ 40 ∧ w < 2 ^ nbits ∧ w % 256 < 16 then some (decode (tableAccess nbits w))
  else none

end Sys2Proof
end

