-- ==== Sys2Proof/Machine/State.lean ====
section
/-! DEFINITION. The state of the block (rule R20), what the outside does to it, how a step can stop, and the state after reset. -/

namespace Sys2Proof.Machine

/-- The reasons the MODEL stops. No rule of the spec stops the machine (rule R13): the spec's own faults are latched in State
(`FaultCode`) and the machine goes on. -/
inductive Fault where
  /-- Raised by `DEC.BYTE` when TD or UD meets a node that rule R48 rules out: a Leaf or an unlinked child where rule R101 or
  R135 needs an Internal node with that child. No run reaches such a state, and the spec gives no effect there. Safe: the model
  stops where the spec says nothing (DEDUCED, log entry 5). -/
  | arenaBroken
  deriving DecidableEq, Repr

/-- The reasons an instruction is refused. Safe: the model stops. -/
inductive Refusal where
  /-- Raised by `exec` for an instruction that has no meaning yet. No arm raises it. -/
  | notModelled (mnemonic : String)
  deriving DecidableEq, Repr

/-- The 2-bit fault codes of rule R169. -/
inductive FaultCode where
  /-- 0: no fault. -/
  | noFault
  /-- 1: `MalformedTree`, rule R166. -/
  | malformedTree
  /-- 2: `CorruptPayload`, rule R167. -/
  | corruptPayload
  /-- 3: `UnsupportedInput`, rule R168. -/
  | unsupportedInput
  deriving DecidableEq, Repr

/-- What DEC expects next: rule R27. -/
inductive Phase where
  | hdr
  | tree
  | payload
  | done
  | fault
  deriving DecidableEq, Repr

/-- Which part of a node descriptor TD expects: rule R33. -/
inductive TMode where
  | tag
  | sym
  deriving DecidableEq, Repr

/-- Which child of an Internal node is missing: `L` and `R` of rule R32. -/
inductive Slot where
  | left
  | right
  deriving DecidableEq, Repr

/-- An index into the node arena, 0..510: rule R30. -/
abbrev NodeIdx := Fin Config.nodeCap

/-- One entry of the node arena, rule R30. A child field is `none` while it is unlinked (rules R101, R104). -/
inductive Node where
  | leaf (sym : Byte)
  | internal (left right : Option NodeIdx)
  deriving DecidableEq, Repr

/-- The packer's state: rules R21 to R26. -/
structure Pk where
  /-- `CODE[0..255]`, rule R21: `len` is the length of the bit string (93 U-2). -/
  code : Vector Bits Config.nsym
  /-- `CTSYM`, rule R22. -/
  ctsym : Byte
  /-- `ACC`, rule R23, the oldest bit first. -/
  acc : Bits
  /-- `FIFO`, rule R24, the oldest byte first. -/
  fifo : List Byte
  /-- `PAD`, rule R25. -/
  pad : Fin 8
  /-- `PKFAULT`, rule R26. -/
  fault : FaultCode
  deriving DecidableEq, Repr

/-- The decoder's state: rules R27 to R36. -/
structure Dec where
  /-- `PHASE`, rule R27. -/
  phase : Phase
  /-- `DFAULT`, rule R28. -/
  dfault : FaultCode
  /-- `PADREG`, rule R29. -/
  padreg : Fin 8
  /-- `NODE[0..510]`, rule R30. -/
  node : Vector Node Config.nodeCap
  /-- `NCOUNT`, rule R31. -/
  ncount : Fin (Config.nodeCap + 1)
  /-- `STK`, rule R32, with the TOP AT THE HEAD (DESIGN CHOICE, log entry 8). -/
  stk : List (NodeIdx × Slot)
  /-- `TMODE`, rule R33. -/
  tmode : TMode
  /-- `SYMCNT`, rule R33. -/
  symcnt : Fin 8
  /-- `SYMACC`, rule R33. -/
  symacc : Byte
  /-- `TLEAF`, rule R33. -/
  tleaf : NodeIdx
  /-- `TDONE`, rule R34. -/
  tdone : Bool
  /-- `CUR`, rule R35. -/
  cur : NodeIdx
  /-- `OBUF`, rule R36, the oldest symbol first. -/
  obuf : List Byte
  deriving DecidableEq, Repr

/-- The host port's register `ERR`: rule R40. -/
structure Err where
  /-- Bit 0. -/
  ill : Bool
  /-- Bit 1. -/
  seq : Bool
  deriving DecidableEq, Repr

/-- What the outside does to the block between two steps: one host access (rule R51), or the reset input (rule R185). -/
inductive Input where
  | access (a : Access)
  | reset
  deriving DecidableEq, Repr

/-- The state: the elements of rule R20 in `pk`, `dec` and `err`, and three fields of the model's own (log entries 1, 2). -/
structure State where
  pk  : Pk
  dec : Dec
  err : Err
  /-- The open parameters of rule R7; no step changes them. -/
  params : Params
  /-- What the outside will do, in the order the port receives it (rule R60). -/
  port : List Input
  /-- The words that reads have returned to the host, the oldest first (rules R151 to R159). -/
  replies : List Word
  deriving DecidableEq, Repr

/-- PK after reset: rule R47. -/
def Pk.reset : Pk :=
  { code := Vector.replicate Config.nsym [], ctsym := 0#8, acc := [], fifo := [], pad := 0, fault := .noFault }

/-- DEC after reset: rule R47. `NODE` is unspecified there; every entry is `Leaf{0}`, the value the rule offers
(DESIGN CHOICE, log entry 3). -/
def Dec.reset : Dec :=
  { phase := .hdr, dfault := .noFault, padreg := 0, node := Vector.replicate Config.nodeCap (.leaf 0#8), ncount := 0,
    stk := [], tmode := .tag, symcnt := 0, symacc := 0#8, tleaf := 0, tdone := false, cur := 0, obuf := [] }

/-- `ERR` after reset: rule R47. -/
def Err.reset : Err := { ill := false, seq := false }

/-- The machine right after reset, for parameters `p` (rule R47), with nothing done to it yet. -/
def State.resetWith (p : Params) : State :=
  { pk := .reset, dec := .reset, err := .reset, params := p, port := [], replies := [] }

/-- The parameters of `State.reset`: the largest the registers can show (DESIGN CHOICE, log entry 1). -/
def defaultParams : Params := { pkFifoCap := 65535, outCap := 2 ^ 32 - 1, base := 0 }

/-- The machine right after reset. -/
def State.reset : State := .resetWith defaultParams

end Sys2Proof.Machine
end

