-- ==== Sys2Proof/Machine/Flags.lean ====
section
/-! DEFINITION. The flags and the words of the status registers (rules R39 to R45). -/

namespace Sys2Proof.Machine

/-- The 2-bit number of a fault code: rule R169. -/
def FaultCode.code : FaultCode → BitVec 2
  | .noFault => 0#2
  | .malformedTree => 1#2
  | .corruptPayload => 2#2
  | .unsupportedInput => 3#2

/-- The 3-bit number of a phase: rule R27. -/
def Phase.code : Phase → BitVec 3
  | .hdr => 0#3
  | .tree => 1#3
  | .payload => 2#3
  | .done => 3#3
  | .fault => 4#3

/-- `set ERR.ILL`: rules R12, R40. -/
def setIll (s : State) : State := { s with err := { s.err with ill := true } }

/-- `set ERR.SEQ`: rules R12, R40. -/
def setSeq (s : State) : State := { s with err := { s.err with seq := true } }

/-- Write-one-to-clear: rules R40, R153. -/
def Err.clear (e : Err) (w : Word) : Err := { ill := e.ill && !w.getLsbD 0, seq := e.seq && !w.getLsbD 1 }

/-- The word of `ERR`, rule R152: bit 0 `ILL`, bit 1 `SEQ`, bits 31:2 zero. -/
def errWord (e : Err) : Word := 0#30 ++ BitVec.ofBool e.seq ++ BitVec.ofBool e.ill

/-- The word of `PK_STAT`, rules R42, R154: `LEVEL << 16 | ACCN << 8 | PKFAULT << 4 | PAD`. -/
def pkStatWord (p : Pk) : Word :=
  (BitVec.ofNat 32 p.fifo.length <<< 16) ||| (BitVec.ofNat 32 p.acc.length <<< 8)
    ||| (p.fault.code.setWidth 32 <<< 4) ||| BitVec.ofNat 32 p.pad.val

/-- The word of `DEC_STAT`, rules R43, R156: `DFAULT << 4 | PHASE`. -/
def decStatWord (d : Dec) : Word := (d.dfault.code.setWidth 32 <<< 4) ||| d.phase.code.setWidth 32

/-- The word of `DEC_LEN`, rules R45, R158: `|OBUF|` in phase DONE, else 0. -/
def decLenWord (d : Dec) : Word := if d.phase = .done then BitVec.ofNat 32 d.obuf.length else 0#32

/-- A data word with `VALID = 1`: rule R44. -/
def validWord (b : Byte) : Word := 0x80000000#32 ||| b.setWidth 32

end Sys2Proof.Machine
end

