-- ==== Sys2Proof/Machine/Operands.lean ====
section
/-! DEFINITION. Bit strings and bytes: the operand forms of the commands and of the data formats (rules R9, R10, R54, R55). -/

namespace Sys2Proof.Machine

/-- `bitsMSB(n, v)`, rule R10: the low `n` bits of `v`, the most significant of them first. -/
def bitsMSB {w : Nat} : Nat → BitVec w → Bits
  | 0, _ => []
  | n + 1, v => v.getLsbD n :: bitsMSB n v

/-- `zeros(n)`, rule R10. -/
def zeros (n : Nat) : Bits := List.replicate n false

/-- `(a << 1 | b)[7:0]`: rule R33. -/
def shiftIn (a : Byte) (b : Bool) : Byte := (a <<< 1) ||| (if b then 1#8 else 0#8)

/-- `byteOf(s)` for a string of 8 bits, rule R10: the first bit becomes bit 7, the last bit 0. -/
def byteOf (s : Bits) : Byte := s.foldl shiftIn 0#8

/-- `bytesOf(s)`, rule R10: groups of 8 bits in order, each a byte, most significant bit first (rule R54). Bits after the last
whole group make no byte. -/
def bytesOf : Bits → List Byte
  | b7 :: b6 :: b5 :: b4 :: b3 :: b2 :: b1 :: b0 :: rest => byteOf [b7, b6, b5, b4, b3, b2, b1, b0] :: bytesOf rest
  | _ => []

/-- `bitsOf(B)`: rule R10. -/
def bitsOf : List Byte → Bits
  | [] => []
  | b :: rest => bitsMSB 8 b ++ bitsOf rest

/-- The padding count `(8 - n mod 8) mod 8` of a string of `n` bits: rules R73, R74, R119. -/
def padOf (n : Nat) : Nat := (8 - n % 8) % 8

/-- How many bits of a payload byte are logical: rule R137's `m`. -/
def logicalBits (last : Bool) (padreg : Fin 8) : Nat := if last then 8 - padreg.val else 8

end Sys2Proof.Machine
end

