-- ==== Sys2Proof/Machine/Ops.lean ====
section
/-! DEFINITION. The named operations over the state: the accessors of the two arrays, fault entry and return, and how a command
acts on its unit. -/

namespace Sys2Proof.Machine

/-! ## The code table and the node arena: rules R50, R58 -/

/-- `CODE[sym]`. -/
def Pk.codeOf (p : Pk) (sym : Byte) : Bits := p.code[sym.toNat]'sym.isLt

/-- `CODE[sym] <- bits`. -/
def Pk.setCode (p : Pk) (sym : Byte) (bits : Bits) : Pk := { p with code := p.code.set sym.toNat bits sym.isLt }

/-- `NODE[i]`. -/
def Dec.nodeAt (d : Dec) (i : NodeIdx) : Node := d.node[i.val]'i.isLt

/-- `NODE[i] <- n`. -/
def Dec.setNode (d : Dec) (i : NodeIdx) (n : Node) : Dec := { d with node := d.node.set i.val n i.isLt }

/-- The child of an Internal node on branch `b`, left on 0 and right on 1: rule R135. -/
def Node.child : Node → Bool → Option NodeIdx
  | .leaf _, _ => none
  | .internal l r, b => if b then r else l

/-- Whether a node is a Leaf: rule R106 (a). -/
def Node.isLeaf : Node → Bool
  | .leaf _ => true
  | .internal _ _ => false

/-! ## Faults: entry and return -/

/-- PK fault entry, rule R172, on the state the command started from. `CODE` and `CTSYM` keep their values. -/
def pkFaultEntry (c : FaultCode) (p : Pk) : Pk := { p with fault := c, fifo := [], acc := [], pad := 0 }

/-- DEC fault entry, rule R173, on the state the command started from. Everything else keeps its value. -/
def decFaultEntry (c : FaultCode) (d : Dec) : Dec := { d with phase := .fault, dfault := c, obuf := [] }

/-- Leaving the PK fault state, which starts a new session: rules R118, R176. -/
def pkRestart (p : Pk) : Pk := { p with fault := .noFault, fifo := [], acc := [], pad := 0 }

/-- Leaving phases DONE and FAULT, which starts a new session, rules R131, R176. `NODE` is left as it is. -/
def decRestart (d : Dec) : Dec := { Dec.reset with node := d.node }

/-- The reset input, rule R185: every element takes its reset value (rule R47). `NODE` is not cleared (rule R187; DESIGN CHOICE,
log entry 4); the parameters, what the outside does next and what it has read are not the block's. -/
def resetInput (s : State) : State := { s with pk := .reset, dec := decRestart s.dec, err := .reset }

/-! ## How a command acts on its unit -/

/-- A `PK.*` command other than `PK.CLR`, rule R110: dropped while PK is faulted; otherwise all its changes, or none of them
and fault entry. -/
def pkCommand (f : Pk → Except FaultCode Pk) (s : State) : Host.Outcome State Fault Refusal :=
  if s.pk.fault = .noFault then
    match f s.pk with
    | .ok p => .next { s with pk := p }
    | .error c => .next { s with pk := pkFaultEntry c s.pk }
  else .next s

/-- Why a `DEC.BYTE` is abandoned. The type is a sum so that it is plain data: `inl c` is `raise DecFault(c)` (rule R12), `inr r`
is a stop of the model. -/
abbrev DecStop := FaultCode ⊕ Fault

/-- `raise DecFault(c)`: rule R12. -/
def raiseDec {α : Type} (c : FaultCode) : Except DecStop α := .error (.inl c)

/-- The model's stop on a node that rule R48 rules out (log entry 5). -/
def brokenArena {α : Type} : Except DecStop α := .error (.inr .arenaBroken)

/-- A `DEC.BYTE` that DEC accepts: all its changes, or none of them and fault entry (rule R173). -/
def decCommand (f : Dec → Except DecStop Dec) (s : State) : Host.Outcome State Fault Refusal :=
  match f s.dec with
  | .ok d => .next { s with dec := d }
  | .error (.inl c) => .next { s with dec := decFaultEntry c s.dec }
  | .error (.inr r) => .fault r

/-! ## Register reads -/

/-- A read returns `w` to the host. -/
def reply (w : Word) (s : State) : State := { s with replies := s.replies ++ [w] }

end Sys2Proof.Machine
end

