-- ==== Sys2Proof/Machine/Decoder.lean ====
section
/-! DEFINITION. `DEC.CLR` and `DEC.BYTE`: the header (rule R133), the tree deserializer (rules R100 to R107), the tree walk
(rules R135 to R138). -/

namespace Sys2Proof.Machine

/-! ## The tree deserializer: phase TREE -/

/-- Link node `i` to the parent on top of `STK`, if there is one: the middle part of rule R101. -/
def linkParent (i : NodeIdx) (d : Dec) : Except DecStop Dec :=
  match d.stk with
  | [] => .ok d
  | (p, .left) :: rest =>
    match d.nodeAt p with
    | .internal _ r => .ok { d.setNode p (.internal (some i) r) with stk := (p, .right) :: rest }
    | .leaf _ => brokenArena
  | (p, .right) :: rest =>
    match d.nodeAt p with
    | .internal l _ => .ok { d.setNode p (.internal l (some i)) with stk := rest }
    | .leaf _ => brokenArena

/-- Start node `i`, whose tag is `b`: the last part of rule R101. -/
def startNode (i : NodeIdx) (b : Bool) (d : Dec) : Dec :=
  if b then { d with tleaf := i, tmode := .sym, symcnt := 0, symacc := 0#8 }
  else { d.setNode i (.internal none none) with stk := (i, .left) :: d.stk }

/-- `TdBit(b)` with `TMODE = TAG`, rule R101. A 512th node faults before anything is written (U1). -/
def tdTag (b : Bool) (d : Dec) : Except DecStop Dec :=
  if h : d.ncount.val < Config.nodeCap then
    match linkParent ⟨d.ncount.val, h⟩ d with
    | .ok d1 =>
      .ok (startNode ⟨d.ncount.val, h⟩ b { d1 with ncount := ⟨d.ncount.val + 1, Nat.succ_lt_succ h⟩ })
    | .error e => .error e
  else raiseDec .unsupportedInput

/-- `TdBit(b)` with `TMODE = SYM`, rule R102: on the eighth bit the leaf is stored, and the tree is complete if `STK` is empty
(rule R103). -/
def tdSym (b : Bool) (d : Dec) : Dec :=
  if d.symcnt.val + 1 = 8 then
    { d.setNode d.tleaf (.leaf (shiftIn d.symacc b)) with
      symacc := shiftIn d.symacc b, symcnt := 0, tmode := .tag, tdone := d.tdone || d.stk.isEmpty }
  else { d with symacc := shiftIn d.symacc b, symcnt := d.symcnt + 1 }

/-- `TdBit(b)`: rule R100. -/
def tdBit (b : Bool) (d : Dec) : Except DecStop Dec :=
  match d.tmode with
  | .tag => tdTag b d
  | .sym => .ok (tdSym b d)

/-- The loop of rule R105: the bits after the one that completes the tree are the section's padding and are skipped. -/
def tdBits : Bits → Dec → Except DecStop Dec
  | [], d => .ok d
  | b :: rest, d =>
    if d.tdone then .ok d
    else
      match tdBit b d with
      | .ok d1 => tdBits rest d1
      | .error e => .error e

/-- The end of the tree section: rule R106, its tests in its order. -/
def treeEnd (last : Bool) (d : Dec) : Except DecStop Dec :=
  if (d.nodeAt 0).isLeaf then raiseDec .malformedTree
  else if last = false then .ok { d with cur := 0, phase := .payload }
  else if d.padreg = 0 then .ok { d with cur := 0, phase := .done }
  else raiseDec .corruptPayload

/-- `DEC.BYTE` in phase TREE: rules R105, R107. -/
def treeByte (byte : Byte) (last : Bool) (d : Dec) : Except DecStop Dec :=
  match tdBits (bitsMSB 8 byte) d with
  | .ok d1 => if d1.tdone then treeEnd last d1 else if last then raiseDec .malformedTree else .ok d1
  | .error e => .error e

/-! ## The header: phase HDR -/

/-- `DEC.BYTE` in phase HDR: rule R133, its tests in its order. -/
def hdrByte (byte : Byte) (last : Bool) (d : Dec) : Except DecStop Dec :=
  if byte.toNat > Config.padMax then raiseDec .corruptPayload
  else if last = false then .ok { d with padreg := Fin.ofNat 8 byte.toNat, phase := .tree }
  else if byte = 0#8 then .ok { d with padreg := Fin.ofNat 8 byte.toNat, phase := .done }
  else raiseDec .malformedTree

/-! ## The tree walk: phase PAYLOAD -/

/-- `UdBit(b)`, rule R135. Its precondition is that `NODE[CUR]` is Internal with both children linked. -/
def udBit (outCap : Nat) (b : Bool) (d : Dec) : Except DecStop Dec :=
  match (d.nodeAt d.cur).child b with
  | none => brokenArena
  | some nxt =>
    match d.nodeAt nxt with
    | .leaf sym =>
      if d.obuf.length = outCap then raiseDec .unsupportedInput
      else .ok { d with obuf := d.obuf ++ [sym], cur := 0 }
    | .internal _ _ => .ok { d with cur := nxt }

/-- The loop of rule R137. -/
def udBits (outCap : Nat) : Bits → Dec → Except DecStop Dec
  | [], d => .ok d
  | b :: rest, d =>
    match udBit outCap b d with
    | .ok d1 => udBits outCap rest d1
    | .error e => .error e

/-- The end of the payload: rule R138. -/
def payloadEnd (d : Dec) : Except DecStop Dec :=
  if d.cur = 0 then .ok { d with phase := .done } else raiseDec .corruptPayload

/-- `DEC.BYTE` in phase PAYLOAD: rule R137. The padding bits of the last byte are not looked at. -/
def payloadByte (outCap : Nat) (byte : Byte) (last : Bool) (d : Dec) : Except DecStop Dec :=
  match udBits outCap ((bitsMSB 8 byte).take (logicalBits last d.padreg)) d with
  | .ok d1 => if last then payloadEnd d1 else .ok d1
  | .error e => .error e

/-! ## The two commands -/

/-- `DEC.CLR`, rule R131: executes in every phase. -/
def execDecClr (s : State) : Host.Outcome State Fault Refusal := .next { s with dec := decRestart s.dec }

/-- `DEC.BYTE byte, last`, rule R132. -/
def execDecByte (byte : Byte) (last : Bool) (s : State) : Host.Outcome State Fault Refusal :=
  match s.dec.phase with
  | .hdr => decCommand (hdrByte byte last) s
  | .tree => decCommand (treeByte byte last) s
  | .payload => decCommand (payloadByte s.params.outCap byte last) s
  | .done => .next (setSeq s)
  | .fault => .next s

end Sys2Proof.Machine
end

