-- ==== Sys2Proof/Machine/Packer.lean ====
section
/-! DEFINITION. The seven `PK.*` commands (rules R110 to R118). -/

namespace Sys2Proof.Machine

/-- `Append(s)`, rule R111: the oldest pending bits first, whole bytes to the FIFO, the rest pending; one capacity check for the
whole string. -/
def append (cap : Nat) (bits : Bits) (p : Pk) : Except FaultCode Pk :=
  if p.fifo.length + (p.acc.length + bits.length) / 8 > cap then .error .unsupportedInput
  else
    .ok { p with
      fifo := p.fifo ++ bytesOf ((p.acc ++ bits).take (8 * ((p.acc.length + bits.length) / 8)))
      acc := (p.acc ++ bits).drop (8 * ((p.acc.length + bits.length) / 8)) }

/-- Rule R114: append bits to the code of the selected symbol, at most 255 in all. -/
def extendCode (n : Nat) (data : BitVec 16) (p : Pk) : Except FaultCode Pk :=
  if (p.codeOf p.ctsym).length + n > Config.maxCodeLen then .error .unsupportedInput
  else .ok (p.setCode p.ctsym (p.codeOf p.ctsym ++ bitsMSB n data))

/-- Rule R116: a symbol with no code loaded faults (U4) before the FIFO is looked at (U5, rule R174). -/
def encodeSymbol (cap : Nat) (sym : Byte) (p : Pk) : Except FaultCode Pk :=
  if (p.codeOf sym).length = 0 then .error .unsupportedInput else append cap (p.codeOf sym) p

/-- Rule R117: pad the partial byte with zeros and record the count. -/
def flush (cap : Nat) (p : Pk) : Except FaultCode Pk :=
  if p.acc.length = 0 then .ok { p with pad := 0 }
  else if p.fifo.length + 1 > cap then .error .unsupportedInput
  else
    .ok { p with
      fifo := p.fifo ++ [byteOf (p.acc ++ zeros (8 - p.acc.length))]
      acc := []
      pad := Fin.ofNat 8 (8 - p.acc.length) }

/-- `PK.CLR`, rule R118: executes in every state. -/
def execPkClr (s : State) : Host.Outcome State Fault Refusal := .next { s with pk := pkRestart s.pk }

/-- `PK.CTCLR`, rule R112. -/
def execPkCtclr (s : State) : Host.Outcome State Fault Refusal :=
  pkCommand (fun p => .ok { p with code := Vector.replicate Config.nsym [], ctsym := 0#8 }) s

/-- `PK.CTSEL sym`, rule R113. -/
def execPkCtsel (sym : Byte) (s : State) : Host.Outcome State Fault Refusal :=
  pkCommand (fun p => .ok { p.setCode sym [] with ctsym := sym }) s

/-- `PK.CTAPP n, data`, rule R114. -/
def execPkCtapp (n : Nat) (data : BitVec 16) (s : State) : Host.Outcome State Fault Refusal :=
  pkCommand (extendCode n data) s

/-- `PK.PUSH n, data`, rule R115. -/
def execPkPush (n : Nat) (data : BitVec 16) (s : State) : Host.Outcome State Fault Refusal :=
  pkCommand (append s.params.pkFifoCap (bitsMSB n data)) s

/-- `PK.ENC sym`, rule R116. -/
def execPkEnc (sym : Byte) (s : State) : Host.Outcome State Fault Refusal :=
  pkCommand (encodeSymbol s.params.pkFifoCap sym) s

/-- `PK.FLUSH`, rule R117. -/
def execPkFlush (s : State) : Host.Outcome State Fault Refusal := pkCommand (flush s.params.pkFifoCap) s

end Sys2Proof.Machine
end

