-- ==== Sys2Proof/Machine/HostAccess.lean ====
section
/-! DEFINITION. The sixteen register operations (rules R150 to R160). -/

namespace Sys2Proof.Machine

/-! ## Reads -/

/-- `RD CMD`, rule R151. -/
def execRdCmd (s : State) : Host.Outcome State Fault Refusal := .next (reply 0#32 s)

/-- `RD ERR`, rule R152. -/
def execRdErr (s : State) : Host.Outcome State Fault Refusal := .next (reply (errWord s.err) s)

/-- `RD PK_STAT`, rule R154. -/
def execRdPkStat (s : State) : Host.Outcome State Fault Refusal := .next (reply (pkStatWord s.pk) s)

/-- `RD PK_DATA`, rule R155: pops a byte if there is one, in every PK state. -/
def execRdPkData (s : State) : Host.Outcome State Fault Refusal :=
  match s.pk.fifo with
  | b :: rest => .next (reply (validWord b) { s with pk := { s.pk with fifo := rest } })
  | [] => .next (reply 0#32 s)

/-- `RD DEC_STAT`, rule R156. -/
def execRdDecStat (s : State) : Host.Outcome State Fault Refusal := .next (reply (decStatWord s.dec) s)

/-- `RD DEC_DATA`, rule R157: pops a symbol in phase DONE only. -/
def execRdDecData (s : State) : Host.Outcome State Fault Refusal :=
  if s.dec.phase = .done then
    match s.dec.obuf with
    | b :: rest => .next (reply (validWord b) { s with dec := { s.dec with obuf := rest } })
    | [] => .next (reply 0#32 s)
  else .next (reply 0#32 s)

/-- `RD DEC_LEN`, rule R158. -/
def execRdDecLen (s : State) : Host.Outcome State Fault Refusal := .next (reply (decLenWord s.dec) s)

/-- `RD RSVD7`, rule R159. -/
def execRdRsvd7 (s : State) : Host.Outcome State Fault Refusal := .next (reply 0#32 s)

/-! ## Writes -/

/-- Execute a command: the case list of rule R150. A register operation is no command, and no word decodes to one. -/
def execCommand (c : Instr) (s : State) : Host.Outcome State Fault Refusal :=
  match c with
  | .pkClr => execPkClr s
  | .pkCtclr => execPkCtclr s
  | .pkCtsel sym => execPkCtsel sym s
  | .pkCtapp n data => execPkCtapp n data s
  | .pkPush n data => execPkPush n data s
  | .pkEnc sym => execPkEnc sym s
  | .pkFlush => execPkFlush s
  | .decClr => execDecClr s
  | .decByte byte last => execDecByte byte last s
  | .rdCmd | .rdErr | .rdPkStat | .rdPkData | .rdDecStat | .rdDecData | .rdDecLen | .rdRsvd7 => .next (setIll s)
  | .wrCmd _ | .wrErr _ | .wrPkStat _ | .wrPkData _ | .wrDecStat _ | .wrDecData _ | .wrDecLen _ | .wrRsvd7 _ =>
    .next (setIll s)

/-- `WR CMD, w`, rule R150: an illegal word sets `ERR.ILL` and changes nothing else (rule R86); a legal one is executed. -/
def execWrCmd (w : Word) (s : State) : Host.Outcome State Fault Refusal :=
  match decodeCmd w with
  | .ok c => execCommand c s
  | .error _ => .next (setIll s)

/-- `WR ERR, w`, rule R153. -/
def execWrErr (w : Word) (s : State) : Host.Outcome State Fault Refusal := .next { s with err := s.err.clear w }

/-- `WR PK_STAT, w`, rule R160: ignored. -/
def execWrPkStat (_w : Word) (s : State) : Host.Outcome State Fault Refusal := .next s

/-- `WR PK_DATA, w`, rule R160: ignored. -/
def execWrPkData (_w : Word) (s : State) : Host.Outcome State Fault Refusal := .next s

/-- `WR DEC_STAT, w`, rule R160: ignored. -/
def execWrDecStat (_w : Word) (s : State) : Host.Outcome State Fault Refusal := .next s

/-- `WR DEC_DATA, w`, rule R160: ignored. -/
def execWrDecData (_w : Word) (s : State) : Host.Outcome State Fault Refusal := .next s

/-- `WR DEC_LEN, w`, rule R160: ignored. -/
def execWrDecLen (_w : Word) (s : State) : Host.Outcome State Fault Refusal := .next s

/-- `WR RSVD7, w`, rule R159: ignored. -/
def execWrRsvd7 (_w : Word) (s : State) : Host.Outcome State Fault Refusal := .next s

end Sys2Proof.Machine
end

