-- ==== Sys2Proof/Machine/Dispatch.lean ====
section
/-! DEFINITION. The one match from an instruction to its meaning. -/

namespace Sys2Proof.Machine

def exec (i : Instr) (s : State) : Host.Outcome State Fault Refusal :=
  match i with
  | .pkClr => Sys2Proof.Machine.execPkClr s
  | .pkCtclr => Sys2Proof.Machine.execPkCtclr s
  | .pkCtsel sym => Sys2Proof.Machine.execPkCtsel sym s
  | .pkCtapp n data => Sys2Proof.Machine.execPkCtapp n data s
  | .pkPush n data => Sys2Proof.Machine.execPkPush n data s
  | .pkEnc sym => Sys2Proof.Machine.execPkEnc sym s
  | .pkFlush => Sys2Proof.Machine.execPkFlush s
  | .decClr => Sys2Proof.Machine.execDecClr s
  | .decByte byte last => Sys2Proof.Machine.execDecByte byte last s
  | .rdCmd => Sys2Proof.Machine.execRdCmd s
  | .rdErr => Sys2Proof.Machine.execRdErr s
  | .rdPkStat => Sys2Proof.Machine.execRdPkStat s
  | .rdPkData => Sys2Proof.Machine.execRdPkData s
  | .rdDecStat => Sys2Proof.Machine.execRdDecStat s
  | .rdDecData => Sys2Proof.Machine.execRdDecData s
  | .rdDecLen => Sys2Proof.Machine.execRdDecLen s
  | .rdRsvd7 => Sys2Proof.Machine.execRdRsvd7 s
  | .wrCmd word => Sys2Proof.Machine.execWrCmd word s
  | .wrErr word => Sys2Proof.Machine.execWrErr word s
  | .wrPkStat word => Sys2Proof.Machine.execWrPkStat word s
  | .wrPkData word => Sys2Proof.Machine.execWrPkData word s
  | .wrDecStat word => Sys2Proof.Machine.execWrDecStat word s
  | .wrDecData word => Sys2Proof.Machine.execWrDecData word s
  | .wrDecLen word => Sys2Proof.Machine.execWrDecLen word s
  | .wrRsvd7 word => Sys2Proof.Machine.execWrRsvd7 word s

end Sys2Proof.Machine
end

