-- ==== Sys2Proof/Machine/Step.lean ====
section
/-! DEFINITION. One step, and the placing of an instruction where the next step takes it. -/

namespace Sys2Proof.Machine

/-- One step: the first thing waiting at the port, whole (rule R60). An access is decoded and executed; the reset input resets
the block (rule R185); with nothing waiting the block does nothing, since it never acts by itself (rules R5, R194; DEDUCED, log
entry 2). -/
def step (s : State) : Host.Outcome State Fault Refusal :=
  match s.port with
  | [] => .next s
  | .access a :: rest => exec (decode a) { s with port := rest }
  | .reset :: rest => .next (resetInput { s with port := rest })

/-- `s` with the access of an opcode-table row's bits waiting first at the port, so that the next step is that instruction. -/
def State.withFetchWord (s : State) (nbits w : Nat) : State :=
  { s with port := .access (tableAccess nbits w) :: s.port }

end Sys2Proof.Machine
end

