-- ==== Sys2Proof/Machine/Reference.lean ====
section
/-! DEFINITION. The spec's reference functions: the serialized tree (rule R71), the sections and the container (rules R73 to
R76), `Parse` (rule R108), `Pack` (rule R119), `Decode` and `Walk` (rule R141), and sequences of accesses (rules R60, R91). No
instruction calls them; claims about whole sessions are stated with them. -/

namespace Sys2Proof.Machine

/-! ## Trees and their serialization -/

/-- A code tree, rule R71: weights are not serialized. -/
inductive CodeTree where
  | leaf (sym : Byte)
  | internal (left right : CodeTree)
  deriving DecidableEq, Repr

/-- The number of nodes: `nodes(t)` of rule R109. -/
def CodeTree.nodes : CodeTree → Nat
  | .leaf _ => 1
  | .internal l r => l.nodes + r.nodes + 1

/-- Whether the root is a Leaf. -/
def CodeTree.isLeaf : CodeTree → Bool
  | .leaf _ => true
  | .internal _ _ => false

/-- `Ser(t)`: rule R71. -/
def CodeTree.ser : CodeTree → Bits
  | .leaf sym => true :: bitsMSB 8 sym
  | .internal l r => false :: (l.ser ++ r.ser)

/-- The paths of a tree, `0` left and `1` right: the entries of a code table read off it (rules R74, R142). A symbol on several
leaves has several. -/
def CodeTree.paths : CodeTree → List (Byte × Bits)
  | .leaf sym => [(sym, [])]
  | .internal l r => l.paths.map (fun e => (e.1, false :: e.2)) ++ r.paths.map (fun e => (e.1, true :: e.2))

/-- A packed section, `bytesOf(s ++ zeros(p))` with `p = (8 - |s| mod 8) mod 8`: rules R73, R74. -/
def sectionOf (s : Bits) : List Byte := bytesOf (s ++ zeros (padOf s.length))

/-- `Pack(s_1..s_m)`: rule R119. -/
def packOf (strings : List Bits) : List Byte × Nat := (sectionOf strings.flatten, padOf strings.flatten.length)

/-- The payload bit string of `x` under the code table `code`: rule R74. -/
def payloadOf (code : Byte → Bits) (x : List Byte) : Bits := (x.map code).flatten

/-- `Cont(t, x)`, header, tree section, payload section: rules R76, R142. -/
def containerOf (t : CodeTree) (code : Byte → Bits) (x : List Byte) : List Byte :=
  BitVec.ofNat 8 (padOf (payloadOf code x).length) :: (sectionOf t.ser ++ sectionOf (payloadOf code x))

/-! ## Parse -/

/-- The two errors of rule R108. -/
inductive ParseError where
  | exhausted
  | tooManyNodes
  deriving DecidableEq, Repr

/-- `Parse(s, k)` of rule R108, with fuel for the depth. A node at depth `j` is started with `k >= j` nodes before it and the
512th is an error, so fuel 512 never runs out. -/
def parseFuel : Nat → Bits → Nat → Except ParseError (CodeTree × Bits × Nat)
  | _, [], _ => .error .exhausted
  | 0, _ :: _, _ => .error .tooManyNodes
  | fuel + 1, b :: r, k =>
    if k = Config.nodeCap then .error .tooManyNodes
    else if b then
      if r.length < 8 then .error .exhausted else .ok (.leaf (byteOf (r.take 8)), r.drop 8, k + 1)
    else
      match parseFuel fuel r (k + 1) with
      | .error e => .error e
      | .ok (l, r1, k1) =>
        match parseFuel fuel r1 k1 with
        | .error e => .error e
        | .ok (rt, r2, k2) => .ok (.internal l rt, r2, k2)

/-- `Parse(s, 0)`: rule R108. -/
def parse (s : Bits) : Except ParseError (CodeTree × Bits × Nat) := parseFuel (Config.nodeCap + 1) s 0

/-! ## Decode -/

/-- `Walk(t, cur, L, out)` of rule R141. It never stands on a Leaf, since the root is Internal and a Leaf is left at once. -/
def walk (outCap : Nat) (t : CodeTree) : CodeTree → Bits → List Byte → Except FaultCode (List Byte)
  | cur, [], out => if cur = t then .ok out else .error .corruptPayload
  | .leaf _, _ :: _, _ => .error .corruptPayload
  | .internal l r, b :: rest, out =>
    match (if b then r else l) with
    | .leaf sym => if out.length = outCap then .error .unsupportedInput else walk outCap t t rest (out ++ [sym])
    | .internal l' r' => walk outCap t (.internal l' r') rest out

/-- The fault of a parse error: rule R141. -/
def ParseError.fault : ParseError → FaultCode
  | .exhausted => .malformedTree
  | .tooManyNodes => .unsupportedInput

/-- The payload part of rule R141: `pl` is the payload section, `h` the header. -/
def decodePayload (outCap : Nat) (t : CodeTree) (h : Byte) (pl : List Byte) : Except FaultCode (List Byte) :=
  if pl = [] ∧ h.toNat > 0 then .error .corruptPayload
  else walk outCap t t ((bitsOf pl).take (8 * pl.length - h.toNat)) []

/-- `Decode(B)`: rule R141. -/
def decodeFrame (outCap : Nat) : List Byte → Except FaultCode (List Byte)
  | [] => .error .malformedTree
  | h :: body =>
    if h.toNat > Config.padMax then .error .corruptPayload
    else if body = [] then (if h.toNat = 0 then .ok [] else .error .malformedTree)
    else
      match parse (bitsOf body) with
      | .error e => .error e.fault
      | .ok (t, rest, _) =>
        if t.isLeaf then .error .malformedTree
        else decodePayload outCap t h (body.drop ((8 * body.length - rest.length + 7) / 8))

/-! ## Sequences of accesses -/

/-- Instructions one after the other, each whole before the next: rule R60. -/
def execAll : List Instr → State → Host.Outcome State Fault Refusal
  | [], s => .next s
  | i :: rest, s =>
    match exec i s with
    | .next t => execAll rest t
    | .fault r => .fault r
    | .refused r => .refused r

/-- The pseudo-command `DEC.FRAME b0 ... bm`: rule R91. -/
def frameOf : List Byte → List Instr
  | [] => []
  | [b] => [.decByte b true]
  | b :: c :: rest => .decByte b false :: frameOf (c :: rest)

/-- The bit string a command appends to the packed stream under the code table of `p`: rules R115, R116. -/
def appendedBits (p : Pk) : Instr → Option Bits
  | .pkPush n data => if formatBOk n data then some (bitsMSB n data) else none
  | .pkEnc sym => if p.codeOf sym = [] then none else some (p.codeOf sym)
  | _ => none

end Sys2Proof.Machine
end

