-- ==== Sys2Proof/Safety.lean ====
section
/-! DEFINITION. What holds of the state in every run (rule R48, made inductive), and what a claim may observe. -/

namespace Sys2Proof.Machine

/-! ## The packer -/

/-- Rule R48, items 1 and 2. -/
structure Pk.Inv (cap : Nat) (p : Pk) : Prop where
  acc_short : p.acc.length ≤ 7
  fifo_fits : p.fifo.length ≤ cap
  codes_short : ∀ sym : Byte, (p.codeOf sym).length ≤ Config.maxCodeLen
  fault_code : p.fault = .noFault ∨ p.fault = .unsupportedInput
  fault_empty : p.fault ≠ .noFault → p.fifo = [] ∧ p.acc = [] ∧ p.pad = 0

/-! ## The arena -/

/-- A node whose entry means something: allocated (rule R30), and not the leaf whose symbol is still being collected, whose
entry is not written before its eighth symbol bit (rule R102). -/
def Dec.Settled (d : Dec) (i : NodeIdx) : Prop := i.val < d.ncount.val ∧ ¬(d.tmode = .sym ∧ i = d.tleaf)

/-- The children of Internal node `i`: linked to allocated nodes, the left one to `i + 1` (rule R104), and missing exactly while
`STK` says so (rule R32). -/
def Dec.LinksOk (d : Dec) (i : NodeIdx) : Option NodeIdx → Option NodeIdx → Prop
  | none, none => (i, Slot.left) ∈ d.stk
  | some l, none => (i, Slot.right) ∈ d.stk ∧ l.val = i.val + 1 ∧ l.val < d.ncount.val
  | some l, some r => l.val = i.val + 1 ∧ l.val < r.val ∧ r.val < d.ncount.val
  | none, some _ => False

/-- What an entry of `STK` says of its node: rule R32. -/
def Dec.OpenOk (d : Dec) (e : NodeIdx × Slot) : Prop :=
  d.Settled e.1 ∧
    match e.2 with
    | .left => d.nodeAt e.1 = .internal none none ∧ e.1.val + 1 = d.ncount.val
    | .right => ∃ l, d.nodeAt e.1 = .internal (some l) none

/-- The complete subtree at node `i` of arena `a` occupies exactly the entries `i` to `e - 1`, in pre-order: rule R104. -/
inductive Spans (a : Vector Node Config.nodeCap) : NodeIdx → Nat → Prop where
  | leaf {i : NodeIdx} {e : Nat} {sym : Byte} : a[i.val]'i.isLt = .leaf sym → e = i.val + 1 → Spans a i e
  | internal {i l r : NodeIdx} {e : Nat} : a[i.val]'i.isLt = .internal (some l) (some r) → l.val = i.val + 1 →
      Spans a l r.val → Spans a r e → Spans a i e

/-- Node `b` is on the right spine of the unfinished subtree at `i`: every node passed has its left subtree complete. -/
inductive Spine (a : Vector Node Config.nodeCap) : NodeIdx → NodeIdx → Prop where
  | here {b : NodeIdx} : Spine a b b
  | right {i l r b : NodeIdx} : a[i.val]'i.isLt = .internal (some l) (some r) → l.val = i.val + 1 → Spans a l r.val →
      Spine a r b → Spine a i b

/-- The nodes before `b` are in pre-order, and the open nodes of `stk` are those that still miss their right child while the
subtree at `b` is unfinished: rules R32, R104. -/
def Awaits (a : Vector Node Config.nodeCap) : List (NodeIdx × Slot) → NodeIdx → Prop
  | [], b => Spine a 0 b
  | (q, _) :: rest, b => ∃ l : NodeIdx, a[q.val]'q.isLt = .internal (some l) none ∧ l.val = q.val + 1 ∧ Spine a l b ∧ Awaits a rest q

/-- The arena so far is in pre-order of arrival, between two bits: rule R104. -/
def Dec.Ordered (d : Dec) : Prop :=
  match d.tmode, d.stk with
  | .sym, stk => Awaits d.node stk d.tleaf
  | .tag, [] => d.ncount.val = 0 ∨ Spans d.node 0 d.ncount.val
  | .tag, (p, .left) :: rest => Awaits d.node rest p
  | .tag, (p, .right) :: rest => ∃ l : NodeIdx, d.nodeAt p = .internal (some l) none ∧ l.val = p.val + 1 ∧
      Spans d.node l d.ncount.val ∧ Awaits d.node rest p

/-- Node `j` is reached from node `i` along child fields: rule R104. -/
inductive Reaches (a : Vector Node Config.nodeCap) (i : NodeIdx) : NodeIdx → Prop where
  | root : Reaches a i i
  | child {j k : NodeIdx} {l r : Option NodeIdx} : Reaches a i j → a[j.val]'j.isLt = .internal l r → l = some k ∨ r = some k →
      Reaches a i k

/-- The state of TD between two bits: rules R32, R34, R48 item 4, R103, R104, as an invariant every `TdBit` keeps. -/
structure Dec.TreeInv (d : Dec) : Prop where
  links : ∀ i l r, d.Settled i → d.nodeAt i = .internal l r → d.LinksOk i l r
  opens : ∀ e ∈ d.stk, d.OpenOk e
  descending : d.stk.Pairwise (fun a b => b.1.val < a.1.val)
  sym_leaf : d.tmode = .sym → d.tleaf.val + 1 = d.ncount.val
  tag_count : d.tmode = .tag → d.symcnt = 0
  done_iff : d.tdone = true ↔ d.tmode = .tag ∧ d.stk = [] ∧ 0 < d.ncount.val
  tleaf_low : d.tleaf.val < max d.ncount.val 1
  cur_low : d.cur.val < max d.ncount.val 1
  order : d.Ordered

/-- Rule R48, items 3 to 7, with TD's own invariant. -/
structure Dec.Inv (outCap : Nat) (d : Dec) : Prop extends Dec.TreeInv d where
  fault_iff : d.dfault ≠ .noFault ↔ d.phase = .fault
  hdr_empty : d.phase = .hdr → d.ncount = 0
  tree_open : d.phase = .tree → d.tdone = false ∧ d.cur = 0
  walk_ready : d.phase = .payload ∨ (d.phase = .done ∧ 0 < d.ncount.val) →
    d.tdone = true ∧ (d.nodeAt 0).isLeaf = false ∧ (d.nodeAt d.cur).isLeaf = false
  obuf_fits : d.obuf.length ≤ outCap
  obuf_phase : d.obuf ≠ [] → d.phase = .payload ∨ (d.phase = .done ∧ 0 < d.ncount.val)

/-! ## The whole machine -/

/-- Rule R48 for the state, with the constraints of rule R7 on the parameters. -/
structure State.Inv (s : State) : Prop where
  params : s.params.wf
  pk : s.pk.Inv s.params.pkFifoCap
  dec : s.dec.Inv s.params.outCap

/-- Two decoders that differ at most in storage no rule reads: arena entries that are not settled (rules R30, R187). -/
structure Dec.Agree (d e : Dec) : Prop where
  rest : { d with node := e.node } = e
  settled : ∀ i, d.Settled i → d.nodeAt i = e.nodeAt i

/-- Two states that differ at most in storage no rule reads. -/
structure State.Agree (s t : State) : Prop where
  rest : { s with dec := t.dec } = t
  dec : s.dec.Agree t.dec

/-- Go on from a next state; a stop stays a stop. -/
def andThen (o : Host.Outcome State Fault Refusal) (f : State → Host.Outcome State Fault Refusal) :
    Host.Outcome State Fault Refusal :=
  match o with
  | .next s => f s
  | .fault r => .fault r
  | .refused r => .refused r

end Sys2Proof.Machine
end

