-- ==== Sys2Proof/Certificates/Slice0/Obligations.lean ====
section
/-! DEFINITION. The statements for the provers. -/

open Sys2Proof Sys2Proof.Machine

/-! ## Encoding and decoding -/

/-- Rule R85 on nine command words written out from its table. The four `decodeTableWord` clauses take rule R89's patterns in the
model's own layout of a table row (DESIGN CHOICE, log entry 2): the pattern in bits 3:0 of a byte, so that a bare write pattern
writes the word 0. -/
def Obligations.SpecWordsDecode : Prop :=
  decodeCmd 0x10000000#32 = .ok .pkClr ∧ decodeCmd 0x20000000#32 = .ok .pkCtclr ∧
  decodeCmd 0x30000061#32 = .ok (.pkCtsel 0x61#8) ∧ decodeCmd 0x40020003#32 = .ok (.pkCtapp 2 3#16) ∧
  decodeCmd 0x50090161#32 = .ok (.pkPush 9 0x161#16) ∧ decodeCmd 0x600000FF#32 = .ok (.pkEnc 0xFF#8) ∧
  decodeCmd 0x70000000#32 = .ok .pkFlush ∧ decodeCmd 0x80000000#32 = .ok .decClr ∧
  decodeCmd 0x90000140#32 = .ok (.decByte 0x40#8 true) ∧ decodeTableWord 8 0b0011 = some .rdPkData ∧
  decodeTableWord 8 0b0110 = some .rdDecLen ∧ decodeTableWord 8 0b1001 = some (.wrErr 0#32) ∧
  decodeTableWord 8 0b1000 = some (.wrCmd 0#32)

/-- Decoding the encoding of a well-formed instruction gives it back, every operand at every value (rules R80 to R85, R89); a
`WR CMD` of a command word is that command (rule R90; DESIGN CHOICE, log entry 9). -/
def Obligations.DecodeEncodeAgree : Prop :=
  ∀ i : Instr, i.wellFormed = true →
    decode (encode i) = i.canonical ∧ (i.isCommand = true → decodeCmd (encodeWord i) = .ok i)

/-- Each command word is the encoding of what it decodes to: no bit of a word is dropped. -/
def Obligations.EncodeDecodeAgree : Prop :=
  ∀ (w : Word) (i : Instr), decodeCmd w = .ok i → encodeWord i = w ∧ i.wellFormed = true ∧ i.isCommand = true

/-- Rule R86: a word is illegal exactly in its four cases, written on the word as a number, and an illegal word written to `CMD`
sets `ERR.ILL` and has no other effect, in every state. -/
def Obligations.IllegalWordsOnlySetIll : Prop :=
  ∀ w : Word,
    let op := w.toNat / 2 ^ 28
    let n := w.toNat / 2 ^ 16 % 32
    let data := w.toNat % 2 ^ 16
    let illegal :=
      (op = 0 ∨ 10 ≤ op) ∨
      ((op = 1 ∨ op = 2 ∨ op = 7 ∨ op = 8) ∧ w &&& 0x0FFFFFFF#32 ≠ 0#32) ∨
      ((op = 3 ∨ op = 6) ∧ w &&& 0x0FFFFF00#32 ≠ 0#32) ∨
      (op = 9 ∧ w &&& 0x0FFFFE00#32 ≠ 0#32) ∨
      ((op = 4 ∨ op = 5) ∧ (w &&& 0x0FE00000#32 ≠ 0#32 ∨ n = 0 ∨ 16 < n ∨ data / 2 ^ n ≠ 0))
    ((∃ e, decodeCmd w = .error e) ↔ illegal) ∧
    (illegal → ∀ s : State, exec (.wrCmd w) s = .next { s with err := { s.err with ill := true } })

/-- Rule R150: `RegWrite(CMD, w)` executes the command that `w[31:28]` selects, with the operands of `w`'s fields. -/
def Obligations.CmdWriteRunsTheCommand : Prop :=
  ∀ (w : Word) (s : State),
    (∀ e, decodeCmd w = .error e → exec (.wrCmd w) s = .next { s with err := { s.err with ill := true } }) ∧
    (∀ i, decodeCmd w = .ok i →
      exec (.wrCmd w) s = exec i s ∧
      (w.extractLsb' 28 4 = 0x1#4 → i = .pkClr) ∧
      (w.extractLsb' 28 4 = 0x2#4 → i = .pkCtclr) ∧
      (w.extractLsb' 28 4 = 0x3#4 → i = .pkCtsel (w.extractLsb' 0 8)) ∧
      (w.extractLsb' 28 4 = 0x4#4 → i = .pkCtapp (w.extractLsb' 16 5).toNat (w.extractLsb' 0 16)) ∧
      (w.extractLsb' 28 4 = 0x5#4 → i = .pkPush (w.extractLsb' 16 5).toNat (w.extractLsb' 0 16)) ∧
      (w.extractLsb' 28 4 = 0x6#4 → i = .pkEnc (w.extractLsb' 0 8)) ∧
      (w.extractLsb' 28 4 = 0x7#4 → i = .pkFlush) ∧
      (w.extractLsb' 28 4 = 0x8#4 → i = .decClr) ∧
      (w.extractLsb' 28 4 = 0x9#4 → i = .decByte (w.extractLsb' 0 8) (w.getLsbD 8)))

/-- A `CMD` write completes with its command's own effect: for the two CLR words in every state, for `PK.PUSH` while PK is not
faulted and there is room (rules R118, R131, R115, R150). -/
def Obligations.CmdWriteCompletes : Prop :=
  ∀ s : State,
    exec (.wrCmd 0x10000000#32) s = .next { s with pk := { s.pk with fault := .noFault, fifo := [], acc := [], pad := 0 } } ∧
    exec (.wrCmd 0x80000000#32) s = .next { s with dec := { Dec.reset with node := s.dec.node } } ∧
    ∀ (n : Nat) (data : BitVec 16), formatBOk n data = true → s.pk.fault = .noFault →
      s.pk.fifo.length + (s.pk.acc.length + n) / 8 ≤ s.params.pkFifoCap →
      ∃ t, exec (.wrCmd (encodeWord (.pkPush n data))) s = .next t ∧ t.pk.fault = .noFault ∧
        bitsOf t.pk.fifo ++ t.pk.acc = bitsOf s.pk.fifo ++ s.pk.acc ++ bitsMSB n data

/-! ## The step -/

/-- A step takes the first access at the port and runs the instruction it decodes to, on the state without that access; with
nothing at the port it changes nothing (rule R60; the idle step is DEDUCED, log entry 2). An instruction placed by
`withFetchWord` is the very next one. -/
def Obligations.StepRunsTheDecodedInstruction : Prop :=
  (∀ (s : State) (a : Access) (rest : List Input), s.port = .access a :: rest →
    step s = exec (decode a) { s with port := rest }) ∧
  (∀ (s : State) (i : Instr) (rest : List Input), i.wellFormed = true → s.port = .access (encode i) :: rest →
    step s = exec i { s with port := rest }) ∧
  (∀ (s : State) (nbits w : Nat) (i : Instr), decodeTableWord nbits w = some i → step (s.withFetchWord nbits w) = exec i s) ∧
  (∀ s : State, s.port = [] → step s = .next s)

/-- The reset input puts every element to its reset value, whatever the block was doing (rule R185); the arena is not cleared
(rule R187; DESIGN CHOICE, log entry 4), and what waits at the port and what was read stay (log entry 2). -/
def Obligations.ResetInputResets : Prop :=
  ∀ (s : State) (rest : List Input), s.port = .reset :: rest →
    ∃ t, step s = .next t ∧
      t = { State.resetWith s.params with dec := { Dec.reset with node := s.dec.node }, port := rest, replies := s.replies }

/-- Rule R186, for every value of the parameters: what reset leaves, and that all registers read 0. -/
def Obligations.AfterReset : Prop :=
  ∀ p : Params,
    let s := State.resetWith p
    ((∀ sym, s.pk.codeOf sym = []) ∧ s.pk.ctsym = 0#8 ∧ s.pk.acc = [] ∧ s.pk.fifo = [] ∧ s.pk.pad = 0 ∧
      s.pk.fault = .noFault) ∧
    (s.dec.phase = .hdr ∧ s.dec.ncount = 0 ∧ s.dec.stk = [] ∧ s.dec.tdone = false ∧ s.dec.obuf = [] ∧
      s.dec.dfault = .noFault) ∧
    (s.err.ill = false ∧ s.err.seq = false) ∧
    (∀ i ∈ [Instr.rdCmd, .rdErr, .rdPkStat, .rdPkData, .rdDecStat, .rdDecData, .rdDecLen, .rdRsvd7],
      exec i s = .next { s with replies := [0#32] })

/-! ## The packer -/

/-- Rule R110, its first sentence: while PK is faulted every `PK.*` command except `PK.CLR` changes nothing and sets no flag. -/
def Obligations.FaultedPkDropsCommands : Prop :=
  ∀ s : State, s.pk.fault ≠ .noFault →
    exec .pkCtclr s = .next s ∧ (∀ sym, exec (.pkCtsel sym) s = .next s) ∧
    (∀ n data, exec (.pkCtapp n data) s = .next s) ∧ (∀ n data, exec (.pkPush n data) s = .next s) ∧
    (∀ sym, exec (.pkEnc sym) s = .next s) ∧ exec .pkFlush s = .next s

/-- Rule R118: `PK.CLR` executes in every state and keeps `CODE` and `CTSYM`. -/
def Obligations.PkClrStartsASession : Prop :=
  ∀ s : State, exec .pkClr s = .next { s with pk := { s.pk with fault := .noFault, fifo := [], acc := [], pad := 0 } }

/-- Rule R112: `PK.CTCLR` empties every entry, sets `CTSYM` to 0 and touches nothing else. -/
def Obligations.CtclrEmptiesTheTable : Prop :=
  ∀ s : State, s.pk.fault = .noFault →
    ∃ t, exec .pkCtclr s = .next t ∧ (∀ sym, t.pk.codeOf sym = []) ∧ t.pk.ctsym = 0#8 ∧
      t = { s with pk := { s.pk with code := t.pk.code, ctsym := t.pk.ctsym } }

/-- Rule R113: `PK.CTSEL sym` selects and empties one entry and touches nothing else. -/
def Obligations.CtselSelectsAndEmpties : Prop :=
  ∀ (s : State) (sym : Byte), s.pk.fault = .noFault →
    ∃ t, exec (.pkCtsel sym) s = .next t ∧ t.pk.ctsym = sym ∧ t.pk.codeOf sym = [] ∧
      (∀ u, u ≠ sym → t.pk.codeOf u = s.pk.codeOf u) ∧
      t = { s with pk := { s.pk with code := t.pk.code, ctsym := t.pk.ctsym } }

/-- Rule R114: `PK.CTAPP n, data` appends `bitsMSB(n, data)` to the selected entry; beyond 255 bits it faults and `CODE` is
unchanged. -/
def Obligations.CtappExtendsTheSelectedCode : Prop :=
  ∀ (s : State) (n : Nat) (data : BitVec 16), s.pk.fault = .noFault →
    let len := (s.pk.codeOf s.pk.ctsym).length
    (len + n ≤ 255 →
      ∃ t, exec (.pkCtapp n data) s = .next t ∧
        t.pk.codeOf s.pk.ctsym = s.pk.codeOf s.pk.ctsym ++ bitsMSB n data ∧
        (∀ u, u ≠ s.pk.ctsym → t.pk.codeOf u = s.pk.codeOf u) ∧
        t = { s with pk := { s.pk with code := t.pk.code } }) ∧
    (255 < len + n →
      exec (.pkCtapp n data) s =
        .next { s with pk := { s.pk with fault := .unsupportedInput, fifo := [], acc := [], pad := 0 } })

/-- Rules R111 and R115: `PK.PUSH n, data` appends the bits to the stream, oldest bit first, whole bytes to the FIFO; if they do
not fit it faults. -/
def Obligations.PushAppendsItsBits : Prop :=
  ∀ (s : State) (n : Nat) (data : BitVec 16), s.pk.fault = .noFault →
    let k := (s.pk.acc.length + n) / 8
    (s.pk.fifo.length + k ≤ s.params.pkFifoCap →
      ∃ t new, exec (.pkPush n data) s = .next t ∧ t.pk.fifo = s.pk.fifo ++ new ∧ new.length = k ∧
        bitsOf new ++ t.pk.acc = s.pk.acc ++ bitsMSB n data ∧
        t.pk.acc.length = (s.pk.acc.length + n) % 8 ∧
        t = { s with pk := { s.pk with fifo := t.pk.fifo, acc := t.pk.acc } }) ∧
    (s.params.pkFifoCap < s.pk.fifo.length + k →
      exec (.pkPush n data) s =
        .next { s with pk := { s.pk with fault := .unsupportedInput, fifo := [], acc := [], pad := 0 } })

/-- Rule R116: `PK.ENC sym` appends the code of `sym`; without a code, or without room, it faults. -/
def Obligations.EncAppendsTheCode : Prop :=
  ∀ (s : State) (sym : Byte), s.pk.fault = .noFault →
    let c := s.pk.codeOf sym
    let k := (s.pk.acc.length + c.length) / 8
    (c ≠ [] → s.pk.fifo.length + k ≤ s.params.pkFifoCap →
      ∃ t new, exec (.pkEnc sym) s = .next t ∧ t.pk.fifo = s.pk.fifo ++ new ∧ new.length = k ∧
        bitsOf new ++ t.pk.acc = s.pk.acc ++ c ∧ t.pk.acc.length = (s.pk.acc.length + c.length) % 8 ∧
        t = { s with pk := { s.pk with fifo := t.pk.fifo, acc := t.pk.acc } }) ∧
    (c = [] ∨ s.params.pkFifoCap < s.pk.fifo.length + k →
      exec (.pkEnc sym) s =
        .next { s with pk := { s.pk with fault := .unsupportedInput, fifo := [], acc := [], pad := 0 } })

/-- Rule R117: `PK.FLUSH` with nothing pending emits nothing and sets `PAD` to 0; otherwise it emits the pending bits padded with
zeros and records their count, or faults for lack of room. -/
def Obligations.FlushPadsAndRecords : Prop :=
  ∀ s : State, s.pk.fault = .noFault → s.pk.acc.length ≤ 7 →
    (s.pk.acc = [] → exec .pkFlush s = .next { s with pk := { s.pk with pad := 0 } }) ∧
    (s.pk.acc ≠ [] → s.pk.fifo.length + 1 ≤ s.params.pkFifoCap →
      ∃ t b, exec .pkFlush s = .next t ∧ t.pk.fifo = s.pk.fifo ++ [b] ∧
        bitsMSB 8 b = s.pk.acc ++ zeros (8 - s.pk.acc.length) ∧ t.pk.acc = [] ∧ t.pk.pad.val = 8 - s.pk.acc.length ∧
        t = { s with pk := { s.pk with fifo := t.pk.fifo, acc := [], pad := t.pk.pad } }) ∧
    (s.pk.acc ≠ [] → s.params.pkFifoCap < s.pk.fifo.length + 1 →
      exec .pkFlush s =
        .next { s with pk := { s.pk with fault := .unsupportedInput, fifo := [], acc := [], pad := 0 } })

/-- Rule R172: a command that takes PK from no fault to a fault has made none of its own changes; the code is always 3, and
`FIFO`, `ACC`, `PAD` are emptied. -/
def Obligations.PkFaultEntryIsPrecise : Prop :=
  ∀ (i : Instr) (s t : State), exec i s = .next t → s.pk.fault = .noFault → t.pk.fault ≠ .noFault →
    t = { s with pk := { s.pk with fault := .unsupportedInput, fifo := [], acc := [], pad := 0 } }

/-- Rule R168, cases U3 to U5, as exact conditions: which accesses fault PK. -/
def Obligations.PkFaultCauses : Prop :=
  ∀ (i : Instr) (s t : State), exec i s = .next t → s.pk.fault = .noFault →
    (t.pk.fault ≠ .noFault ↔
      (∃ n data, i.canonical = .pkCtapp n data ∧ 255 < (s.pk.codeOf s.pk.ctsym).length + n) ∨
      (∃ sym, i.canonical = .pkEnc sym ∧ s.pk.codeOf sym = []) ∨
      (∃ sym, i.canonical = .pkEnc sym ∧
        s.params.pkFifoCap < s.pk.fifo.length + (s.pk.acc.length + (s.pk.codeOf sym).length) / 8) ∨
      (∃ n data, i.canonical = .pkPush n data ∧ s.params.pkFifoCap < s.pk.fifo.length + (s.pk.acc.length + n) / 8) ∨
      (i.canonical = .pkFlush ∧ s.pk.acc ≠ [] ∧ s.params.pkFifoCap < s.pk.fifo.length + 1))

/-- The frame of the `PK.*` commands (rules R20, R110): DEC, `ERR` and the rest of the state are unchanged by each; the table and
`CTSYM` by `PK.CLR`, `PK.PUSH`, `PK.ENC`, `PK.FLUSH`; the stream by the three table commands unless they fault; `PAD` by `PK.PUSH`
and `PK.ENC` unless they fault. -/
def Obligations.PkCommandFrame : Prop :=
  ∀ (i : Instr) (s t : State), exec i s = .next t →
    ((i = .pkClr ∨ i = .pkFlush ∨ (∃ n d, i = .pkPush n d) ∨ (∃ y, i = .pkEnc y)) →
      t = { s with pk := { t.pk with code := s.pk.code, ctsym := s.pk.ctsym } }) ∧
    ((i = .pkCtclr ∨ (∃ y, i = .pkCtsel y) ∨ (∃ n d, i = .pkCtapp n d)) →
      t = { s with pk := t.pk } ∧
      (t.pk.fault = s.pk.fault → t.pk = { s.pk with code := t.pk.code, ctsym := t.pk.ctsym })) ∧
    (((∃ n d, i = .pkPush n d) ∨ (∃ y, i = .pkEnc y)) → t.pk.fault = s.pk.fault → t.pk.pad = s.pk.pad)

/-- Rule R119: commands that append `s_1, ..., s_m`, then `PK.FLUSH`, leave `FIFO ++ Pack(s_1..s_m)`, however the bits are split,
when the section fits. -/
def Obligations.PackLaw : Prop :=
  ∀ (is : List Instr) (strings : List Bits) (s : State),
    is.map (appendedBits s.pk) = strings.map some → s.pk.fault = .noFault → s.pk.acc = [] →
    s.pk.fifo.length + (strings.flatten.length + 7) / 8 ≤ s.params.pkFifoCap →
    ∃ t, execAll (is ++ [.pkFlush]) s = .next t ∧ t.pk.fifo = s.pk.fifo ++ (packOf strings).1 ∧
      t.pk.pad.val = (packOf strings).2 ∧ t.pk.acc = [] ∧ t.pk.fault = .noFault ∧
      t = { s with pk := { s.pk with fifo := t.pk.fifo, pad := t.pk.pad } }

/-- Rule R191: with the room it asks for, a `PK.ENC` of a loaded code, a `PK.PUSH` and a `PK.FLUSH` never fault. -/
def Obligations.FifoDisciplineSuffices : Prop :=
  ∀ s : State, s.Inv → s.pk.fault = .noFault →
    (∀ sym, s.pk.codeOf sym ≠ [] → 32 ≤ s.params.pkFifoCap - s.pk.fifo.length →
      ∃ t, exec (.pkEnc sym) s = .next t ∧ t.pk.fault = .noFault) ∧
    (∀ n data, formatBOk n data = true → 2 ≤ s.params.pkFifoCap - s.pk.fifo.length →
      ∃ t, exec (.pkPush n data) s = .next t ∧ t.pk.fault = .noFault) ∧
    (1 ≤ s.params.pkFifoCap - s.pk.fifo.length → ∃ t, exec .pkFlush s = .next t ∧ t.pk.fault = .noFault)

/-! ## The decoder -/

/-- Rule R131: `DEC.CLR` executes in every phase; every element takes its reset value but the arena, which is left as it is. -/
def Obligations.DecClrStartsASession : Prop :=
  ∀ s : State, exec .decClr s = .next { s with dec := { s.dec with
    phase := .hdr, dfault := .noFault, padreg := 0, ncount := 0, stk := [], tdone := false, tmode := .tag, symcnt := 0,
    symacc := 0#8, tleaf := 0, cur := 0, obuf := [] } }

/-- Rule R133: the header byte, its four cases. -/
def Obligations.HeaderByte : Prop :=
  ∀ (s : State) (byte : Byte) (last : Bool), s.dec.phase = .hdr →
    let fault c := Host.Outcome.next { s with dec := { s.dec with phase := .fault, dfault := c, obuf := [] } }
    (7 < byte.toNat → exec (.decByte byte last) s = fault .corruptPayload) ∧
    (byte.toNat ≤ 7 → last = false →
      ∃ t, exec (.decByte byte last) s = .next t ∧ t.dec.padreg.val = byte.toNat ∧
        t = { s with dec := { s.dec with phase := .tree, padreg := t.dec.padreg } }) ∧
    (byte = 0#8 → last = true →
      exec (.decByte byte last) s = .next { s with dec := { s.dec with phase := .done, padreg := 0 } }) ∧
    (1 ≤ byte.toNat → byte.toNat ≤ 7 → last = true → exec (.decByte byte last) s = fault .malformedTree)

/-- Rule R132, its rows DONE and FAULT: the byte is dropped, with `ERR.SEQ` set in phase DONE and no flag in phase FAULT. -/
def Obligations.BytesAfterTheEndAreDropped : Prop :=
  ∀ (s : State) (byte : Byte) (last : Bool),
    (s.dec.phase = .done → exec (.decByte byte last) s = .next { s with err := { s.err with seq := true } }) ∧
    (s.dec.phase = .fault → exec (.decByte byte last) s = .next s)

/-- Rule R101: a tag bit. The 512th node faults before anything is written; otherwise node `NCOUNT` is linked to the parent on top
of `STK` and started, in the states between two bits. -/
def Obligations.TagBit : Prop :=
  ∀ (d : Dec) (b : Bool), d.TreeInv → d.tmode = .tag → d.tdone = false →
    (d.ncount.val = 511 → tdBit b d = .error (.inl .unsupportedInput)) ∧
    (∀ i : NodeIdx, d.ncount.val = i.val →
      ∃ e, tdBit b d = .ok e ∧ e.ncount.val = i.val + 1 ∧
        (b = true → e.tmode = .sym ∧ e.tleaf = i ∧ e.symcnt = 0 ∧ e.symacc = 0#8 ∧
          ∀ j, d.stk.head?.map Prod.fst ≠ some j → e.nodeAt j = d.nodeAt j) ∧
        (b = false → e.tmode = .tag ∧ e.tleaf = d.tleaf ∧ e.symcnt = d.symcnt ∧ e.symacc = d.symacc ∧
          e.nodeAt i = .internal none none ∧
          ∀ j, j ≠ i → d.stk.head?.map Prod.fst ≠ some j → e.nodeAt j = d.nodeAt j) ∧
        (∃ open', e.stk = (if b then open' else (i, .left) :: open') ∧
          (d.stk = [] → open' = [] ∧ i = 0) ∧
          (∀ p rest, d.stk = (p, .left) :: rest →
            open' = (p, .right) :: rest ∧ d.nodeAt p = .internal none none ∧ e.nodeAt p = .internal (some i) none ∧
              i.val = p.val + 1) ∧
          (∀ p rest, d.stk = (p, .right) :: rest →
            open' = rest ∧ ∃ l, d.nodeAt p = .internal (some l) none ∧ e.nodeAt p = .internal (some l) (some i))) ∧
        (e.phase = d.phase ∧ e.dfault = d.dfault ∧ e.padreg = d.padreg ∧ e.tdone = d.tdone ∧ e.cur = d.cur ∧
          e.obuf = d.obuf))

/-- Rules R102 and R103: a symbol bit. The eighth stores the leaf, first bit received as bit 7, and completes the tree exactly when
`STK` is empty. -/
def Obligations.SymbolBit : Prop :=
  ∀ (d : Dec) (b : Bool), d.tmode = .sym →
    let acc : Byte := d.symacc <<< 1 ||| (BitVec.ofBool b).setWidth 8
    (d.symcnt.val < 7 → ∃ e, tdBit b d = .ok e ∧ e.symcnt.val = d.symcnt.val + 1 ∧
      e = { d with symacc := acc, symcnt := e.symcnt }) ∧
    (d.symcnt.val = 7 → ∃ e, tdBit b d = .ok e ∧ e.nodeAt d.tleaf = .leaf acc ∧
      (∀ j, j ≠ d.tleaf → e.nodeAt j = d.nodeAt j) ∧ (e.tdone = true ↔ d.tdone = true ∨ d.stk = []) ∧
      e = { d with symacc := acc, symcnt := 0, tmode := .tag, tdone := e.tdone, node := e.node })

/-- Rules R105 to R107: what a byte of the tree section leaves, from every state of a run: the 512th node faults; otherwise `d` is
the state after the bits TD took, and each outcome has its condition. -/
def Obligations.TreeByteOutcomes : Prop :=
  ∀ (s : State) (byte : Byte) (last : Bool), s.Inv → s.dec.phase = .tree →
    let fault c := Host.Outcome.next { s with dec := { s.dec with phase := .fault, dfault := c, obuf := [] } }
    (tdBits (bitsMSB 8 byte) s.dec = .error (.inl .unsupportedInput) ∧
      exec (.decByte byte last) s = fault .unsupportedInput) ∨
    (∃ d, tdBits (bitsMSB 8 byte) s.dec = .ok d ∧ d.padreg = s.dec.padreg ∧ d.obuf = [] ∧
      (d.tdone = false → last = false → exec (.decByte byte last) s = .next { s with dec := d }) ∧
      (d.tdone = false → last = true → exec (.decByte byte last) s = fault .malformedTree) ∧
      (d.tdone = true → (d.nodeAt 0).isLeaf = true → exec (.decByte byte last) s = fault .malformedTree) ∧
      (d.tdone = true → (d.nodeAt 0).isLeaf = false → last = false →
        exec (.decByte byte last) s = .next { s with dec := { d with phase := .payload, cur := 0 } }) ∧
      (d.tdone = true → (d.nodeAt 0).isLeaf = false → last = true → d.padreg = 0 →
        exec (.decByte byte last) s = .next { s with dec := { d with phase := .done, cur := 0 } }) ∧
      (d.tdone = true → (d.nodeAt 0).isLeaf = false → last = true → d.padreg ≠ 0 →
        exec (.decByte byte last) s = fault .corruptPayload))

/-- A byte that is not the last one is executed, not faulted, while at least eight nodes are free and the root is an Internal node;
it counts at most eight nodes and leaves the header and the output alone (rules R100, R101, R105). -/
def Obligations.TreeByteCompletes : Prop :=
  ∀ (s : State) (byte : Byte), s.Inv → s.dec.phase = .tree → s.dec.ncount.val + 8 ≤ 511 →
    s.dec.Settled 0 → (s.dec.nodeAt 0).isLeaf = false →
    ∃ t, exec (.decByte byte false) s = .next t ∧ (t.dec.phase = .tree ∨ t.dec.phase = .payload) ∧
      s.dec.ncount.val ≤ t.dec.ncount.val ∧ t.dec.ncount.val ≤ s.dec.ncount.val + 8 ∧
      t.dec.padreg = s.dec.padreg ∧ t.dec.obuf = s.dec.obuf ∧ t.dec.dfault = .noFault ∧ t = { s with dec := t.dec }

/-- Rule R135: one step of the tree walk, from an Internal node whose child on that branch is linked. -/
def Obligations.WalkBit : Prop :=
  ∀ (d : Dec) (outCap : Nat) (b : Bool) (l r : NodeIdx), d.nodeAt d.cur = .internal (some l) (some r) →
    let nxt := if b then r else l
    (∀ sym, d.nodeAt nxt = .leaf sym →
      (d.obuf.length = outCap → udBit outCap b d = .error (.inl .unsupportedInput)) ∧
      (d.obuf.length ≠ outCap → udBit outCap b d = .ok { d with obuf := d.obuf ++ [sym], cur := 0 })) ∧
    (∀ l' r', d.nodeAt nxt = .internal l' r' → udBit outCap b d = .ok { d with cur := nxt })

/-- Rules R137 and R138: what a payload byte leaves, from every state of a run; the walk is over the first 8 or `8 - PADREG` bits. -/
def Obligations.PayloadByteOutcomes : Prop :=
  ∀ (s : State) (byte : Byte) (last : Bool), s.Inv → s.dec.phase = .payload →
    let bits := (bitsMSB 8 byte).take (if last then 8 - s.dec.padreg.val else 8)
    let fault c := Host.Outcome.next { s with dec := { s.dec with phase := .fault, dfault := c, obuf := [] } }
    (udBits s.params.outCap bits s.dec = .error (.inl .unsupportedInput) ∧
      exec (.decByte byte last) s = fault .unsupportedInput) ∨
    (∃ d new, udBits s.params.outCap bits s.dec = .ok d ∧ d = { s.dec with cur := d.cur, obuf := s.dec.obuf ++ new } ∧
      new.length ≤ 8 ∧ s.dec.obuf.length + new.length ≤ s.params.outCap ∧ (d.nodeAt d.cur).isLeaf = false ∧
      (last = false → exec (.decByte byte last) s = .next { s with dec := d }) ∧
      (last = true → d.cur = 0 → exec (.decByte byte last) s = .next { s with dec := { d with phase := .done } }) ∧
      (last = true → d.cur ≠ 0 → exec (.decByte byte last) s = fault .corruptPayload))

/-- A payload byte that is not the last one is executed, not faulted, while eight more symbols fit (rules R135, R137). -/
def Obligations.PayloadByteCompletes : Prop :=
  ∀ (s : State) (byte : Byte), s.Inv → s.dec.phase = .payload → s.dec.obuf.length + 8 ≤ s.params.outCap →
    ∃ t new, exec (.decByte byte false) s = .next t ∧ new.length ≤ 8 ∧
      t = { s with dec := { s.dec with cur := t.dec.cur, obuf := s.dec.obuf ++ new } }

/-- The padding bits of the last payload byte (rule R137) and of the tree section's last byte (rule R105) are not looked at. -/
def Obligations.PaddingIsIgnored : Prop :=
  (∀ (s : State) (byte byte' : Byte), s.dec.phase = .payload →
    byte >>> s.dec.padreg.val = byte' >>> s.dec.padreg.val →
    exec (.decByte byte true) s = exec (.decByte byte' true) s) ∧
  (∀ (s : State) (byte byte' : Byte) (last : Bool) (k : Nat) (d : Dec), s.dec.phase = .tree →
    byte >>> k = byte' >>> k → tdBits ((bitsMSB 8 byte).take (8 - k)) s.dec = .ok d → d.tdone = true →
    exec (.decByte byte last) s = exec (.decByte byte' last) s)

/-- Rule R173: an access that takes DEC to phase FAULT has made none of its own changes to DEC: only `PHASE`, `DFAULT` and `OBUF`
differ from the state it started from, `DFAULT` holds a code that is not 0, and nothing outside DEC has changed. -/
def Obligations.DecFaultEntryIsPrecise : Prop :=
  ∀ (i : Instr) (s t : State), exec i s = .next t → s.dec.phase ≠ .fault → t.dec.phase = .fault →
    t.dec.dfault ≠ .noFault ∧
    t = { s with dec := { s.dec with phase := .fault, dfault := t.dec.dfault, obuf := [] } }

/-- Rule R140: the phase graph. An access changes `PHASE` only along its edges; `DEC.CLR` leads to HDR from anywhere. -/
def Obligations.PhaseGraph : Prop :=
  ∀ (i : Instr) (s t : State), s.Inv → exec i s = .next t →
    (i.canonical = .decClr → t.dec.phase = .hdr) ∧
    (i.canonical ≠ .decClr → (∀ byte last, i.canonical ≠ .decByte byte last) → t.dec.phase = s.dec.phase) ∧
    (∀ byte last, i.canonical = .decByte byte last →
      (s.dec.phase = .hdr → t.dec.phase = .fault ∨ (t.dec.phase = .tree ∧ byte.toNat ≤ 7 ∧ last = false) ∨
        (t.dec.phase = .done ∧ byte = 0#8 ∧ last = true)) ∧
      (s.dec.phase = .tree → t.dec.phase = .fault ∨ (t.dec.phase = .tree ∧ last = false) ∨
        (t.dec.phase = .payload ∧ last = false) ∨ (t.dec.phase = .done ∧ last = true ∧ s.dec.padreg = 0)) ∧
      (s.dec.phase = .payload → t.dec.phase = .fault ∨ (t.dec.phase = .payload ∧ last = false) ∨
        (t.dec.phase = .done ∧ last = true ∧ t.dec.cur = 0)) ∧
      (s.dec.phase = .done ∨ s.dec.phase = .fault → t.dec.phase = s.dec.phase))

/-! ## The reference functions -/

/-- Rule R109: `Parse(Ser(t) ++ r, 0) = ok(t, r, nodes(t))` for every tree of at most 511 nodes. -/
def Obligations.ParseUndoesSer : Prop :=
  ∀ (t : CodeTree) (r : Bits), t.nodes ≤ 511 → parse (t.ser ++ r) = .ok (t, r, t.nodes)

/-- Rule R142: a container made from a tree with an Internal root and codes that are its paths decodes to its input. -/
def Obligations.ContainerRoundTrip : Prop :=
  ∀ (outCap : Nat) (t : CodeTree) (code : Byte → Bits) (x : List Byte), t.isLeaf = false → t.nodes ≤ 511 →
    x.length ≤ outCap → (∀ sym ∈ x, (sym, code sym) ∈ t.paths) →
    decodeFrame outCap (containerOf t code x) = .ok x ∧ decodeFrame outCap [0x00#8] = .ok []

/-- Rule R141: `DEC.CLR` and then `DEC.FRAME B` ends in phase DONE with `OBUF = out` if `Decode(B) = ok(out)`, and in phase FAULT
with `DFAULT = c` and `OBUF` empty if `Decode(B) = fault(c)`; from every state, and nothing outside DEC changes. -/
def Obligations.MachineDecodesFrames : Prop :=
  ∀ (B : List Byte) (s : State), B ≠ [] →
    ∃ t, execAll (.decClr :: frameOf B) s = .next t ∧ t = { s with dec := t.dec } ∧
      (∀ out, decodeFrame s.params.outCap B = .ok out ↔ t.dec.phase = .done ∧ t.dec.obuf = out) ∧
      (∀ c, decodeFrame s.params.outCap B = .error c ↔ t.dec.phase = .fault ∧ t.dec.dfault = c ∧ t.dec.obuf = [])

/-! ## The host registers -/

/-- Rule R151: `RD CMD` returns 0 and changes nothing. -/
def Obligations.CmdReadsZero : Prop :=
  ∀ s : State, exec .rdCmd s = .next { s with replies := s.replies ++ [0#32] }

/-- Rule R159: `RD RSVD7` returns 0 and changes nothing, `WR RSVD7` is ignored. -/
def Obligations.Rsvd7IsReserved : Prop :=
  ∀ s : State, exec .rdRsvd7 s = .next { s with replies := s.replies ++ [0#32] } ∧ ∀ w, exec (.wrRsvd7 w) s = .next s

/-- Rule R152: `RD ERR` returns bit 0 `ILL`, bit 1 `SEQ`, bits 31:2 zero, and does not clear the flags. -/
def Obligations.ErrRead : Prop :=
  ∀ s : State, ∃ w : Word, exec .rdErr s = .next { s with replies := s.replies ++ [w] } ∧
    w.getLsbD 0 = s.err.ill ∧ w.getLsbD 1 = s.err.seq ∧ w.toNat < 4

/-- Rules R42 and R154: `RD PK_STAT` returns the fields of rule R42 in their places and changes nothing. -/
def Obligations.PkStatRead : Prop :=
  ∀ s : State, s.Inv → ∃ w : Word, exec .rdPkStat s = .next { s with replies := s.replies ++ [w] } ∧
    (w.extractLsb' 0 3).toNat = s.pk.pad.val ∧ w.getLsbD 3 = false ∧ w.extractLsb' 4 2 = s.pk.fault.code ∧
    (s.pk.fault = .noFault ↔ w.extractLsb' 4 2 = 0#2) ∧ (s.pk.fault = .unsupportedInput ↔ w.extractLsb' 4 2 = 3#2) ∧
    w.extractLsb' 6 2 = 0#2 ∧ (w.extractLsb' 8 3).toNat = s.pk.acc.length ∧ w.extractLsb' 11 5 = 0#5 ∧
    (w.extractLsb' 16 16).toNat = s.pk.fifo.length

/-- Rule R156: `RD DEC_STAT` returns `DFAULT << 4 | PHASE` and changes nothing: which of the seven words it is in which phase and
under which fault. -/
def Obligations.DecStatRead : Prop :=
  ∀ s : State, s.Inv → ∃ w : Word, exec .rdDecStat s = .next { s with replies := s.replies ++ [w] } ∧
    w.extractLsb' 0 3 = s.dec.phase.code ∧ w.extractLsb' 4 2 = s.dec.dfault.code ∧
    w ∈ [0x00#32, 0x01#32, 0x02#32, 0x03#32, 0x14#32, 0x24#32, 0x34#32] ∧
    (s.dec.phase = .hdr ↔ w = 0x00#32) ∧ (s.dec.phase = .tree ↔ w = 0x01#32) ∧
    (s.dec.phase = .payload ↔ w = 0x02#32) ∧ (s.dec.phase = .done ↔ w = 0x03#32) ∧
    (s.dec.phase = .fault ∧ s.dec.dfault = .malformedTree ↔ w = 0x14#32) ∧
    (s.dec.phase = .fault ∧ s.dec.dfault = .corruptPayload ↔ w = 0x24#32) ∧
    (s.dec.phase = .fault ∧ s.dec.dfault = .unsupportedInput ↔ w = 0x34#32)

/-- Rule R155: `RD PK_DATA` pops the oldest byte, with `VALID = 1`, or returns 0 and changes nothing, in every PK state. -/
def Obligations.PkDataRead : Prop :=
  ∀ s : State,
    (∀ b rest, s.pk.fifo = b :: rest →
      ∃ w : Word, exec .rdPkData s = .next { s with pk := { s.pk with fifo := rest }, replies := s.replies ++ [w] } ∧
        w.getLsbD 31 = true ∧ w.extractLsb' 8 23 = 0#23 ∧ w.extractLsb' 0 8 = b) ∧
    (s.pk.fifo = [] → exec .rdPkData s = .next { s with replies := s.replies ++ [0#32] })

/-- Rule R157: `RD DEC_DATA` pops the oldest symbol in phase DONE, with `VALID = 1`; otherwise it returns 0 and pops nothing, even
if `OBUF` is not empty. -/
def Obligations.DecDataRead : Prop :=
  ∀ s : State,
    (∀ b rest, s.dec.phase = .done → s.dec.obuf = b :: rest →
      ∃ w : Word, exec .rdDecData s = .next { s with dec := { s.dec with obuf := rest }, replies := s.replies ++ [w] } ∧
        w.getLsbD 31 = true ∧ w.extractLsb' 8 23 = 0#23 ∧ w.extractLsb' 0 8 = b) ∧
    (s.dec.phase ≠ .done ∨ s.dec.obuf = [] → exec .rdDecData s = .next { s with replies := s.replies ++ [0#32] })

/-- Rule R158: `RD DEC_LEN` returns `|OBUF|` in phase DONE, else 0, and changes nothing. -/
def Obligations.DecLenRead : Prop :=
  ∀ s : State, s.Inv → ∃ w : Word, exec .rdDecLen s = .next { s with replies := s.replies ++ [w] } ∧
    (s.dec.phase = .done → w.toNat = s.dec.obuf.length) ∧ (s.dec.phase ≠ .done → w = 0#32)

/-- Rule R153: `WR ERR` clears the flags selected by ones and sets none; bits 31:2 of the word are ignored. -/
def Obligations.ErrWriteOneToClear : Prop :=
  ∀ (s : State) (w : Word), ∃ e : Err, exec (.wrErr w) s = .next { s with err := e } ∧
    (e.ill = true ↔ s.err.ill = true ∧ w.toNat % 2 = 0) ∧ (e.seq = true ↔ s.err.seq = true ∧ w.toNat / 2 % 2 = 0)

/-- Rule R160: writes of the five read-only registers change no state, set no flag and pop nothing. -/
def Obligations.ReadOnlyWritesAreIgnored : Prop :=
  ∀ (s : State) (w : Word), exec (.wrPkStat w) s = .next s ∧ exec (.wrPkData w) s = .next s ∧
    exec (.wrDecStat w) s = .next s ∧ exec (.wrDecData w) s = .next s ∧ exec (.wrDecLen w) s = .next s

/-! ## The whole machine -/

/-- Rule R48, as the model's invariant, holds after reset, for all parameters that rule R7 allows. -/
def Obligations.InvariantHoldsAtReset : Prop :=
  (∀ p : Params, p.wf → (State.resetWith p).Inv) ∧ State.reset.Inv

/-- Every step from a state that meets the invariant answers a next state that meets it: rule R48 as an invariant of the machine,
and rule R13, no access fails or hangs. -/
def Obligations.StepKeepsInvariant : Prop :=
  ∀ s : State, s.Inv → ∃ t, step s = .next t ∧ t.Inv ∧ t.params = s.params

/-- The model's invariant says what rule R48 says, items 1 to 7, with item 4 read as log entry 7 says. -/
def Obligations.InvariantSaysR48 : Prop :=
  ∀ s : State, s.Inv →
    (s.pk.acc.length ≤ 7 ∧ s.pk.fifo.length ≤ s.params.pkFifoCap ∧ s.pk.pad.val ≤ 7 ∧
      ∀ sym, (s.pk.codeOf sym).length ≤ 255) ∧
    ((s.pk.fault.code = 0#2 ∨ s.pk.fault.code = 3#2) ∧
      (s.pk.fault ≠ .noFault → s.pk.fifo = [] ∧ s.pk.acc = [] ∧ s.pk.pad = 0)) ∧
    ((s.dec.dfault ≠ .noFault ↔ s.dec.phase = .fault) ∧ (s.dec.phase = .fault → s.dec.obuf = [])) ∧
    ((∀ e ∈ s.dec.stk, e.1.val < s.dec.ncount.val) ∧
      (0 < s.dec.ncount.val → s.dec.tleaf.val < s.dec.ncount.val ∧ s.dec.cur.val < s.dec.ncount.val) ∧
      (∀ (i c : NodeIdx) (l r : Option NodeIdx), s.dec.Settled i → s.dec.nodeAt i = .internal l r →
        l = some c ∨ r = some c → c.val < s.dec.ncount.val)) ∧
    (s.dec.phase = .payload ∨ (s.dec.phase = .done ∧ 0 < s.dec.ncount.val) →
      s.dec.tdone = true ∧ s.dec.stk = [] ∧ (s.dec.nodeAt 0).isLeaf = false ∧ (s.dec.nodeAt s.dec.cur).isLeaf = false ∧
      ∀ i : NodeIdx, i.val < s.dec.ncount.val → (s.dec.nodeAt i).isLeaf = false →
        ∃ l r, s.dec.nodeAt i = .internal (some l) (some r)) ∧
    (s.dec.phase = .hdr →
      s.dec.ncount = 0 ∧ s.dec.tdone = false ∧ s.dec.stk = [] ∧ s.dec.obuf = [] ∧ s.dec.cur = 0) ∧
    (s.dec.obuf.length ≤ s.params.outCap ∧ (s.dec.obuf ≠ [] → s.dec.phase = .payload ∨ s.dec.phase = .done))

/-- Rule R104, the shape of the arena, and rule R32, the depth of the stack. The left child of `p` is `p + 1`; the right child is
the first node after the whole left subtree, which occupies exactly the entries `p + 1` to `c - 1`; both are allocated. When
`TDONE = 1` the tree at the root occupies exactly the entries below `NCOUNT`: every one is reachable from the root, every Internal
node has both children, `NCOUNT` is odd and `(NCOUNT + 1) / 2` nodes are leaves. `STK` is never deeper than `NCOUNT`. -/
def Obligations.ArenaIsInPreOrder : Prop :=
  ∀ s : State, s.Inv →
    (∀ (p : NodeIdx) (l r : Option NodeIdx), s.dec.Settled p → s.dec.nodeAt p = .internal l r →
      (∀ c, l = some c → c.val = p.val + 1 ∧ c.val < s.dec.ncount.val) ∧
      (∀ c, r = some c → p.val + 1 < c.val ∧ c.val < s.dec.ncount.val ∧ ∃ b, l = some b ∧ Spans s.dec.node b c.val)) ∧
    (s.dec.tdone = true →
      Spans s.dec.node 0 s.dec.ncount.val ∧
      (∀ i : NodeIdx, i.val < s.dec.ncount.val → Reaches s.dec.node 0 i) ∧
      (∀ (i : NodeIdx) (l r : Option NodeIdx), i.val < s.dec.ncount.val → s.dec.nodeAt i = .internal l r →
        l ≠ none ∧ r ≠ none) ∧
      s.dec.ncount.val % 2 = 1 ∧
      (List.finRange Config.nodeCap).countP (fun i => decide (i.val < s.dec.ncount.val) && (s.dec.nodeAt i).isLeaf)
        = (s.dec.ncount.val + 1) / 2) ∧
    s.dec.stk.length ≤ s.dec.ncount.val

/-- Rule R61: a `PK.*` command and a `DEC.*` command commute, from every state. -/
def Obligations.PkAndDecCommute : Prop :=
  ∀ (i j : Instr) (s : State),
    (i = .pkClr ∨ i = .pkCtclr ∨ (∃ y, i = .pkCtsel y) ∨ (∃ n d, i = .pkCtapp n d) ∨ (∃ n d, i = .pkPush n d) ∨
      (∃ y, i = .pkEnc y) ∨ i = .pkFlush) →
    (j = .decClr ∨ ∃ b l, j = .decByte b l) →
    andThen (exec i s) (exec j) = andThen (exec j s) (exec i)

/-- Each unit's results are a function of its own state (rules R46, R61, R120): two states with the same PK and parameters still
have the same PK after the same access, and a read of `PK_STAT` or `PK_DATA` returns the same word; and the same of DEC. -/
def Obligations.UnitsAreIsolated : Prop :=
  ∀ (i : Instr) (s s' t t' : State), s.params = s'.params → exec i s = .next t → exec i s' = .next t' →
    (s.pk = s'.pk → t.pk = t'.pk ∧
      (i = .rdPkStat ∨ i = .rdPkData → ∃ w, t.replies = s.replies ++ [w] ∧ t'.replies = s'.replies ++ [w])) ∧
    (s.dec = s'.dec → t.dec = t'.dec ∧
      (i = .rdDecStat ∨ i = .rdDecData ∨ i = .rdDecLen →
        ∃ w, t.replies = s.replies ++ [w] ∧ t'.replies = s'.replies ++ [w]))

/-- Rule R187: what the arena holds beyond the settled nodes is unobservable. Two states of a run that differ only there take steps
to two states that differ only there, with the same replies. -/
def Obligations.StaleArenaIsUnobservable : Prop :=
  ∀ s s' : State, s.Inv → s'.Inv → s.Agree s' →
    ∃ t t', step s = .next t ∧ step s' = .next t' ∧ t.Agree t' ∧ t.replies = t'.replies

/-- Rules R47 and R188: `WR ERR, 3`, `PK.CLR`, `PK.CTCLR` and `DEC.CLR` establish the reset state, but for the arena, from any state
in any order, PROVIDED that PK is not faulted or `PK.CLR` comes before `PK.CTCLR`: a faulted PK drops `PK.CTCLR` (rule R110;
DEDUCED, log entry 6). -/
def Obligations.HostCanEstablishReset : Prop :=
  ∀ (order : List Instr) (s : State), order.Perm [.wrErr 3#32, .pkClr, .pkCtclr, .decClr] →
    s.pk.fault = .noFault ∨ [Instr.pkClr, .pkCtclr].Sublist order →
    execAll order s =
      .next { s with pk := .reset, dec := { Dec.reset with node := s.dec.node }, err := { ill := false, seq := false } }

/-- Rule R40: each `ERR` flag stays set until a `WR ERR` with a 1 in its position. -/
def Obligations.ErrFlagsAreSticky : Prop :=
  ∀ (i : Instr) (s t : State), exec i s = .next t →
    (s.err.ill = true → (∀ w, i = .wrErr w → w.getLsbD 0 = false) → t.err.ill = true) ∧
    (s.err.seq = true → (∀ w, i = .wrErr w → w.getLsbD 1 = false) → t.err.seq = true)

/-- Rule R171: `ERR.SEQ` is set by a legal `DEC.BYTE` received while `PHASE = DONE` and by nothing else; rule R170: `ERR.ILL` by a
`CMD` write of an illegal word and by nothing else. -/
def Obligations.ErrFlagCauses : Prop :=
  ∀ (i : Instr) (s t : State), exec i s = .next t →
    (s.err.seq = false → (t.err.seq = true ↔ s.dec.phase = .done ∧ ∃ byte last, i.canonical = .decByte byte last)) ∧
    (s.err.ill = false → (t.err.ill = true ↔ ∃ w e, i = .wrCmd w ∧ decodeCmd w = .error e))

/-- Rule R177: a faulted unit keeps its state, its code with it, until its CLR; so a second fault cannot occur. -/
def Obligations.FaultsAreHeldUntilCleared : Prop :=
  ∀ (i : Instr) (s t : State), s.Inv → exec i s = .next t →
    (s.pk.fault ≠ .noFault → i.canonical ≠ .pkClr → t.pk = s.pk) ∧
    (s.dec.phase = .fault → i.canonical ≠ .decClr → t.dec = s.dec) ∧
    (s.pk.fault ≠ .noFault → i.canonical = .pkClr → t.pk.fault = .noFault) ∧
    (s.dec.phase = .fault → i.canonical = .decClr → t.dec.dfault = .noFault ∧ t.dec.phase = .hdr)

/-- Rule R53: a read of `CMD`, `ERR`, `PK_STAT`, `DEC_STAT`, `DEC_LEN` or `RSVD7` changes nothing of the block, a read answers with
exactly one word, and a write or a command answers with none. -/
def Obligations.ReadsReplyOnceWritesNever : Prop :=
  ∀ (i : Instr) (s t : State), exec i s = .next t →
    (i ∈ [Instr.rdCmd, .rdErr, .rdPkStat, .rdDecStat, .rdDecLen, .rdRsvd7] → ∃ w, t = { s with replies := s.replies ++ [w] }) ∧
    ((encode i).write = false → ∃ w, t.replies = s.replies ++ [w]) ∧
    ((encode i).write = true → t.replies = s.replies) ∧ t.port = s.port ∧ t.params = s.params
end

