-- ==== Sys2Proof/Laws/State.lean ====
section
/-! SUPPORT. One lemma per field per update, each by unfolding once. -/

namespace Sys2Proof.Machine

@[simp] theorem setIll_pk (s : State) : (setIll s).pk = s.pk := rfl
@[simp] theorem setIll_dec (s : State) : (setIll s).dec = s.dec := rfl
@[simp] theorem setIll_params (s : State) : (setIll s).params = s.params := rfl
@[simp] theorem setIll_port (s : State) : (setIll s).port = s.port := rfl
@[simp] theorem setIll_replies (s : State) : (setIll s).replies = s.replies := rfl
@[simp] theorem setIll_err_ill (s : State) : (setIll s).err.ill = true := rfl
@[simp] theorem setIll_err_seq (s : State) : (setIll s).err.seq = s.err.seq := rfl
@[simp] theorem setSeq_pk (s : State) : (setSeq s).pk = s.pk := rfl
@[simp] theorem setSeq_dec (s : State) : (setSeq s).dec = s.dec := rfl
@[simp] theorem setSeq_params (s : State) : (setSeq s).params = s.params := rfl
@[simp] theorem setSeq_port (s : State) : (setSeq s).port = s.port := rfl
@[simp] theorem setSeq_replies (s : State) : (setSeq s).replies = s.replies := rfl
@[simp] theorem setSeq_err_ill (s : State) : (setSeq s).err.ill = s.err.ill := rfl
@[simp] theorem setSeq_err_seq (s : State) : (setSeq s).err.seq = true := rfl

@[simp] theorem reply_pk (w : Word) (s : State) : (reply w s).pk = s.pk := rfl
@[simp] theorem reply_dec (w : Word) (s : State) : (reply w s).dec = s.dec := rfl
@[simp] theorem reply_err (w : Word) (s : State) : (reply w s).err = s.err := rfl
@[simp] theorem reply_params (w : Word) (s : State) : (reply w s).params = s.params := rfl
@[simp] theorem reply_port (w : Word) (s : State) : (reply w s).port = s.port := rfl
@[simp] theorem reply_replies (w : Word) (s : State) : (reply w s).replies = s.replies ++ [w] := rfl

@[simp] theorem resetInput_pk (s : State) : (resetInput s).pk = .reset := rfl
@[simp] theorem resetInput_dec (s : State) : (resetInput s).dec = decRestart s.dec := rfl
@[simp] theorem resetInput_err (s : State) : (resetInput s).err = .reset := rfl
@[simp] theorem resetInput_params (s : State) : (resetInput s).params = s.params := rfl
@[simp] theorem resetInput_port (s : State) : (resetInput s).port = s.port := rfl
@[simp] theorem resetInput_replies (s : State) : (resetInput s).replies = s.replies := rfl

@[simp] theorem Pk.setCode_ctsym (p : Pk) (sym : Byte) (b : Bits) : (p.setCode sym b).ctsym = p.ctsym := rfl
@[simp] theorem Pk.setCode_acc (p : Pk) (sym : Byte) (b : Bits) : (p.setCode sym b).acc = p.acc := rfl
@[simp] theorem Pk.setCode_fifo (p : Pk) (sym : Byte) (b : Bits) : (p.setCode sym b).fifo = p.fifo := rfl
@[simp] theorem Pk.setCode_pad (p : Pk) (sym : Byte) (b : Bits) : (p.setCode sym b).pad = p.pad := rfl
@[simp] theorem Pk.setCode_fault (p : Pk) (sym : Byte) (b : Bits) : (p.setCode sym b).fault = p.fault := rfl

@[simp] theorem pkFaultEntry_code (c : FaultCode) (p : Pk) : (pkFaultEntry c p).code = p.code := rfl
@[simp] theorem pkFaultEntry_ctsym (c : FaultCode) (p : Pk) : (pkFaultEntry c p).ctsym = p.ctsym := rfl
@[simp] theorem pkFaultEntry_acc (c : FaultCode) (p : Pk) : (pkFaultEntry c p).acc = [] := rfl
@[simp] theorem pkFaultEntry_fifo (c : FaultCode) (p : Pk) : (pkFaultEntry c p).fifo = [] := rfl
@[simp] theorem pkFaultEntry_pad (c : FaultCode) (p : Pk) : (pkFaultEntry c p).pad = 0 := rfl
@[simp] theorem pkFaultEntry_fault (c : FaultCode) (p : Pk) : (pkFaultEntry c p).fault = c := rfl

@[simp] theorem pkRestart_code (p : Pk) : (pkRestart p).code = p.code := rfl
@[simp] theorem pkRestart_ctsym (p : Pk) : (pkRestart p).ctsym = p.ctsym := rfl
@[simp] theorem pkRestart_acc (p : Pk) : (pkRestart p).acc = [] := rfl
@[simp] theorem pkRestart_fifo (p : Pk) : (pkRestart p).fifo = [] := rfl
@[simp] theorem pkRestart_pad (p : Pk) : (pkRestart p).pad = 0 := rfl
@[simp] theorem pkRestart_fault (p : Pk) : (pkRestart p).fault = .noFault := rfl

@[simp] theorem Dec.setNode_phase (d : Dec) (i : NodeIdx) (n : Node) : (d.setNode i n).phase = d.phase := rfl
@[simp] theorem Dec.setNode_dfault (d : Dec) (i : NodeIdx) (n : Node) : (d.setNode i n).dfault = d.dfault := rfl
@[simp] theorem Dec.setNode_padreg (d : Dec) (i : NodeIdx) (n : Node) : (d.setNode i n).padreg = d.padreg := rfl
@[simp] theorem Dec.setNode_ncount (d : Dec) (i : NodeIdx) (n : Node) : (d.setNode i n).ncount = d.ncount := rfl
@[simp] theorem Dec.setNode_stk (d : Dec) (i : NodeIdx) (n : Node) : (d.setNode i n).stk = d.stk := rfl
@[simp] theorem Dec.setNode_tmode (d : Dec) (i : NodeIdx) (n : Node) : (d.setNode i n).tmode = d.tmode := rfl
@[simp] theorem Dec.setNode_symcnt (d : Dec) (i : NodeIdx) (n : Node) : (d.setNode i n).symcnt = d.symcnt := rfl
@[simp] theorem Dec.setNode_symacc (d : Dec) (i : NodeIdx) (n : Node) : (d.setNode i n).symacc = d.symacc := rfl
@[simp] theorem Dec.setNode_tleaf (d : Dec) (i : NodeIdx) (n : Node) : (d.setNode i n).tleaf = d.tleaf := rfl
@[simp] theorem Dec.setNode_tdone (d : Dec) (i : NodeIdx) (n : Node) : (d.setNode i n).tdone = d.tdone := rfl
@[simp] theorem Dec.setNode_cur (d : Dec) (i : NodeIdx) (n : Node) : (d.setNode i n).cur = d.cur := rfl
@[simp] theorem Dec.setNode_obuf (d : Dec) (i : NodeIdx) (n : Node) : (d.setNode i n).obuf = d.obuf := rfl

@[simp] theorem decFaultEntry_phase (c : FaultCode) (d : Dec) : (decFaultEntry c d).phase = .fault := rfl
@[simp] theorem decFaultEntry_dfault (c : FaultCode) (d : Dec) : (decFaultEntry c d).dfault = c := rfl
@[simp] theorem decFaultEntry_padreg (c : FaultCode) (d : Dec) : (decFaultEntry c d).padreg = d.padreg := rfl
@[simp] theorem decFaultEntry_node (c : FaultCode) (d : Dec) : (decFaultEntry c d).node = d.node := rfl
@[simp] theorem decFaultEntry_ncount (c : FaultCode) (d : Dec) : (decFaultEntry c d).ncount = d.ncount := rfl
@[simp] theorem decFaultEntry_stk (c : FaultCode) (d : Dec) : (decFaultEntry c d).stk = d.stk := rfl
@[simp] theorem decFaultEntry_tmode (c : FaultCode) (d : Dec) : (decFaultEntry c d).tmode = d.tmode := rfl
@[simp] theorem decFaultEntry_symcnt (c : FaultCode) (d : Dec) : (decFaultEntry c d).symcnt = d.symcnt := rfl
@[simp] theorem decFaultEntry_symacc (c : FaultCode) (d : Dec) : (decFaultEntry c d).symacc = d.symacc := rfl
@[simp] theorem decFaultEntry_tleaf (c : FaultCode) (d : Dec) : (decFaultEntry c d).tleaf = d.tleaf := rfl
@[simp] theorem decFaultEntry_tdone (c : FaultCode) (d : Dec) : (decFaultEntry c d).tdone = d.tdone := rfl
@[simp] theorem decFaultEntry_cur (c : FaultCode) (d : Dec) : (decFaultEntry c d).cur = d.cur := rfl
@[simp] theorem decFaultEntry_obuf (c : FaultCode) (d : Dec) : (decFaultEntry c d).obuf = [] := rfl

@[simp] theorem decRestart_phase (d : Dec) : (decRestart d).phase = .hdr := rfl
@[simp] theorem decRestart_dfault (d : Dec) : (decRestart d).dfault = .noFault := rfl
@[simp] theorem decRestart_padreg (d : Dec) : (decRestart d).padreg = 0 := rfl
@[simp] theorem decRestart_node (d : Dec) : (decRestart d).node = d.node := rfl
@[simp] theorem decRestart_ncount (d : Dec) : (decRestart d).ncount = 0 := rfl
@[simp] theorem decRestart_stk (d : Dec) : (decRestart d).stk = [] := rfl
@[simp] theorem decRestart_tmode (d : Dec) : (decRestart d).tmode = .tag := rfl
@[simp] theorem decRestart_symcnt (d : Dec) : (decRestart d).symcnt = 0 := rfl
@[simp] theorem decRestart_symacc (d : Dec) : (decRestart d).symacc = 0#8 := rfl
@[simp] theorem decRestart_tleaf (d : Dec) : (decRestart d).tleaf = 0 := rfl
@[simp] theorem decRestart_tdone (d : Dec) : (decRestart d).tdone = false := rfl
@[simp] theorem decRestart_cur (d : Dec) : (decRestart d).cur = 0 := rfl
@[simp] theorem decRestart_obuf (d : Dec) : (decRestart d).obuf = [] := rfl

/-! ## Reading after writing the two arrays -/

/-- Rule R58: an entry of `CODE` is written whole, and no other entry changes. -/
@[simp] theorem Pk.codeOf_setCode (p : Pk) (sym t : Byte) (b : Bits) :
    (p.setCode sym b).codeOf t = if sym = t then b else p.codeOf t := by
  simp only [Pk.codeOf, Pk.setCode, Vector.getElem_set, BitVec.toNat_inj]

/-- Rule R58: an entry of `NODE` is written whole, and no other entry changes. -/
@[simp] theorem Dec.nodeAt_setNode (d : Dec) (i j : NodeIdx) (n : Node) :
    (d.setNode i n).nodeAt j = if i = j then n else d.nodeAt j := by
  simp only [Dec.nodeAt, Dec.setNode, Vector.getElem_set, Fin.val_inj]

/-- `NODE[i]` depends on the arena alone. -/
theorem Dec.nodeAt_congr (d e : Dec) (h : d.node = e.node) (i : NodeIdx) : d.nodeAt i = e.nodeAt i := by
  simp only [Dec.nodeAt, h]

/-- Every entry of a code table of empty entries is empty: rule R112. -/
@[simp] theorem Pk.codeOf_replicate (p : Pk) (sym : Byte) :
    ({ p with code := Vector.replicate Config.nsym [] } : Pk).codeOf sym = [] := by
  simp [Pk.codeOf]

theorem Dec.nodeAt_setNode_self (d : Dec) (i : NodeIdx) (n : Node) : (d.setNode i n).nodeAt i = n := by
  rw [Dec.nodeAt_setNode, if_pos rfl]

theorem Dec.nodeAt_setNode_ne (d : Dec) {i j : NodeIdx} (h : i ≠ j) (n : Node) : (d.setNode i n).nodeAt j = d.nodeAt j := by
  rw [Dec.nodeAt_setNode, if_neg h]

end Sys2Proof.Machine
end

