-- ==== Sys2Proof/Laws/Arena.lean ====
section
/-! SUPPORT. Subtrees, spines and open nodes of the arena (rule R104): what they leave alone, and how they grow. -/

namespace Sys2Proof.Machine

variable {a a' : Vector Node Config.nodeCap}

/-- A subtree is not empty. -/
theorem Spans.lt {i : NodeIdx} {e : Nat} (h : Spans a i e) : i.val < e := by
  induction h with
  | leaf _ he => omega
  | internal _ hl _ _ h1 h2 => omega

theorem Spine.le {i b : NodeIdx} (h : Spine a i b) : i.val ≤ b.val := by
  induction h with
  | here => exact le_rfl
  | right _ hl hs _ ih => have := hs.lt; omega

/-! ## Only the entries of a subtree matter to it -/

theorem Spans.congr {i : NodeIdx} {e : Nat} (h : Spans a i e)
    (hs : ∀ j : NodeIdx, i.val ≤ j.val → j.val < e → a'[j.val]'j.isLt = a[j.val]'j.isLt) : Spans a' i e := by
  induction h with
  | leaf hn he => exact .leaf ((hs _ le_rfl (by omega)).trans hn) he
  | internal hn hl h1 h2 ih1 ih2 =>
    have := h1.lt
    have := h2.lt
    exact .internal ((hs _ le_rfl (by omega)).trans hn) hl (ih1 fun j _ _ => hs j (by omega) (by omega))
      (ih2 fun j _ _ => hs j (by omega) (by omega))

theorem Spine.congr {i b : NodeIdx} (h : Spine a i b)
    (hs : ∀ j : NodeIdx, i.val ≤ j.val → j.val < b.val → a'[j.val]'j.isLt = a[j.val]'j.isLt) : Spine a' i b := by
  induction h with
  | here => exact .here
  | right hn hl h1 h2 ih =>
    have := h1.lt
    have := h2.le
    exact .right ((hs _ le_rfl (by omega)).trans hn) hl (h1.congr fun j _ _ => hs j (by omega) (by omega))
      (ih fun j _ _ => hs j (by omega) (by omega))

theorem Awaits.congr {stk : List (NodeIdx × Slot)} {b : NodeIdx} (h : Awaits a stk b)
    (hs : ∀ j : NodeIdx, j.val < b.val → a'[j.val]'j.isLt = a[j.val]'j.isLt) : Awaits a' stk b := by
  induction stk generalizing b with
  | nil => exact Spine.congr h fun j _ hj => hs j hj
  | cons f rest ih =>
    obtain ⟨l, hn, hl, h1, h2⟩ := h
    have := h1.le
    exact ⟨l, (hs _ (by omega)).trans hn, hl, h1.congr fun j _ hj => hs j hj, ih h2 fun j hj => hs j (by omega)⟩

/-! ## Growing -/

/-- Finishing the node on the spine finishes the subtree. -/
theorem Spine.close {i b : NodeIdx} {e : Nat} (h : Spine a i b) (hb : Spans a b e) : Spans a i e := by
  induction h with
  | here => exact hb
  | right hn hl h1 _ ih => exact .internal hn hl h1 (ih hb)

/-- Starting the right child of the node on the spine makes the spine one node longer. -/
theorem Spine.extend {i p l r : NodeIdx} (h : Spine a i p) (hn : a[p.val]'p.isLt = .internal (some l) (some r))
    (hl : l.val = p.val + 1) (h1 : Spans a l r.val) : Spine a i r := by
  induction h with
  | here => exact .right hn hl h1 .here
  | right hn' hl' h1' _ ih => exact .right hn' hl' h1' (ih hn hl)

theorem Awaits.extend {stk : List (NodeIdx × Slot)} {p l r : NodeIdx} (h : Awaits a stk p)
    (hn : a[p.val]'p.isLt = .internal (some l) (some r)) (hl : l.val = p.val + 1) (h1 : Spans a l r.val) : Awaits a stk r := by
  cases stk with
  | nil => exact Spine.extend h hn hl h1
  | cons f rest =>
    obtain ⟨m, hm, hml, hs, hr⟩ := h
    exact ⟨m, hm, hml, hs.extend hn hl h1, hr⟩

/-! ## Every node before the end is in pre-order -/

/-- Inside a complete subtree, every Internal node has its left subtree just before its right child. -/
theorem Spans.inside {i : NodeIdx} {e : Nat} (h : Spans a i e) {j : NodeIdx} {l r : Option NodeIdx} (h1 : i.val ≤ j.val)
    (h2 : j.val < e) (hn : a[j.val]'j.isLt = .internal l r) :
    ∃ l' r' : NodeIdx, l = some l' ∧ r = some r' ∧ l'.val = j.val + 1 ∧ Spans a l' r'.val ∧ r'.val < e := by
  induction h with
  | @leaf i e sym hi he =>
    have : i = j := Fin.ext (by omega)
    subst this
    simp [hi] at hn
  | @internal i l0 r0 e hi hl hs hs' ih ih' =>
    have hlt := hs.lt
    have hlt' := hs'.lt
    rcases Nat.lt_or_ge j.val l0.val with hj | hj
    · have : i = j := Fin.ext (by omega)
      subst this
      rw [hi] at hn
      cases hn
      exact ⟨l0, r0, rfl, rfl, hl, hs, hlt'⟩
    · rcases Nat.lt_or_ge j.val r0.val with hr | hr
      · obtain ⟨l', r', e1, e2, e3, e4, e5⟩ := ih hj hr
        exact ⟨l', r', e1, e2, e3, e4, by omega⟩
      · exact ih' hr h2

/-- The same of a node passed on a spine. -/
theorem Spine.inside {i b : NodeIdx} (h : Spine a i b) {j : NodeIdx} {l r : Option NodeIdx} (h1 : i.val ≤ j.val)
    (h2 : j.val < b.val) (hn : a[j.val]'j.isLt = .internal l r) :
    ∃ l' r' : NodeIdx, l = some l' ∧ r = some r' ∧ l'.val = j.val + 1 ∧ Spans a l' r'.val := by
  induction h with
  | here => omega
  | @right i l0 r0 b hi hl hs hs' ih =>
    rcases Nat.lt_or_ge j.val l0.val with hj | hj
    · have : i = j := Fin.ext (by omega)
      subst this
      rw [hi] at hn
      cases hn
      exact ⟨l0, r0, rfl, rfl, hl, hs⟩
    · rcases Nat.lt_or_ge j.val r0.val with hr | hr
      · obtain ⟨l', r', e1, e2, e3, e4, -⟩ := hs.inside hj hr hn
        exact ⟨l', r', e1, e2, e3, e4⟩
      · exact ih hr h2

/-- The same of every node before the one in progress that has both children. -/
theorem Awaits.inside {stk : List (NodeIdx × Slot)} {b : NodeIdx} (h : Awaits a stk b) {j l r : NodeIdx} (hj : j.val < b.val)
    (hn : a[j.val]'j.isLt = .internal (some l) (some r)) : l.val = j.val + 1 ∧ Spans a l r.val := by
  induction stk generalizing b with
  | nil =>
    obtain ⟨l', r', e1, e2, e3, e4⟩ := Spine.inside h (Nat.zero_le _) hj hn
    cases e1
    cases e2
    exact ⟨e3, e4⟩
  | cons f rest ih =>
    obtain ⟨m, hm, hml, hs, hr⟩ := h
    rcases Nat.lt_trichotomy j.val f.1.val with hlt | heq | hgt
    · exact ih hr hlt
    · have : j = f.1 := Fin.ext heq
      subst this
      rw [hm] at hn
      cases hn
    · obtain ⟨l', r', e1, e2, e3, e4⟩ := hs.inside (by omega) hj hn
      cases e1
      cases e2
      exact ⟨e3, e4⟩

/-! ## What `Ordered` says in each state between two bits -/

theorem Dec.ordered_sym {d : Dec} (hm : d.tmode = .sym) : d.Ordered ↔ Awaits d.node d.stk d.tleaf := by
  unfold Dec.Ordered
  rw [hm]

theorem Dec.ordered_nil {d : Dec} (hm : d.tmode = .tag) (hs : d.stk = []) :
    d.Ordered ↔ d.ncount.val = 0 ∨ Spans d.node 0 d.ncount.val := by
  unfold Dec.Ordered
  rw [hm, hs]

theorem Dec.ordered_left {d : Dec} {p : NodeIdx} {rest : List (NodeIdx × Slot)} (hm : d.tmode = .tag)
    (hs : d.stk = (p, .left) :: rest) : d.Ordered ↔ Awaits d.node rest p := by
  unfold Dec.Ordered
  rw [hm, hs]

theorem Dec.ordered_right {d : Dec} {p : NodeIdx} {rest : List (NodeIdx × Slot)} (hm : d.tmode = .tag)
    (hs : d.stk = (p, .right) :: rest) :
    d.Ordered ↔ ∃ l : NodeIdx, d.nodeAt p = .internal (some l) none ∧ l.val = p.val + 1 ∧ Spans d.node l d.ncount.val ∧
      Awaits d.node rest p := by
  unfold Dec.Ordered
  rw [hm, hs]

end Sys2Proof.Machine
end

