-- ==== Sys2Proof/Laws/Bits.lean ====
section
/-! SUPPORT. Bit strings and bytes: lengths, and that packing and unpacking undo each other (rule R10). -/

namespace Sys2Proof.Machine

@[simp] theorem length_bitsMSB {w : Nat} (n : Nat) (v : BitVec w) : (bitsMSB n v).length = n := by
  induction n with
  | zero => rfl
  | succ n ih => simp [bitsMSB, ih]

@[simp] theorem length_zeros (n : Nat) : (zeros n).length = n := by simp [zeros]

@[simp] theorem length_bitsOf (bs : List Byte) : (bitsOf bs).length = 8 * bs.length := by
  induction bs with
  | nil => rfl
  | cons b bs ih => simp [bitsOf, ih]; omega

theorem bitsOf_append (bs cs : List Byte) : bitsOf (bs ++ cs) = bitsOf bs ++ bitsOf cs := by
  induction bs with
  | nil => rfl
  | cons b bs ih => simp [bitsOf, ih]

/-- A byte is the byte of its bits. -/
@[simp] theorem byteOf_bitsMSB (b : Byte) : byteOf (bitsMSB 8 b) = b := by
  revert b; decide +kernel

/-- The bits of a byte are the eight bits it was made of. -/
theorem bitsMSB_byteOf (b7 b6 b5 b4 b3 b2 b1 b0 : Bool) :
    bitsMSB 8 (byteOf [b7, b6, b5, b4, b3, b2, b1, b0]) = [b7, b6, b5, b4, b3, b2, b1, b0] := by
  cases b7 <;> cases b6 <;> cases b5 <;> cases b4 <;> cases b3 <;> cases b2 <;> cases b1 <;> cases b0 <;> rfl

/-- The first eight bits make the first byte. -/
theorem bytesOf_bits_append (b : Byte) (s : Bits) : bytesOf (bitsMSB 8 b ++ s) = b :: bytesOf s := by
  conv_rhs => rw [← byteOf_bitsMSB b]
  rfl

/-- `bytesOf` undoes `bitsOf`: rule R10. -/
@[simp] theorem bytesOf_bitsOf (bs : List Byte) : bytesOf (bitsOf bs) = bs := by
  induction bs with
  | nil => rfl
  | cons b bs ih => rw [bitsOf, bytesOf_bits_append, ih]

/-- Fewer than eight bits make no byte. -/
theorem bytesOf_short (s : Bits) (h : s.length < 8) : bytesOf s = [] := by
  rcases s with _ | ⟨a, _ | ⟨b, _ | ⟨c, _ | ⟨d, _ | ⟨e, _ | ⟨f, _ | ⟨g, _ | ⟨i, r⟩⟩⟩⟩⟩⟩⟩⟩
  case cons.cons.cons.cons.cons.cons.cons.cons => simp at h; omega
  all_goals rfl

/-- A string of at least eight bits is a byte's bits and the rest. -/
theorem exists_byte_of_le (s : Bits) (h : 8 ≤ s.length) : ∃ (b : Byte) (t : Bits), s = bitsMSB 8 b ++ t := by
  rcases s with _ | ⟨b7, _ | ⟨b6, _ | ⟨b5, _ | ⟨b4, _ | ⟨b3, _ | ⟨b2, _ | ⟨b1, _ | ⟨b0, r⟩⟩⟩⟩⟩⟩⟩⟩
  case cons.cons.cons.cons.cons.cons.cons.cons =>
    exact ⟨byteOf [b7, b6, b5, b4, b3, b2, b1, b0], r, by rw [bitsMSB_byteOf]; rfl⟩
  all_goals simp at h

/-- `bitsOf` undoes `bytesOf` up to the last whole byte: rule R10. -/
theorem bitsOf_bytesOf_append (s : Bits) : ∃ t : Bits, t.length < 8 ∧ s = bitsOf (bytesOf s) ++ t := by
  induction hn : s.length using Nat.strongRecOn generalizing s with
  | ind n ih =>
    rcases Nat.lt_or_ge s.length 8 with h | h
    · exact ⟨s, h, by rw [bytesOf_short s h]; rfl⟩
    · obtain ⟨b, t, rfl⟩ := exists_byte_of_le s h
      obtain ⟨u, hu, ht⟩ := ih t.length (by simp at hn; omega) t rfl
      refine ⟨u, hu, ?_⟩
      rw [bytesOf_bits_append, bitsOf, List.append_assoc, ← ht]

/-- Each whole group of eight bits makes one byte. -/
@[simp] theorem length_bytesOf (s : Bits) : (bytesOf s).length = s.length / 8 := by
  obtain ⟨t, ht, hs⟩ := bitsOf_bytesOf_append s
  have h := congrArg List.length hs
  simp at h
  omega

/-- `bitsOf` undoes `bytesOf` on a whole number of bytes: rule R10. -/
theorem bitsOf_bytesOf (s : Bits) (h : s.length % 8 = 0) : bitsOf (bytesOf s) = s := by
  obtain ⟨t, ht, hs⟩ := bitsOf_bytesOf_append s
  have hl := congrArg List.length hs
  simp at hl
  have : t = [] := List.length_eq_zero_iff.mp (by omega)
  conv_rhs => rw [hs, this, List.append_nil]

/-- Packing a whole number of bytes first packs them, then the rest. -/
theorem bytesOf_append (s t : Bits) (h : s.length % 8 = 0) : bytesOf (s ++ t) = bytesOf s ++ bytesOf t := by
  rw [← bitsOf_bytesOf s h]
  generalize bytesOf s = bs
  induction bs with
  | nil => rfl
  | cons b bs ih => rw [bitsOf, List.append_assoc, bytesOf_bits_append, ih, bytesOf_bits_append]; rfl

end Sys2Proof.Machine
end

