-- ==== Sys2Proof/Laws/Decode.lean ====
section
/-! SUPPORT. What the decoder answers. -/

namespace Sys2Proof

/-- A command word decodes to one of the nine commands: rule R85. -/
theorem decodeCmd_isCommand {w : Word} {i : Instr} (h : decodeCmd w = .ok i) : i.isCommand = true := by
  unfold decodeCmd decodeZ decodeS decodeB decodeD at h
  repeat' split at h
  all_goals cases h
  all_goals rfl

/-- A command word decodes to a well-formed instruction: rule R83. -/
theorem decodeCmd_wellFormed {w : Word} {i : Instr} (h : decodeCmd w = .ok i) : i.wellFormed = true := by
  unfold decodeCmd decodeZ decodeS decodeB decodeD at h
  repeat' split at h
  all_goals cases h
  all_goals simp_all [Instr.wellFormed, formatBOk]

namespace Machine

/-- For a command the case list of rule R150 is the command's own meaning. -/
theorem execCommand_eq_exec {i : Instr} (h : i.isCommand = true) (s : State) : execCommand i s = exec i s := by
  cases i <;> first | rfl | cases h

/-- `WR CMD` of a command word executes the command: rule R150. -/
theorem exec_wrCmd_ok {w : Word} {i : Instr} (h : decodeCmd w = .ok i) (s : State) : exec (.wrCmd w) s = exec i s := by
  rw [← execCommand_eq_exec (decodeCmd_isCommand h)]
  simp only [exec, execWrCmd, h]

/-- `WR CMD` of an illegal word sets `ERR.ILL` and does nothing else: rule R86. -/
theorem exec_wrCmd_error {w : Word} {e : Illegal} (h : decodeCmd w = .error e) (s : State) :
    exec (.wrCmd w) s = .next (setIll s) := by
  simp only [exec, execWrCmd, h]

/-- The two spellings of a command do the same: rule R90. -/
theorem exec_canonical (i : Instr) (s : State) : exec i.canonical s = exec i s := by
  cases i with
  | wrCmd w =>
    simp only [Instr.canonical, decodeCmdWrite]
    cases h : decodeCmd w with
    | ok c => exact (exec_wrCmd_ok h s).symm
    | error e => rfl
  | _ => rfl

end Machine
end Sys2Proof
end

