-- ==== Sys2Proof/Laws/Ops.lean ====
section
/-! SUPPORT. What each shared operation can do, said once, for later proofs to cite. -/

namespace Sys2Proof.Machine

/-! ## Commands of PK: rule R110 -/

/-- A `PK.*` command other than `PK.CLR` always answers a next state: dropped, executed, or faulted. -/
theorem pkCommand_cases (f : Pk → Except FaultCode Pk) (s : State) :
    (s.pk.fault ≠ .noFault ∧ pkCommand f s = .next s) ∨
    (s.pk.fault = .noFault ∧ ∃ p, f s.pk = .ok p ∧ pkCommand f s = .next { s with pk := p }) ∨
    (s.pk.fault = .noFault ∧ ∃ c, f s.pk = .error c ∧ pkCommand f s = .next { s with pk := pkFaultEntry c s.pk }) := by
  unfold pkCommand
  by_cases h : s.pk.fault = .noFault
  · rw [if_pos h]
    cases hf : f s.pk with
    | ok p => exact .inr (.inl ⟨h, p, rfl, rfl⟩)
    | error c => exact .inr (.inr ⟨h, c, rfl, rfl⟩)
  · rw [if_neg h]
    exact .inl ⟨h, rfl⟩

/-- A `PK.*` command touches PK alone, and what it does to PK depends on PK alone. -/
theorem pkCommand_lift (f : Pk → Except FaultCode Pk) :
    ∃ g : Pk → Pk, ∀ s : State, pkCommand f s = .next { s with pk := g s.pk } := by
  refine ⟨fun p => if p.fault = .noFault then (match f p with | .ok q => q | .error c => pkFaultEntry c p) else p, fun s => ?_⟩
  rcases pkCommand_cases f s with ⟨h, e⟩ | ⟨h, p, hp, e⟩ | ⟨h, c, hc, e⟩
  · simp only [e, if_neg h]
  · simp only [e, if_pos h, hp]
  · simp only [e, if_pos h, hc]

/-! ## Commands of DEC: rules R132, R173 -/

/-- What a `DEC.BYTE` that DEC accepts can do: executed, faulted with everything else kept, or stopped. -/
theorem decCommand_cases (f : Dec → Except DecStop Dec) (s : State) :
    (∃ d, f s.dec = .ok d ∧ decCommand f s = .next { s with dec := d }) ∨
    (∃ c, f s.dec = .error (.inl c) ∧ decCommand f s = .next { s with dec := decFaultEntry c s.dec }) ∨
    (∃ r, f s.dec = .error (.inr r) ∧ decCommand f s = .fault r) := by
  unfold decCommand
  rcases f s.dec with (c | r) | d
  · exact .inr (.inl ⟨c, rfl, rfl⟩)
  · exact .inr (.inr ⟨r, rfl, rfl⟩)
  · exact .inl ⟨d, rfl, rfl⟩

/-! ## One step: rule R60 -/

/-- What a step can do. -/
theorem step_cases (s : State) :
    (s.port = [] ∧ step s = .next s) ∨
    (∃ a rest, s.port = .access a :: rest ∧ step s = exec (decode a) { s with port := rest }) ∨
    (∃ rest, s.port = .reset :: rest ∧ step s = .next (resetInput { s with port := rest })) := by
  unfold step
  rcases hp : s.port with _ | ⟨_ | _, rest⟩
  · exact .inl ⟨rfl, rfl⟩
  · exact .inr (.inl ⟨_, rest, rfl, rfl⟩)
  · exact .inr (.inr ⟨rest, rfl, rfl⟩)

end Sys2Proof.Machine
end

