-- ==== Sys2Proof/Laws/Decoder.lean ====
section
/-! SUPPORT. What the decoder's operations can do, and that TD and UD keep rule R48 bit by bit. -/

namespace Sys2Proof.Machine

/-! ## The operations, case by case -/

/-- Linking a node to its parent, rule R101: no parent, a left child, a right child, or a broken arena. -/
theorem linkParent_cases (i : NodeIdx) (d : Dec) :
    (d.stk = [] ∧ linkParent i d = .ok d) ∨
    (∃ p rest l r, d.stk = (p, .left) :: rest ∧ d.nodeAt p = .internal l r ∧
      linkParent i d = .ok { d.setNode p (.internal (some i) r) with stk := (p, .right) :: rest }) ∨
    (∃ p rest l r, d.stk = (p, .right) :: rest ∧ d.nodeAt p = .internal l r ∧
      linkParent i d = .ok { d.setNode p (.internal l (some i)) with stk := rest }) ∨
    (∃ e rest, d.stk = e :: rest ∧ (d.nodeAt e.1).isLeaf = true ∧ linkParent i d = brokenArena) := by
  unfold linkParent
  rcases hs : d.stk with _ | ⟨⟨p, _ | _⟩, rest⟩
  · exact .inl ⟨rfl, rfl⟩
  all_goals
    simp only
    rcases hn : d.nodeAt p with sym | ⟨l, r⟩
    · exact .inr (.inr (.inr ⟨_, rest, rfl, by simp [hn, Node.isLeaf], rfl⟩))
  · exact .inr (.inl ⟨p, rest, l, r, rfl, hn, rfl⟩)
  · exact .inr (.inr (.inl ⟨p, rest, l, r, rfl, hn, rfl⟩))

/-- The header byte: rule R133's four cases. -/
theorem hdrByte_cases (byte : Byte) (last : Bool) (d : Dec) :
    (7 < byte.toNat ∧ hdrByte byte last d = raiseDec .corruptPayload) ∨
    (byte.toNat ≤ 7 ∧ last = false ∧
      hdrByte byte last d = .ok { d with padreg := Fin.ofNat 8 byte.toNat, phase := .tree }) ∨
    (byte = 0#8 ∧ last = true ∧ hdrByte byte last d = .ok { d with padreg := 0, phase := .done }) ∨
    (1 ≤ byte.toNat ∧ byte.toNat ≤ 7 ∧ last = true ∧ hdrByte byte last d = raiseDec .malformedTree) := by
  unfold hdrByte
  by_cases h : byte.toNat > Config.padMax
  · exact .inl ⟨h, if_pos h⟩
  · have h7 : byte.toNat ≤ 7 := Nat.le_of_not_lt h
    rw [if_neg h]
    cases last
    · exact .inr (.inl ⟨h7, rfl, rfl⟩)
    · by_cases h0 : byte = 0#8
      · subst h0
        exact .inr (.inr (.inl ⟨rfl, rfl, rfl⟩))
      · refine .inr (.inr (.inr ⟨?_, h7, rfl, by simp [h0]⟩))
        exact Nat.pos_of_ne_zero fun hz => h0 (BitVec.eq_of_toNat_eq hz)

/-- The end of the tree section: rule R106's four cases. -/
theorem treeEnd_cases (last : Bool) (d : Dec) :
    ((d.nodeAt 0).isLeaf = true ∧ treeEnd last d = raiseDec .malformedTree) ∨
    ((d.nodeAt 0).isLeaf = false ∧ last = false ∧ treeEnd last d = .ok { d with cur := 0, phase := .payload }) ∨
    ((d.nodeAt 0).isLeaf = false ∧ last = true ∧ d.padreg = 0 ∧ treeEnd last d = .ok { d with cur := 0, phase := .done }) ∨
    ((d.nodeAt 0).isLeaf = false ∧ last = true ∧ d.padreg ≠ 0 ∧ treeEnd last d = raiseDec .corruptPayload) := by
  unfold treeEnd
  cases hl : (d.nodeAt 0).isLeaf
  · cases last
    · exact .inr (.inl ⟨rfl, rfl, rfl⟩)
    · by_cases hp : d.padreg = 0
      · exact .inr (.inr (.inl ⟨rfl, rfl, hp, by simp [hp]⟩))
      · exact .inr (.inr (.inr ⟨rfl, rfl, hp, by simp [hp]⟩))
  · exact .inl ⟨rfl, rfl⟩

/-- One step of the tree walk: rule R135's cases, and a broken arena. -/
theorem udBit_cases (outCap : Nat) (b : Bool) (d : Dec) :
    ((d.nodeAt d.cur).child b = none ∧ udBit outCap b d = brokenArena) ∨
    (∃ nxt sym, (d.nodeAt d.cur).child b = some nxt ∧ d.nodeAt nxt = .leaf sym ∧ d.obuf.length = outCap ∧
      udBit outCap b d = raiseDec .unsupportedInput) ∨
    (∃ nxt sym, (d.nodeAt d.cur).child b = some nxt ∧ d.nodeAt nxt = .leaf sym ∧ d.obuf.length ≠ outCap ∧
      udBit outCap b d = .ok { d with obuf := d.obuf ++ [sym], cur := 0 }) ∨
    (∃ nxt, (d.nodeAt d.cur).child b = some nxt ∧ (d.nodeAt nxt).isLeaf = false ∧
      udBit outCap b d = .ok { d with cur := nxt }) := by
  unfold udBit
  rcases hc : (d.nodeAt d.cur).child b with _ | nxt
  · exact .inl ⟨rfl, rfl⟩
  · simp only
    rcases hn : d.nodeAt nxt with sym | ⟨l, r⟩
    · by_cases ho : d.obuf.length = outCap
      · exact .inr (.inl ⟨nxt, sym, rfl, hn, ho, by simp [ho]⟩)
      · exact .inr (.inr (.inl ⟨nxt, sym, rfl, hn, ho, by simp [ho]⟩))
    · exact .inr (.inr (.inr ⟨nxt, rfl, by simp [hn, Node.isLeaf], rfl⟩))

/-! ## TD keeps its invariant -/

/-- A tag bit never meets a broken arena. -/
theorem linkParent_ok {d : Dec} (h : d.TreeInv) (i : NodeIdx) : ∃ d1, linkParent i d = .ok d1 := by
  rcases linkParent_cases i d with ⟨-, e⟩ | ⟨p, rest, l, r, -, -, e⟩ | ⟨p, rest, l, r, -, -, e⟩ | ⟨e, rest, hs, hl, -⟩
  · exact ⟨_, e⟩
  · exact ⟨_, e⟩
  · exact ⟨_, e⟩
  · obtain ⟨-, ho⟩ := h.opens e (by simp [hs])
    cases hb : e.2 <;> simp only [hb] at ho
    · simp [ho.1, Node.isLeaf] at hl
    · obtain ⟨l, hl'⟩ := ho
      simp [hl', Node.isLeaf] at hl

/-- The state of TD when node `i` has been counted and linked to its parent, and is about to be started. -/
structure Dec.Linked (d : Dec) (i : NodeIdx) : Prop where
  links : ∀ j l r, j.val < i.val → d.nodeAt j = .internal l r → d.LinksOk j l r
  opens : ∀ e ∈ d.stk, e.1.val < i.val ∧ e.2 = .right ∧ ∃ l, d.nodeAt e.1 = .internal (some l) none
  descending : d.stk.Pairwise (fun a b => b.1.val < a.1.val)
  count : d.ncount.val = i.val + 1
  tag : d.tmode = .tag
  symcnt : d.symcnt = 0
  tdone : d.tdone = false
  tleaf_low : d.tleaf.val < d.ncount.val
  cur_low : d.cur.val < d.ncount.val
  order : Awaits d.node d.stk i

/-- Between two bits, a node that is open for its right child lies below a node above it on the stack. -/
theorem Dec.TreeInv.rest_right {d : Dec} (h : d.TreeInv) {e : NodeIdx × Slot} {rest : List (NodeIdx × Slot)}
    (hs : d.stk = e :: rest) : ∀ f ∈ rest, f.1.val < e.1.val ∧ f.2 = .right ∧ ∃ l, d.nodeAt f.1 = .internal (some l) none := by
  intro f hf
  have hd := h.descending
  rw [hs, List.pairwise_cons] at hd
  have hlt := hd.1 f hf
  obtain ⟨hset, ho⟩ := h.opens f (by simp [hs, hf])
  obtain ⟨hse, -⟩ := h.opens e (by simp [hs])
  rcases hb : f.2 with _ | _ <;> simp only [hb] at ho
  · have := hse.1
    omega
  · exact ⟨hlt, rfl, ho⟩

/-- Linking a new node to its parent: the middle part of rule R101. -/
theorem linkParent_linked {d d1 : Dec} (h : d.TreeInv) (hm : d.tmode = .tag) (hd : d.tdone = false)
    (hn : d.ncount.val < Config.nodeCap) (hl : linkParent ⟨d.ncount.val, hn⟩ d = .ok d1) :
    ({ d1 with ncount := ⟨d.ncount.val + 1, Nat.succ_lt_succ hn⟩ } : Dec).Linked ⟨d.ncount.val, hn⟩ := by
  have hset : ∀ j : NodeIdx, j.val < d.ncount.val → d.Settled j := fun j hj => ⟨hj, by simp [hm]⟩
  have hlow : d.tleaf.val < d.ncount.val + 1 ∧ d.cur.val < d.ncount.val + 1 := by
    have h1 := h.tleaf_low
    have h2 := h.cur_low
    omega
  rcases linkParent_cases ⟨d.ncount.val, hn⟩ d with
    ⟨hs, e⟩ | ⟨p, rest, l, r, hs, hnp, e⟩ | ⟨p, rest, l, r, hs, hnp, e⟩ | ⟨e0, rest, hs, hlf, e⟩
  · cases e.symm.trans hl
    have h0 : d.ncount.val = 0 := by
      by_contra hne
      have := h.done_iff.mpr ⟨hm, hs, Nat.pos_of_ne_zero hne⟩
      simp [hd] at this
    exact
      { links := fun j l r hj => by simp only [h0] at hj; omega
        opens := by simp [hs]
        descending := by simp [hs]
        count := rfl
        tag := hm
        symcnt := h.tag_count hm
        tdone := hd
        tleaf_low := hlow.1
        cur_low := hlow.2
        order := by
          have : (⟨d.ncount.val, hn⟩ : NodeIdx) = 0 := Fin.ext h0
          simp only [hs, this]
          exact Spine.here }
  · cases e.symm.trans hl
    obtain ⟨hsp, hop⟩ := h.opens (p, .left) (by simp [hs])
    simp only at hop hsp
    have hr := h.rest_right hs
    rw [hnp] at hop
    obtain ⟨hlr, hp1⟩ := hop
    cases hlr
    have hdesc := h.descending
    rw [hs] at hdesc
    refine
      { links := fun j l r hj hnj => ?_
        opens := ?_
        descending := ?_
        count := rfl
        tag := hm
        symcnt := h.tag_count hm
        tdone := hd
        tleaf_low := hlow.1
        cur_low := hlow.2
        order := ?_ }
    · simp only at hj hnj
      have hnj' : (if p = j then Node.internal (some ⟨d.ncount.val, hn⟩) none else d.nodeAt j) = .internal l r := by
        rw [← hnj]; exact (Dec.nodeAt_setNode d p j _).symm
      by_cases hpj : p = j
      · subst hpj
        rw [if_pos rfl] at hnj'
        cases hnj'
        exact ⟨by simp, by simp; omega, by simp⟩
      · rw [if_neg hpj] at hnj'
        have := h.links j l r (hset j hj) hnj'
        rcases l with _ | l <;> rcases r with _ | r <;> simp only [Dec.LinksOk, hs] at this ⊢
        · simp at this ⊢
          rcases this with h1 | h1
          · exact absurd h1.symm hpj
          · exact h1
        · simp at this ⊢
          exact ⟨.inr this.1, this.2.1, by omega⟩
        · omega
    · intro f hf
      simp only [List.mem_cons] at hf
      have key : ∀ x : NodeIdx, ({ { d.setNode p (.internal (some ⟨d.ncount.val, hn⟩) none) with
          stk := (p, .right) :: rest } with ncount := ⟨d.ncount.val + 1, Nat.succ_lt_succ hn⟩ } : Dec).nodeAt x =
          if p = x then .internal (some ⟨d.ncount.val, hn⟩) none else d.nodeAt x := fun x => Dec.nodeAt_setNode d p x _
      rw [key]
      rcases hf with rfl | hf
      · exact ⟨hsp.1, rfl, _, if_pos rfl⟩
      · obtain ⟨h1, h2, l, h3⟩ := hr f hf
        refine ⟨lt_trans h1 hsp.1, h2, l, ?_⟩
        rw [if_neg (fun hpf => by simp [hpf] at h1), h3]
    · simpa only [List.pairwise_cons] using hdesc
    · have ho := (Dec.ordered_left hm hs).mp h.order
      refine ⟨_, Dec.nodeAt_setNode_self d p _, by simpa using hp1.symm, .here, ho.congr fun j hj => ?_⟩
      exact Dec.nodeAt_setNode_ne d (fun hpj => by simp [hpj] at hj) _
  · cases e.symm.trans hl
    obtain ⟨hsp, l0, hop⟩ := h.opens (p, .right) (by simp [hs])
    simp only at hop hsp
    have hr := h.rest_right hs
    rw [hnp] at hop
    cases hop
    have hdesc := h.descending
    rw [hs, List.pairwise_cons] at hdesc
    have hlk := h.links p _ _ hsp hnp
    simp only [Dec.LinksOk] at hlk
    have key : ∀ x : NodeIdx, ({ { d.setNode p (.internal (some l0) (some ⟨d.ncount.val, hn⟩)) with
        stk := rest } with ncount := ⟨d.ncount.val + 1, Nat.succ_lt_succ hn⟩ } : Dec).nodeAt x =
        if p = x then .internal (some l0) (some ⟨d.ncount.val, hn⟩) else d.nodeAt x := fun x => Dec.nodeAt_setNode d p x _
    refine
      { links := fun j l r hj hnj => ?_
        opens := fun f hf => ?_
        descending := hdesc.2
        count := rfl
        tag := hm
        symcnt := h.tag_count hm
        tdone := hd
        tleaf_low := hlow.1
        cur_low := hlow.2
        order := ?_ }
    · rw [key] at hnj
      simp only at hj
      by_cases hpj : p = j
      · subst hpj
        rw [if_pos rfl] at hnj
        cases hnj
        exact ⟨hlk.2.1, hlk.2.2, by simp⟩
      · rw [if_neg hpj] at hnj
        have := h.links j l r (hset j hj) hnj
        rcases l with _ | l <;> rcases r with _ | r <;> simp only [Dec.LinksOk, hs] at this ⊢
        · simpa using this
        · simp at this ⊢
          rcases this with ⟨h1 | h1, h2⟩
          · exact absurd h1.symm hpj
          · exact ⟨h1, h2.1, by omega⟩
        · omega
    · rw [key]
      obtain ⟨h1, h2, l, h3⟩ := hr f hf
      refine ⟨lt_trans h1 hsp.1, h2, l, ?_⟩
      rw [if_neg (fun hpf => by simp [hpf] at h1), h3]
    · obtain ⟨l, hl1, hl2, hl3, hl4⟩ := (Dec.ordered_right hm hs).mp h.order
      rw [hnp] at hl1
      cases hl1
      have hp : (d.setNode p (.internal (some l0) (some ⟨d.ncount.val, hn⟩))).nodeAt p = _ := Dec.nodeAt_setNode_self d p _
      have hne : ∀ j : NodeIdx, p ≠ j → (d.setNode p (.internal (some l0) (some ⟨d.ncount.val, hn⟩))).nodeAt j = d.nodeAt j :=
        fun j hj => Dec.nodeAt_setNode_ne d hj _
      exact (hl4.congr fun j hj => hne j fun hpj => by simp [hpj] at hj).extend hp hl2
        (hl3.congr fun j hj _ => hne j fun hpj => by simp [hpj] at hl2; omega)
  · cases e.symm.trans hl

/-- Starting a counted and linked node gives a state between two bits: the last part of rule R101. -/
theorem startNode_keeps {d : Dec} {i : NodeIdx} (h : d.Linked i) (b : Bool) : (startNode i b d).TreeInv := by
  cases b
  · have key : ∀ x : NodeIdx, (startNode i false d).nodeAt x = if i = x then .internal none none else d.nodeAt x :=
      fun x => Dec.nodeAt_setNode d i x _
    have hst : (startNode i false d).stk = (i, .left) :: d.stk := rfl
    have hnc : (startNode i false d).ncount = d.ncount := rfl
    refine
      { links := fun j l r hj hn => ?_
        opens := fun e he => ?_
        descending := ?_
        sym_leaf := fun hs => by simp [startNode, h.tag] at hs
        tag_count := fun _ => h.symcnt
        done_iff := by simp [startNode, h.tdone]
        tleaf_low := by have := h.tleaf_low; exact lt_max_of_lt_left this
        cur_low := by have := h.cur_low; exact lt_max_of_lt_left this
        order := by
          have : Awaits (d.setNode i (.internal none none)).node d.stk i :=
            h.order.congr fun j hj => Dec.nodeAt_setNode_ne d (fun hij => by simp [hij] at hj) _
          exact (Dec.ordered_left (d := startNode i false d) h.tag rfl).mpr this }
    · rw [key] at hn
      by_cases hij : i = j
      · subst hij
        rw [if_pos rfl] at hn
        cases hn
        simp [Dec.LinksOk, hst]
      · rw [if_neg hij] at hn
        have hlt : j.val < i.val := by
          have h1 := hj.1
          rw [hnc, h.count] at h1
          have h2 : i.val ≠ j.val := fun hv => hij (Fin.ext hv)
          omega
        have := h.links j l r hlt hn
        rcases l with _ | l <;> rcases r with _ | r <;> simp only [Dec.LinksOk, hst, hnc] at this ⊢
        · exact List.mem_cons_of_mem _ this
        · exact ⟨List.mem_cons_of_mem _ this.1, this.2⟩
        · exact this
    · rw [hst, List.mem_cons] at he
      have hset : ∀ x : NodeIdx, x.val < d.ncount.val → (startNode i false d).Settled x :=
        fun x hx => ⟨hx, by simp [startNode, h.tag]⟩
      rcases he with rfl | he
      · exact ⟨hset i (by rw [h.count]; omega), by simp [key], h.count.symm⟩
      · obtain ⟨h1, h2, l, h3⟩ := h.opens e he
        refine ⟨hset _ (by rw [h.count]; omega), ?_⟩
        simp only [h2]
        exact ⟨l, by rw [key, if_neg (fun hv => by simp [hv] at h1), h3]⟩
    · rw [hst, List.pairwise_cons]
      exact ⟨fun e he => (h.opens e he).1, h.descending⟩
  · refine
      { links := fun j l r hj hn => ?_
        opens := fun e he => ?_
        descending := h.descending
        sym_leaf := fun _ => h.count.symm
        tag_count := fun hs => by simp [startNode] at hs
        done_iff := by simp [startNode, h.tdone]
        tleaf_low := ?_
        cur_low := lt_max_of_lt_left h.cur_low
        order := (Dec.ordered_sym rfl).mpr h.order }
    · have hlt : j.val < i.val := by
        have h1 : j.val < d.ncount.val := hj.1
        rw [h.count] at h1
        have h2 : i.val ≠ j.val := fun hv => hj.2 ⟨rfl, (Fin.ext hv).symm⟩
        omega
      exact h.links j l r hlt hn
    · obtain ⟨h1, h2, l, h3⟩ := h.opens e he
      refine ⟨⟨?_, fun hs => ?_⟩, ?_⟩
      · show e.1.val < d.ncount.val
        rw [h.count]; omega
      · have : e.1 = i := hs.2
        simp [this] at h1
      · simp only [h2]
        exact ⟨l, h3⟩
    · show i.val < max d.ncount.val 1
      rw [h.count]; omega

/-- A tag bit keeps TD's invariant: rule R101. -/
theorem tdTag_keeps {b : Bool} {d d' : Dec} (h : d.TreeInv) (hm : d.tmode = .tag) (hd : d.tdone = false)
    (ht : tdTag b d = .ok d') : d'.TreeInv := by
  unfold tdTag at ht
  split at ht
  · next hn =>
    obtain ⟨d1, hl⟩ := linkParent_ok h ⟨d.ncount.val, hn⟩
    rw [hl] at ht
    cases ht
    exact startNode_keeps (linkParent_linked h hm hd hn hl) b
  · cases ht

/-- The eighth symbol bit finishes the leaf, and with it every subtree whose last node it was: rules R103, R104. -/
theorem tdSym_ordered {d : Dec} (h : d.TreeInv) (hm : d.tmode = .sym) {sym acc : Byte} {done : Bool} :
    ({ d.setNode d.tleaf (.leaf sym) with symacc := acc, symcnt := 0, tmode := .tag, tdone := done } : Dec).Ordered := by
  have ho : Awaits d.node d.stk d.tleaf := (Dec.ordered_sym hm).mp h.order
  have ho' : Awaits (d.setNode d.tleaf (.leaf sym)).node d.stk d.tleaf :=
    ho.congr fun j hj => Dec.nodeAt_setNode_ne d (fun e => by simp [e] at hj) _
  have hleaf : Spans (d.setNode d.tleaf (.leaf sym)).node d.tleaf d.ncount.val :=
    .leaf (Dec.nodeAt_setNode_self d _ _) (h.sym_leaf hm).symm
  have hop := h.opens
  rcases hs : d.stk with _ | ⟨⟨q, slot⟩, rest⟩
  · rw [hs] at ho'
    refine (Dec.ordered_nil ?_ ?_).mpr (.inr (Spine.close ho' hleaf)) <;> first | rfl | exact hs
  · rw [hs] at ho'
    obtain ⟨l, hn, hl, hsp, hr⟩ := ho'
    have hslot : slot = .right := by
      obtain ⟨h1, h2⟩ := hop (q, slot) (by simp [hs])
      cases slot
      · have hne : q ≠ d.tleaf := fun e => h1.2 ⟨hm, e⟩
        have hleft := h2.2
        exact absurd (Fin.ext (by have := h.sym_leaf hm; simp only at hleft; omega)) hne
      · rfl
    subst hslot
    refine (Dec.ordered_right ?_ ?_).mpr ⟨l, hn, hl, hsp.close hleaf, hr⟩ <;> first | rfl | exact hs

/-- A symbol bit keeps TD's invariant: rules R102, R103. -/
theorem tdSym_keeps {b : Bool} {d : Dec} (h : d.TreeInv) (hm : d.tmode = .sym) : (tdSym b d).TreeInv := by
  have hd : d.tdone = false := by
    by_contra hne
    have := h.done_iff.mp (by simpa using hne)
    simp [hm] at this
  have hne : ∀ x, d.Settled x → d.tleaf ≠ x := fun x hx he => hx.2 ⟨hm, he.symm⟩
  have hpos := h.sym_leaf hm
  unfold tdSym
  split
  · have key : ∀ x : NodeIdx, ({ d.setNode d.tleaf (.leaf (shiftIn d.symacc b)) with
        symacc := shiftIn d.symacc b, symcnt := 0, tmode := .tag, tdone := d.tdone || d.stk.isEmpty } : Dec).nodeAt x =
        if d.tleaf = x then .leaf (shiftIn d.symacc b) else d.nodeAt x := fun x => Dec.nodeAt_setNode d d.tleaf x _
    refine
      { links := fun j l r hj hn => ?_
        opens := fun e he => ?_
        descending := h.descending
        sym_leaf := fun hs => by cases hs
        tag_count := fun _ => rfl
        done_iff := ?_
        tleaf_low := h.tleaf_low
        cur_low := h.cur_low
        order := ?_ }
    · rw [key] at hn
      by_cases hij : d.tleaf = j
      · rw [if_pos hij] at hn
        cases hn
      · rw [if_neg hij] at hn
        exact h.links j l r ⟨hj.1, fun hs => hij hs.2.symm⟩ hn
    · obtain ⟨h1, h2⟩ := h.opens e he
      refine ⟨⟨h1.1, by simp⟩, ?_⟩
      simp only [key, if_neg (hne _ h1)]
      exact h2
    · simp [hd]
      intro _
      show 0 < d.ncount.val
      omega
    · exact tdSym_ordered h hm
  · exact
      { links := fun j l r hj hn => h.links j l r hj hn
        opens := fun e he => h.opens e he
        descending := h.descending
        sym_leaf := h.sym_leaf
        tag_count := fun hs => by simp [hm] at hs
        done_iff := h.done_iff
        tleaf_low := h.tleaf_low
        cur_low := h.cur_low
        order := (Dec.ordered_sym hm).mpr ((Dec.ordered_sym hm).mp h.order) }

/-- Any bit keeps TD's invariant and never stops: rule R100. -/
theorem tdBit_cases {b : Bool} {d : Dec} (h : d.TreeInv) (hd : d.tdone = false) :
    (∃ d', tdBit b d = .ok d' ∧ d'.TreeInv) ∨
    (tdBit b d = raiseDec .unsupportedInput ∧ d.tmode = .tag ∧ d.ncount.val = Config.nodeCap) := by
  unfold tdBit
  cases hm : d.tmode
  · simp only
    by_cases hn : d.ncount.val < Config.nodeCap
    · obtain ⟨d1, hl⟩ := linkParent_ok h ⟨d.ncount.val, hn⟩
      have ht : tdTag b d = .ok (startNode ⟨d.ncount.val, hn⟩ b { d1 with ncount := ⟨d.ncount.val + 1, Nat.succ_lt_succ hn⟩ }) := by
        simp only [tdTag, hn, dif_pos, hl]
      exact .inl ⟨_, ht, tdTag_keeps h hm hd ht⟩
    · refine .inr ⟨by simp only [tdTag, hn, dif_neg, not_false_iff], trivial, ?_⟩
      have := d.ncount.isLt
      omega
  · exact .inl ⟨_, rfl, tdSym_keeps h hm⟩

/-- The fields no `TdBit` writes: rule R100. -/
structure Dec.SameOutside (d d' : Dec) : Prop where
  phase : d'.phase = d.phase
  dfault : d'.dfault = d.dfault
  padreg : d'.padreg = d.padreg
  cur : d'.cur = d.cur
  obuf : d'.obuf = d.obuf

/-- TD reads and writes only its own state: rule R100. -/
theorem tdBit_frame {b : Bool} {d d' : Dec} (h : tdBit b d = .ok d') : d.SameOutside d' := by
  unfold tdBit at h
  cases hm : d.tmode <;> rw [hm] at h
  · simp only [tdTag] at h
    split at h
    · next hn =>
      rcases linkParent_cases ⟨d.ncount.val, hn⟩ d with
        ⟨-, e⟩ | ⟨p, rest, l, r, -, -, e⟩ | ⟨p, rest, l, r, -, -, e⟩ | ⟨_, _, -, -, e⟩ <;>
        rw [e] at h <;> cases h <;> cases b <;> exact ⟨rfl, rfl, rfl, rfl, rfl⟩
    · cases h
  · cases h
    unfold tdSym
    split <;> exact ⟨rfl, rfl, rfl, rfl, rfl⟩

/-- The loop of rule R105 keeps TD's invariant, touches nothing else and never stops. -/
theorem tdBits_cases (bits : Bits) {d : Dec} (h : d.TreeInv) :
    (∃ d', tdBits bits d = .ok d' ∧ d'.TreeInv ∧ d.SameOutside d') ∨ tdBits bits d = raiseDec .unsupportedInput := by
  induction bits generalizing d with
  | nil => exact .inl ⟨d, rfl, h, rfl, rfl, rfl, rfl, rfl⟩
  | cons b rest ih =>
    unfold tdBits
    cases hd : d.tdone
    · rcases tdBit_cases (b := b) h hd with ⟨d1, e, h1⟩ | ⟨e, -, -⟩
      · have f1 := tdBit_frame e
        rcases ih h1 with ⟨d2, e2, h2, f2⟩ | e2
        · refine .inl ⟨d2, by simp [e, e2], h2, ?_⟩
          exact ⟨f2.phase.trans f1.phase, f2.dfault.trans f1.dfault, f2.padreg.trans f1.padreg, f2.cur.trans f1.cur,
            f2.obuf.trans f1.obuf⟩
        · exact .inr (by simp [e, e2])
      · exact .inr (by simp [e, raiseDec])
    · exact .inl ⟨d, rfl, h, rfl, rfl, rfl, rfl, rfl⟩

/-! ## UD keeps the tree walk's precondition -/

/-- What the tree walk needs and keeps: rules R135, R136. -/
structure Dec.WalkInv (outCap : Nat) (d : Dec) : Prop where
  tree : d.TreeInv
  done : d.tdone = true
  root : (d.nodeAt 0).isLeaf = false
  here : (d.nodeAt d.cur).isLeaf = false
  obuf : d.obuf.length ≤ outCap

/-- In a complete tree every allocated Internal node has both children, and they are allocated: rule R104. -/
theorem Dec.TreeInv.children {d : Dec} (h : d.TreeInv) (hd : d.tdone = true) {i : NodeIdx} (hi : i.val < d.ncount.val)
    (hl : (d.nodeAt i).isLeaf = false) : ∃ l r, d.nodeAt i = .internal (some l) (some r) ∧ l.val < d.ncount.val ∧
      r.val < d.ncount.val := by
  obtain ⟨hm, hs, -⟩ := h.done_iff.mp hd
  rcases hn : d.nodeAt i with sym | ⟨l, r⟩
  · simp [hn, Node.isLeaf] at hl
  · have := h.links i l r ⟨hi, by simp [hm]⟩ hn
    rcases l with _ | l <;> rcases r with _ | r <;> simp [Dec.LinksOk, hs] at this
    exact ⟨l, r, rfl, by omega, this.2.2⟩

/-- One step of the tree walk keeps its precondition and never stops: rule R136. -/
theorem udBit_keeps {outCap : Nat} (b : Bool) {d : Dec} (h : d.WalkInv outCap) :
    (∃ d', udBit outCap b d = .ok d' ∧ d'.WalkInv outCap ∧ d' = { d with cur := d'.cur, obuf := d'.obuf }) ∨
    (udBit outCap b d = raiseDec .unsupportedInput ∧ d.obuf.length = outCap) := by
  obtain ⟨hm, hs, hpos⟩ := h.tree.done_iff.mp h.done
  have hcur : d.cur.val < d.ncount.val := by
    have := h.tree.cur_low
    omega
  obtain ⟨l, r, hn, hl, hr⟩ := h.tree.children h.done hcur h.here
  have hc : ∀ nxt, (d.nodeAt d.cur).child b = some nxt → nxt.val < d.ncount.val := by
    intro nxt hnxt
    rw [hn] at hnxt
    cases b <;> cases hnxt <;> assumption
  rcases udBit_cases outCap b d with ⟨h1, -⟩ | ⟨_, _, -, -, ho, e⟩ | ⟨nxt, sym, h1, h2, ho, e⟩ | ⟨nxt, h1, h2, e⟩
  · rw [hn] at h1
    cases b <;> cases h1
  · exact .inr ⟨e, ho⟩
  · refine .inl ⟨_, e, ⟨?_, h.done, h.root, h.root, ?_⟩, rfl⟩
    · exact { h.tree with cur_low := lt_max_of_lt_left hpos }
    · have := h.obuf
      simp only [List.length_append, List.length_singleton]
      omega
  · refine .inl ⟨_, e, ⟨?_, h.done, h.root, h2, h.obuf⟩, rfl⟩
    exact { h.tree with cur_low := lt_max_of_lt_left (hc nxt h1) }

/-- The loop of rule R137 keeps the precondition and never stops. -/
theorem udBits_keeps {outCap : Nat} (bits : Bits) {d : Dec} (h : d.WalkInv outCap) :
    (∃ d', udBits outCap bits d = .ok d' ∧ d'.WalkInv outCap ∧ d' = { d with cur := d'.cur, obuf := d'.obuf }) ∨
    udBits outCap bits d = raiseDec .unsupportedInput := by
  induction bits generalizing d with
  | nil => exact .inl ⟨d, rfl, h, rfl⟩
  | cons b rest ih =>
    unfold udBits
    rcases udBit_keeps b h with ⟨d1, e, h1, f1⟩ | ⟨e, -⟩
    · rcases ih h1 with ⟨d2, e2, h2, f2⟩ | e2
      · exact .inl ⟨d2, by simp [e, e2], h2, by rw [f2, f1]⟩
      · exact .inr (by simp [e, e2])
    · exact .inr (by simp [e, raiseDec])

/-! ## Whole bytes -/

/-- What a `DEC.BYTE` that DEC accepts does, said once: it keeps rule R48, or faults with a code, and never stops. -/
def KeepsOrFaults (outCap : Nat) (r : Except DecStop Dec) : Prop :=
  (∃ d', r = .ok d' ∧ d'.Inv outCap) ∨ (∃ c, r = raiseDec c ∧ c ≠ .noFault)

/-- In a phase other than PAYLOAD and DONE there is no output: rule R48, item 7. -/
theorem Dec.Inv.obuf_nil {outCap : Nat} {d : Dec} (h : d.Inv outCap) (h1 : d.phase ≠ .payload) (h2 : d.phase ≠ .done) :
    d.obuf = [] := by
  by_contra hne
  rcases h.obuf_phase hne with hp | ⟨hp, -⟩
  · exact h1 hp
  · exact h2 hp

/-- Outside phase FAULT there is no fault code: rule R48, item 3. -/
theorem Dec.Inv.dfault_none {outCap : Nat} {d : Dec} (h : d.Inv outCap) (h1 : d.phase ≠ .fault) : d.dfault = .noFault := by
  by_contra hne
  exact h1 (h.fault_iff.mp hne)

/-- In phase HDR nothing is allocated: rule R48, item 6. -/
theorem Dec.Inv.hdr_fresh {outCap : Nat} {d : Dec} (h : d.Inv outCap) (hp : d.phase = .hdr) :
    d.ncount.val = 0 ∧ d.tdone = false ∧ d.cur = 0 := by
  have h0 : d.ncount.val = 0 := by simp [h.hdr_empty hp]
  refine ⟨h0, ?_, ?_⟩
  · by_contra hne
    have := (h.done_iff.mp (by simpa using hne)).2.2
    omega
  · have := h.cur_low
    exact Fin.ext (by show d.cur.val = 0; omega)

/-- The header byte: rule R133. -/
theorem hdrByte_keeps {outCap : Nat} (byte : Byte) (last : Bool) {d : Dec} (h : d.Inv outCap) (hp : d.phase = .hdr) :
    KeepsOrFaults outCap (hdrByte byte last d) := by
  obtain ⟨h0, hd, hc⟩ := h.hdr_fresh hp
  have ho : d.obuf = [] := h.obuf_nil (by simp [hp]) (by simp [hp])
  have hf : d.dfault = .noFault := h.dfault_none (by simp [hp])
  have hT := h.toTreeInv
  rcases hdrByte_cases byte last d with ⟨-, e⟩ | ⟨-, -, e⟩ | ⟨-, -, e⟩ | ⟨-, -, -, e⟩
  · exact .inr ⟨_, e, by simp⟩
  · exact .inl ⟨_, e,
      { hT with
        fault_iff := by simp [hf]
        hdr_empty := by simp
        tree_open := fun _ => ⟨hd, hc⟩
        walk_ready := by simp
        obuf_fits := h.obuf_fits
        obuf_phase := by simp [ho] }⟩
  · exact .inl ⟨_, e,
      { hT with
        fault_iff := by simp [hf]
        hdr_empty := by simp
        tree_open := by simp
        walk_ready := by simp [h0]
        obuf_fits := h.obuf_fits
        obuf_phase := by simp [ho] }⟩
  · exact .inr ⟨_, e, by simp⟩

/-- A byte of the tree section: rules R105 to R107. -/
theorem treeByte_keeps {outCap : Nat} (byte : Byte) (last : Bool) {d : Dec} (h : d.Inv outCap) (hp : d.phase = .tree) :
    KeepsOrFaults outCap (treeByte byte last d) := by
  obtain ⟨-, hc⟩ := h.tree_open hp
  have ho : d.obuf = [] := h.obuf_nil (by simp [hp]) (by simp [hp])
  have hf : d.dfault = .noFault := h.dfault_none (by simp [hp])
  unfold treeByte
  rcases tdBits_cases (bitsMSB 8 byte) h.toTreeInv with ⟨d1, e, hT, f⟩ | e
  · rw [e]
    have ho1 : d1.obuf = [] := f.obuf.trans ho
    have hf1 : d1.dfault = .noFault := f.dfault.trans hf
    have hp1 : d1.phase = .tree := f.phase.trans hp
    have hc1 : d1.cur = 0 := f.cur.trans hc
    cases hd : d1.tdone
    · simp only [hd, Bool.false_eq_true, if_false]
      cases last
      · exact .inl ⟨d1, rfl,
          { hT with
            fault_iff := by simp [hf1, hp1]
            hdr_empty := by simp [hp1]
            tree_open := fun _ => ⟨hd, hc1⟩
            walk_ready := by simp [hp1]
            obuf_fits := by simp [ho1]
            obuf_phase := by simp [ho1] }⟩
      · exact .inr ⟨_, rfl, by simp⟩
    · simp only [hd, if_true]
      obtain ⟨-, -, hpos⟩ := hT.done_iff.mp hd
      have hlow : (0 : NodeIdx).val < max d1.ncount.val 1 := lt_max_of_lt_left hpos
      rcases treeEnd_cases last d1 with ⟨-, e⟩ | ⟨hl, -, e⟩ | ⟨hl, -, -, e⟩ | ⟨-, -, -, e⟩
      · exact .inr ⟨_, e, by simp⟩
      · exact .inl ⟨_, e,
          { hT with
            cur_low := hlow
            fault_iff := by simp [hf1]
            hdr_empty := by simp
            tree_open := by simp
            walk_ready := fun _ => ⟨hd, hl, hl⟩
            obuf_fits := by simp [ho1]
            obuf_phase := by simp [ho1] }⟩
      · exact .inl ⟨_, e,
          { hT with
            cur_low := hlow
            fault_iff := by simp [hf1]
            hdr_empty := by simp
            tree_open := by simp
            walk_ready := fun _ => ⟨hd, hl, hl⟩
            obuf_fits := by simp [ho1]
            obuf_phase := by simp [ho1] }⟩
      · exact .inr ⟨_, e, by simp⟩
  · rw [e]
    exact .inr ⟨_, rfl, by simp⟩

/-- A payload byte: rules R137, R138. -/
theorem payloadByte_keeps {outCap : Nat} (byte : Byte) (last : Bool) {d : Dec} (h : d.Inv outCap) (hp : d.phase = .payload) :
    KeepsOrFaults outCap (payloadByte outCap byte last d) := by
  obtain ⟨hd, hr, hcur⟩ := h.walk_ready (.inl hp)
  have hf : d.dfault = .noFault := h.dfault_none (by simp [hp])
  unfold payloadByte
  rcases udBits_keeps ((bitsMSB 8 byte).take (logicalBits last d.padreg))
      ⟨h.toTreeInv, hd, hr, hcur, h.obuf_fits⟩ with ⟨d1, e, hW, f⟩ | e
  · rw [e]
    have hp1 : d1.phase = .payload := by rw [f]; exact hp
    have hf1 : d1.dfault = .noFault := by rw [f]; exact hf
    obtain ⟨-, -, hpos⟩ := hW.tree.done_iff.mp hW.done
    cases last
    · exact .inl ⟨d1, rfl,
        { hW.tree with
          fault_iff := by simp [hf1, hp1]
          hdr_empty := by simp [hp1]
          tree_open := by simp [hp1]
          walk_ready := fun _ => ⟨hW.done, hW.root, hW.here⟩
          obuf_fits := hW.obuf
          obuf_phase := fun _ => .inl hp1 }⟩
    · simp only [if_true, payloadEnd]
      by_cases hc : d1.cur = 0
      · rw [if_pos hc]
        exact .inl ⟨_, rfl,
          { hW.tree with
            fault_iff := by simp [hf1]
            hdr_empty := by simp
            tree_open := by simp
            walk_ready := fun _ => ⟨hW.done, hW.root, hW.here⟩
            obuf_fits := hW.obuf
            obuf_phase := fun _ => .inr ⟨rfl, hpos⟩ }⟩
      · rw [if_neg hc]
        exact .inr ⟨_, rfl, by simp⟩
  · rw [e]
    exact .inr ⟨_, rfl, by simp⟩

/-- DEC fault entry keeps rule R48: rule R173. -/
theorem decFaultEntry_keeps {outCap : Nat} {c : FaultCode} {d : Dec} (h : d.Inv outCap) (hc : c ≠ .noFault) :
    (decFaultEntry c d).Inv outCap :=
  { h.toTreeInv with
    fault_iff := by simp [hc]
    hdr_empty := by simp
    tree_open := by simp
    walk_ready := by simp
    obuf_fits := by simp
    obuf_phase := by simp }

/-- A fresh session meets rule R48, whatever the arena holds: rules R131, R187. -/
theorem decRestart_inv (outCap : Nat) (d : Dec) : (decRestart d).Inv outCap :=
  { links := fun i _ _ hi => by have := hi.1; simp at this
    opens := by simp
    descending := by simp
    sym_leaf := by simp
    tag_count := by simp
    done_iff := by simp
    tleaf_low := by simp
    cur_low := by simp
    order := .inl rfl
    fault_iff := by simp
    hdr_empty := by simp
    tree_open := by simp
    walk_ready := by simp
    obuf_fits := by simp
    obuf_phase := by simp }

/-! ## `DEC.BYTE` as a whole -/

/-- A byte that DEC accepts keeps the invariant, executed or faulted: rules R132, R173. -/
theorem decCommand_keeps {f : Dec → Except DecStop Dec} {s : State} (h : s.Inv) (hf : KeepsOrFaults s.params.outCap (f s.dec)) :
    ∃ t, decCommand f s = .next t ∧ t.Inv ∧ t.params = s.params := by
  rcases hf with ⟨d, e, hd⟩ | ⟨c, e, hc⟩
  · exact ⟨{ s with dec := d }, by simp [decCommand, e], ⟨h.params, h.pk, hd⟩, rfl⟩
  · exact ⟨{ s with dec := decFaultEntry c s.dec }, by simp [decCommand, e, raiseDec],
      ⟨h.params, h.pk, decFaultEntry_keeps h.dec hc⟩, rfl⟩

/-- From a state of a run `DEC.BYTE` always answers a next state, and that state meets the invariant: rules R132 to R138. -/
theorem execDecByte_keeps (byte : Byte) (last : Bool) {s : State} (h : s.Inv) :
    ∃ t, execDecByte byte last s = .next t ∧ t.Inv ∧ t.params = s.params := by
  unfold execDecByte
  cases hp : s.dec.phase <;> simp only
  · exact decCommand_keeps h (hdrByte_keeps byte last h.dec hp)
  · exact decCommand_keeps h (treeByte_keeps byte last h.dec hp)
  · exact decCommand_keeps h (payloadByte_keeps byte last h.dec hp)
  · exact ⟨_, rfl, ⟨h.params, h.pk, h.dec⟩, rfl⟩
  · exact ⟨_, rfl, h, rfl⟩

end Sys2Proof.Machine
end

