-- ==== Sys2Proof/Laws/Packer.lean ====
section
/-! SUPPORT. What the packer's operations can do. -/

namespace Sys2Proof.Machine

/-- `Append`, rule R111: appended completely, or refused for lack of FIFO space. -/
theorem append_cases (cap : Nat) (bits : Bits) (p : Pk) :
    (cap < p.fifo.length + (p.acc.length + bits.length) / 8 ∧ append cap bits p = .error .unsupportedInput) ∨
    (p.fifo.length + (p.acc.length + bits.length) / 8 ≤ cap ∧ ∃ q,
      append cap bits p = .ok q ∧
      q = { p with fifo := q.fifo, acc := q.acc } ∧
      q.fifo.length = p.fifo.length + (p.acc.length + bits.length) / 8 ∧
      q.acc.length = (p.acc.length + bits.length) % 8 ∧
      bitsOf q.fifo ++ q.acc = bitsOf p.fifo ++ p.acc ++ bits) := by
  unfold append
  by_cases h : p.fifo.length + (p.acc.length + bits.length) / 8 > cap
  · rw [if_pos h]
    exact .inl ⟨h, rfl⟩
  · rw [if_neg h]
    refine .inr ⟨Nat.le_of_not_lt h, _, rfl, rfl, ?_, ?_, ?_⟩
    · simp; omega
    · simp; omega
    · simp only
      rw [bitsOf_append, bitsOf_bytesOf _ (by simp; omega)]
      simp only [List.append_assoc, List.take_append_drop]

/-- `PK.CTAPP`, rule R114: extended, or refused beyond 255 bits. -/
theorem extendCode_cases (n : Nat) (data : BitVec 16) (p : Pk) :
    (Config.maxCodeLen < (p.codeOf p.ctsym).length + n ∧ extendCode n data p = .error .unsupportedInput) ∨
    ((p.codeOf p.ctsym).length + n ≤ Config.maxCodeLen ∧
      extendCode n data p = .ok (p.setCode p.ctsym (p.codeOf p.ctsym ++ bitsMSB n data))) := by
  unfold extendCode
  by_cases h : (p.codeOf p.ctsym).length + n > Config.maxCodeLen
  · exact .inl ⟨h, if_pos h⟩
  · exact .inr ⟨Nat.le_of_not_lt h, if_neg h⟩

/-- `PK.FLUSH`, rule R117: nothing pending, no space, or one padded byte. -/
theorem flush_cases (cap : Nat) (p : Pk) :
    (p.acc = [] ∧ flush cap p = .ok { p with pad := 0 }) ∨
    (p.acc ≠ [] ∧ cap < p.fifo.length + 1 ∧ flush cap p = .error .unsupportedInput) ∨
    (p.acc ≠ [] ∧ p.fifo.length + 1 ≤ cap ∧
      flush cap p = .ok { p with
        fifo := p.fifo ++ [byteOf (p.acc ++ zeros (8 - p.acc.length))], acc := [],
        pad := Fin.ofNat 8 (8 - p.acc.length) }) := by
  unfold flush
  by_cases h0 : p.acc.length = 0
  · exact .inl ⟨List.length_eq_zero_iff.mp h0, if_pos h0⟩
  · have hne : p.acc ≠ [] := fun h => h0 (by simp [h])
    rw [if_neg h0]
    by_cases h : p.fifo.length + 1 > cap
    · exact .inr (.inl ⟨hne, h, if_pos h⟩)
    · exact .inr (.inr ⟨hne, Nat.le_of_not_lt h, if_neg h⟩)

/-- `PK.ENC`, rule R116: no code, or `Append` of the code. -/
theorem encodeSymbol_cases (cap : Nat) (sym : Byte) (p : Pk) :
    (p.codeOf sym = [] ∧ encodeSymbol cap sym p = .error .unsupportedInput) ∨
    (p.codeOf sym ≠ [] ∧ encodeSymbol cap sym p = append cap (p.codeOf sym) p) := by
  unfold encodeSymbol
  by_cases h : p.codeOf sym = []
  · exact .inl ⟨h, by simp [h]⟩
  · exact .inr ⟨h, by simp [h]⟩

/-! ## Rule R48, items 1 and 2, command by command -/

theorem Pk.Inv.faultEntry {cap : Nat} {p : Pk} (h : p.Inv cap) : (pkFaultEntry .unsupportedInput p).Inv cap :=
  ⟨by simp, by simp, h.codes_short, .inr rfl, by simp⟩

theorem Pk.Inv.restart {cap : Nat} {p : Pk} (h : p.Inv cap) : (pkRestart p).Inv cap :=
  ⟨by simp, by simp, h.codes_short, .inl rfl, by simp⟩

theorem Pk.Inv.setCode {cap : Nat} {p : Pk} (h : p.Inv cap) (sym : Byte) (b : Bits) (hb : b.length ≤ Config.maxCodeLen) :
    (p.setCode sym b).Inv cap := by
  refine ⟨h.acc_short, h.fifo_fits, fun t => ?_, h.fault_code, h.fault_empty⟩
  rw [codeOf_setCode]
  split
  · exact hb
  · exact h.codes_short t

theorem Pk.Inv.append {cap : Nat} {p q : Pk} (h : p.Inv cap) (hf : p.fault = .noFault) {bits : Bits}
    (hq : append cap bits p = .ok q) : q.Inv cap := by
  rcases append_cases cap bits p with ⟨-, he⟩ | ⟨hc, r, hr, heq, hfifo, hacc, -⟩
  · cases he.symm.trans hq
  · cases hr.symm.trans hq
    refine ⟨by omega, by omega, ?_, ?_, ?_⟩
    · rw [heq]; exact h.codes_short
    · rw [heq]; exact h.fault_code
    · rw [heq]; exact fun hne => absurd hf hne

theorem append_error {cap : Nat} {bits : Bits} {p : Pk} {c : FaultCode} (h : append cap bits p = .error c) :
    c = .unsupportedInput := by
  rcases append_cases cap bits p with ⟨-, he⟩ | ⟨-, q, hq, -⟩
  · cases he.symm.trans h; rfl
  · cases hq.symm.trans h

/-- A `PK.*` command keeps the invariant if what it does to PK does: rules R110, R172. -/
theorem pkCommand_keeps {f : Pk → Except FaultCode Pk} {s : State} (h : s.Inv)
    (hf : ∀ p, f s.pk = .ok p → s.pk.fault = .noFault → p.Inv s.params.pkFifoCap)
    (he : ∀ c, f s.pk = .error c → c = .unsupportedInput) :
    ∃ t, pkCommand f s = .next t ∧ t.Inv ∧ t.params = s.params := by
  rcases pkCommand_cases f s with ⟨-, e⟩ | ⟨h0, p, hp, e⟩ | ⟨h0, c, hc, e⟩
  · exact ⟨s, e, h, rfl⟩
  · exact ⟨_, e, ⟨h.params, hf p hp h0, h.dec⟩, rfl⟩
  · cases he c hc
    exact ⟨_, e, ⟨h.params, h.pk.faultEntry, h.dec⟩, rfl⟩

end Sys2Proof.Machine
end

