-- ==== Sys2Proof/Tests/Slice0.lean ====
section
/-! SUPPORT. Tests: ill-formed terms, words written out from the spec, one step per instruction with the expected values of
spec/95, and for each obligation with hypotheses a state and operands that meet them. -/

namespace Sys2Proof.Tests

-- One theorem after the other: many at once ask for more thread stacks than the checker's memory limit leaves.
set_option Elab.async false

open Sys2Proof Sys2Proof.Machine

/-! ## States to test on -/

/-- The least FIFO that rule R7 allows, and room for 8 symbols. -/
abbrev small : Params := { pkFifoCap := 33, outCap := 8, base := 0 }

/-- The reset state with small capacities. -/
abbrev blank : State := State.resetWith small

/-- The state an outcome holds, or the fallback where it stops. -/
def after (o : Host.Outcome State Fault Refusal) (s : State) : State :=
  match o with
  | .next t => t
  | .fault _ => s
  | .refused _ => s

/-- The state after one instruction. -/
def ran (i : Instr) (s : State) : State := after (exec i s) s

/-- A PK state inside a section. -/
def packing (acc : Bits) (fifo : List Byte) : State := { blank with pk := { Pk.reset with acc := acc, fifo := fifo } }

/-- A faulted PK. -/
def faulted : State := { blank with pk := pkFaultEntry .unsupportedInput Pk.reset }

/-- One code loaded and selected. -/
def loaded (sym : Byte) (bits : Bits) (s : State) : State :=
  { s with pk := { s.pk.setCode sym bits with ctsym := sym } }

/-- A frame begun: `DEC.BYTE` of each byte, none of them the last. -/
def fed (bytes : List Byte) : State := bytes.foldl (fun s b => ran (.decByte b false) s) blank

/-- Tree T1 of spec/95, header 06, after its first tree byte: phase TREE inside the first leaf's symbol. -/
abbrev inTree : State := fed [0x06, 0x58]

/-- Tree T1 complete: phase PAYLOAD. -/
abbrev inPayload : State := fed [0x06, 0x58, 0x6C, 0x40]

/-- The frame `06 58 6C 40 40` at its end: phase DONE, output `ab` (V-D22). -/
abbrev finished : State := ran (.decByte 0x40 true) inPayload

/-- The frame `08` at its end: phase FAULT (V-D16). -/
abbrev broken : State := fed [0x08]

/-- The word a read returns last. -/
def lastReply (s : State) : Option Word := s.replies.getLast?

/-! ## WellFormed refuses each kind of ill-formed term: rule R83 -/

theorem test_wellFormed_refuses_count_zero : (Instr.pkPush 0 0).wellFormed = false := by decide
theorem test_wellFormed_refuses_count_17 : (Instr.pkCtapp 17 0).wellFormed = false := by decide
theorem test_wellFormed_refuses_stray_data : (Instr.pkPush 9 0x361).wellFormed = false := by decide
theorem test_wellFormed_takes_the_bounds :
    (Instr.pkPush 1 1).wellFormed = true ∧ (Instr.pkCtapp 16 0xFFFF).wellFormed = true := by decide

/-! ## Decoding: V-D1, V-D2 and rule R89 -/

theorem test_decode_pk :
    decodeCmd 0b0001_0000000000000000000000000000#32 = .ok .pkClr ∧
    decodeCmd 0b0010_0000000000000000000000000000#32 = .ok .pkCtclr ∧
    decodeCmd 0b0011_00000000000000000000_01100001#32 = .ok (.pkCtsel 0x61) ∧
    decodeCmd 0b0100_0000000_00010_0000000000000011#32 = .ok (.pkCtapp 2 0b11) ∧
    decodeCmd 0b0101_0000000_01001_0000000101100001#32 = .ok (.pkPush 9 0x161) ∧
    decodeCmd 0b0110_00000000000000000000_01100001#32 = .ok (.pkEnc 0x61) ∧
    decodeCmd 0b0111_0000000000000000000000000000#32 = .ok .pkFlush := by decide

theorem test_decode_dec :
    decodeCmd 0b1000_0000000000000000000000000000#32 = .ok .decClr ∧
    decodeCmd 0b1001_0000000000000000000_1_01000000#32 = .ok (.decByte 0x40 true) ∧
    decodeCmd 0b1001_0000000000000000000_0_00000110#32 = .ok (.decByte 0x06 false) := by decide

theorem test_decode_bounds :
    decodeCmd 0x50010000 = .ok (.pkPush 1 0) ∧ decodeCmd 0x5010FFFF = .ok (.pkPush 16 0xFFFF) ∧
    decodeCmd 0x400F7FFF = .ok (.pkCtapp 15 0x7FFF) ∧ decodeCmd 0x600000FF = .ok (.pkEnc 0xFF) ∧
    decodeCmd 0x900001FF = .ok (.decByte 0xFF true) := by decide

theorem test_decode_reads :
    decode ⟨false, 0b000, 0⟩ = .rdCmd ∧ decode ⟨false, 0b001, 0⟩ = .rdErr ∧ decode ⟨false, 0b010, 0⟩ = .rdPkStat ∧
    decode ⟨false, 0b011, 0⟩ = .rdPkData ∧ decode ⟨false, 0b100, 0⟩ = .rdDecStat ∧ decode ⟨false, 0b101, 0⟩ = .rdDecData ∧
    decode ⟨false, 0b110, 0⟩ = .rdDecLen ∧ decode ⟨false, 0b111, 0⟩ = .rdRsvd7 := by decide

theorem test_decode_writes :
    decode ⟨true, 0b000, 0xA0000000⟩ = .wrCmd 0xA0000000 ∧ decode ⟨true, 0b001, 3⟩ = .wrErr 3 ∧
    decode ⟨true, 0b010, 3⟩ = .wrPkStat 3 ∧ decode ⟨true, 0b011, 3⟩ = .wrPkData 3 ∧ decode ⟨true, 0b100, 3⟩ = .wrDecStat 3 ∧
    decode ⟨true, 0b101, 3⟩ = .wrDecData 3 ∧ decode ⟨true, 0b110, 3⟩ = .wrDecLen 3 ∧ decode ⟨true, 0b111, 3⟩ = .wrRsvd7 3 ∧
    decode ⟨true, 0b000, 0x60000061⟩ = .pkEnc 0x61 := by decide

theorem test_illegal_words :
    decodeCmd 0x00000000 = .error .reservedOpcode ∧ decodeCmd 0xFFFFFFFF = .error .reservedOpcode ∧
    decodeCmd 0xA0000000 = .error .reservedOpcode ∧ decodeCmd 0x10000001 = .error .mustBeZero ∧
    decodeCmd 0x18000000 = .error .mustBeZero ∧ decodeCmd 0x30000100 = .error .mustBeZero ∧
    decodeCmd 0x6000FF00 = .error .mustBeZero ∧ decodeCmd 0x50000000 = .error .badCount ∧
    decodeCmd 0x50110000 = .error .badCount ∧ decodeCmd 0x50200001 = .error .mustBeZero ∧
    decodeCmd 0x40200000 = .error .mustBeZero ∧ decodeCmd 0x50010002 = .error .strayData ∧
    decodeCmd 0x50090361 = .error .strayData ∧ decodeCmd 0x90000200 = .error .mustBeZero := by decide

theorem test_encode_words :
    encodeWord (.pkCtapp 16 0xFFFF) = 0x4010FFFF ∧ encodeWord (.pkPush 13 0x563) = 0x500D0563 ∧
    encodeWord (.decByte 0xFF true) = 0x900001FF ∧ encodeWord (.pkCtsel 0x61) = 0x30000061 ∧
    encode .rdDecLen = ⟨false, 6, 0⟩ ∧ encode (.wrErr 3) = ⟨true, 1, 3⟩ := by decide

theorem test_table_words :
    decodeTableWord 32 0x50090161 = some (.pkPush 9 0x161) ∧ decodeTableWord 32 0x50000000 = none ∧
    decodeTableWord 8 0b0101 = some .rdDecData ∧ decodeTableWord 8 0b10101 = none ∧
    decodeTableWord 40 0x31001 = some .rdErr ∧ decodeTableWord 40 0x00000309 = some (.wrErr 3) := by decide

/-! ## One step of each instruction -/

/-- V-D4, P3: `PK.CLR` ends the fault and keeps the table. -/
theorem test_pkClr :
    pkStatWord (ran .pkClr (loaded 0x41 [true] faulted)).pk = 0 ∧
    (ran .pkClr (loaded 0x41 [true] faulted)).pk.codeOf 0x41 = [true] := by decide

/-- Rule R112. -/
theorem test_pkCtclr :
    (ran .pkCtclr (loaded 0x41 [true] blank)).pk.codeOf 0x41 = [] ∧
    (ran .pkCtclr (loaded 0x41 [true] blank)).pk.ctsym = 0 := by decide

/-- Rule R113. -/
theorem test_pkCtsel :
    (ran (.pkCtsel 0x42) (loaded 0x41 [true] blank)).pk.codeOf 0x41 = [true] ∧
    (ran (.pkCtsel 0x42) (loaded 0x41 [true] blank)).pk.ctsym = 0x42 ∧
    (ran (.pkCtsel 0x41) (loaded 0x41 [true] blank)).pk.codeOf 0x41 = [] := by decide

/-- V-D4: 240 ones and 15 more are 255 ones. -/
theorem test_pkCtapp_to_255 :
    (ran (.pkCtapp 15 0x7FFF) (loaded 0 (List.replicate 240 true) blank)).pk.codeOf 0 = List.replicate 255 true := by decide +kernel

/-- V-D4: the 256th bit faults and the code stays. -/
theorem test_pkCtapp_256 :
    pkStatWord (ran (.pkCtapp 1 0) (loaded 0 (List.replicate 255 true) blank)).pk = 0x30 ∧
    (ran (.pkCtapp 1 0) (loaded 0 (List.replicate 255 true) blank)).pk.codeOf 0 = List.replicate 255 true := by decide +kernel

/-- V-D3, second row. -/
theorem test_pkPush :
    (ran (.pkPush 9 0x161) (packing [false] [])).pk.fifo = [0x58] ∧
    (ran (.pkPush 9 0x161) (packing [false] [])).pk.acc = [false, true] ∧
    pkStatWord (ran (.pkPush 9 0x161) (packing [false] [])).pk = 0x00010200 := by decide

/-- V-D8 (a): the 34th byte faults a FIFO of 33. -/
theorem test_pkPush_overflow :
    pkStatWord (ran (.pkPush 1 1) (packing (zeros 7) (List.replicate 32 0xA5))).pk = 0x00210000 ∧
    pkStatWord (ran (.pkPush 8 0) (packing [] (List.replicate 33 0xA5))).pk = 0x30 := by decide

/-- V-D5: a code of 255 ones after seven ones. -/
theorem test_pkEnc_long :
    pkStatWord (ran (.pkEnc 0) (loaded 0 (List.replicate 255 true) (packing (List.replicate 7 true) []))).pk = 0x00200600 := by
  decide +kernel

/-- V-D7: no code loaded. -/
theorem test_pkEnc_missing : pkStatWord (ran (.pkEnc 0x41) (packing [true, false, true] [])).pk = 0x30 := by decide

/-- V-D3, last row, and V-D6. -/
theorem test_pkFlush :
    (ran .pkFlush (packing [false, true, false] [0x58, 0x6C])).pk.fifo = [0x58, 0x6C, 0x40] ∧
    pkStatWord (ran .pkFlush (packing [false, true, false] [0x58, 0x6C])).pk = 0x00030005 := by decide

/-- V-D8 (b): a flush without room. -/
theorem test_pkFlush_overflow :
    pkStatWord (ran .pkFlush (packing [true, false, true] (List.replicate 33 0xA5))).pk = 0x30 := by decide

/-- P3, access 21. -/
theorem test_decClr : decStatWord (ran .decClr broken).dec = 0 := by decide

/-- V-D10, and V-D14's pair: a left child is pushed as the parent's right child waits. -/
theorem test_decByte_tree :
    inTree.dec.ncount = 2 ∧ inTree.dec.stk = [(0, .right)] ∧ inTree.dec.tmode = .sym ∧ inTree.dec.tleaf = 1 ∧
    inPayload.dec.nodeAt 0 = .internal (some 1) (some 2) ∧ inPayload.dec.nodeAt 1 = .leaf 0x61 ∧
    inPayload.dec.nodeAt 2 = .leaf 0x62 ∧ decStatWord inPayload.dec = 2 := by decide

/-- V-D22. -/
theorem test_decByte_payload : finished.dec.obuf = [0x61, 0x62] ∧ decStatWord finished.dec = 3 := by decide

/-- P3, accesses 32, 33. -/
theorem test_rdErr :
    lastReply (ran .rdErr { blank with err := ⟨true, true⟩ }) = some 3 ∧
    lastReply (ran .rdErr (ran (.decByte 0 true) finished)) = some 2 := by decide

/-- Rule R151. -/
theorem test_rdCmd : lastReply (ran .rdCmd { blank with err := ⟨true, true⟩ }) = some 0 := by decide

/-- V-D3, third row. -/
theorem test_rdPkStat : lastReply (ran .rdPkStat (packing [false, true, false] [0x58, 0x6C])) = some 0x00020300 := by decide

/-- P1, accesses 8, 9 and 11. -/
theorem test_rdPkData :
    lastReply (ran .rdPkData (packing [] [0x58, 0x6C])) = some 0x80000058 ∧
    (ran .rdPkData (packing [] [0x58, 0x6C])).pk.fifo = [0x6C] ∧ lastReply (ran .rdPkData blank) = some 0 := by decide

/-- V-D16. -/
theorem test_rdDecStat : lastReply (ran .rdDecStat broken) = some 0x24 := by decide

/-- V-D22, and V-D28: hidden before DONE. -/
theorem test_rdDecData :
    lastReply (ran .rdDecData finished) = some 0x80000061 ∧ (ran .rdDecData finished).dec.obuf = [0x62] ∧
    lastReply (ran .rdDecData (ran (.decByte 0x40 false) inPayload)) = some 0 := by decide

/-- V-D22, V-D28. -/
theorem test_rdDecLen :
    lastReply (ran .rdDecLen finished) = some 2 ∧ lastReply (ran .rdDecLen (ran (.decByte 0x40 false) inPayload)) = some 0 := by
  decide

/-- Rule R159. -/
theorem test_rdRsvd7 : lastReply (ran .rdRsvd7 { blank with err := ⟨true, true⟩ }) = some 0 := by decide

/-- V-D2, V-D27: an illegal word sets `ERR.ILL`; a legal one runs (P3, access 21). -/
theorem test_wrCmd :
    (ran (.wrCmd 0x90000260) broken).err = ⟨true, false⟩ ∧ decStatWord (ran (.wrCmd 0x90000260) broken).dec = 0x24 ∧
    decStatWord (ran (.wrCmd 0x80000000) broken).dec = 0 := by decide

/-- V-D27. -/
theorem test_wrErr :
    (ran (.wrErr 0xFFFFFFFE) { blank with err := ⟨true, true⟩ }).err = ⟨true, false⟩ ∧
    (ran (.wrErr 0xFFFFFFFD) { blank with err := ⟨true, true⟩ }).err = ⟨false, true⟩ ∧
    (ran (.wrErr 0xFFFFFFFF) blank).err = ⟨false, false⟩ := by decide

/-- V-D26: writes of the read-only registers pop nothing. -/
theorem test_ignored_writes :
    (ran (.wrPkData 0xFFFFFFFF) (packing [] [0x58])).pk.fifo = [0x58] ∧
    (ran (.wrDecData 0xFFFFFFFF) finished).dec.obuf = [0x61, 0x62] ∧
    decStatWord (ran (.wrDecStat 0) broken).dec = 0x24 ∧ pkStatWord (ran (.wrPkStat 0xFFFFFFFF) blank).pk = 0 ∧
    decLenWord (ran (.wrDecLen 0) finished).dec = 2 ∧ (ran (.wrRsvd7 3) blank).err = ⟨false, false⟩ := by decide

/-- A step from reset runs what `withFetchWord` places. -/
theorem test_step_from_reset :
    (after (step (State.reset.withFetchWord 32 0x90000006)) State.reset).dec.phase = .tree ∧
    lastReply (after (step (State.reset.withFetchWord 8 0b0010)) State.reset) = some 0 := by decide

/-! ## The invariant on the states to test on -/

theorem blank_inv : blank.Inv :=
  { params := by decide
    pk := ⟨by decide, by decide, by simp [State.resetWith, Pk.codeOf, Pk.reset], .inl rfl, by decide⟩
    dec := decRestart_inv _ Dec.reset }

theorem packing_inv {acc : Bits} {fifo : List Byte} (ha : acc.length ≤ 7) (hf : fifo.length ≤ 33) : (packing acc fifo).Inv :=
  { blank_inv with
    pk := ⟨ha, hf, by simp [packing, Pk.codeOf, Pk.reset], .inl rfl, fun h => absurd rfl h⟩ }

theorem loaded_inv {sym : Byte} {bits : Bits} {s : State} (h : s.Inv) (hb : bits.length ≤ 255) : (loaded sym bits s).Inv :=
  { h with pk :=
      have k := h.pk.setCode sym bits hb
      ⟨k.acc_short, k.fifo_fits, k.codes_short, k.fault_code, k.fault_empty⟩ }

theorem faulted_inv : faulted.Inv := { blank_inv with pk := blank_inv.pk.faultEntry }

theorem ran_byte_inv {s : State} (h : s.Inv) (b : Byte) (l : Bool) : (ran (.decByte b l) s).Inv := by
  obtain ⟨t, e, ht, -⟩ := execDecByte_keeps b l h
  simpa only [ran, exec, e, after] using ht

theorem fed_inv (bytes : List Byte) : (fed bytes).Inv := by
  have : ∀ s : State, s.Inv → (bytes.foldl (fun s b => ran (.decByte b false) s) s).Inv := by
    induction bytes with
    | nil => exact fun s h => h
    | cons b bs ih => exact fun s h => ih _ (ran_byte_inv h b false)
  exact this _ blank_inv

/-- The nodes below `n`, each open for its right child, the deepest on top. -/
def opened : (n : Nat) → n < Config.nodeCap → List (NodeIdx × Slot)
  | 0, _ => []
  | n + 1, h => (⟨n, Nat.lt_of_succ_lt h⟩, .right) :: opened n (Nat.lt_of_succ_lt h)

theorem mem_opened {n : Nat} (h : n < Config.nodeCap) (e : NodeIdx × Slot) :
    e ∈ opened n h ↔ e.1.val < n ∧ e.2 = .right := by
  induction n with
  | zero => simp [opened]
  | succ n ih =>
    obtain ⟨i, d⟩ := e
    simp only [opened, List.mem_cons, ih, Prod.mk.injEq, Fin.ext_iff]
    constructor
    · rintro (⟨h1, h2⟩ | ⟨h1, h2⟩) <;> exact ⟨by omega, h2⟩
    · rintro ⟨h1, h2⟩
      by_cases hi : i.val = n
      · exact .inl ⟨hi, h2⟩
      · exact .inr ⟨by omega, h2⟩

theorem opened_descending {n : Nat} (h : n < Config.nodeCap) : (opened n h).Pairwise (fun a b => b.1.val < a.1.val) := by
  induction n with
  | zero => exact .nil
  | succ n ih => exact List.pairwise_cons.mpr ⟨fun e he => ((mem_opened _ e).mp he).1, ih _⟩

/-- Rule R32's deepest stack: 511 Internal tags and no leaf (V-D14 (b), seven tags further). -/
def crowdedDec : Dec :=
  { Dec.reset with
    phase := .tree
    node := Vector.ofFn fun i : NodeIdx =>
      if h : i.val + 1 < Config.nodeCap then .internal (some ⟨i.val + 1, h⟩) none else .internal none none
    ncount := 511
    stk := (510, .left) :: opened 510 (by decide) }

def crowded : State := { blank with dec := crowdedDec }

theorem crowded_nodeAt (i : NodeIdx) : crowdedDec.nodeAt i =
    if h : i.val + 1 < Config.nodeCap then .internal (some ⟨i.val + 1, h⟩) none else .internal none none := by
  simp [Dec.nodeAt, crowdedDec]

theorem crowded_stk (e : NodeIdx × Slot) :
    e ∈ crowdedDec.stk ↔ (e.1.val = 510 ∧ e.2 = .left) ∨ (e.1.val < 510 ∧ e.2 = .right) := by
  obtain ⟨i, d⟩ := e
  simp only [crowdedDec, List.mem_cons, mem_opened, Prod.mk.injEq, Fin.ext_iff]
  exact Iff.rfl

theorem crowded_awaits {n : Nat} (h : n < Config.nodeCap) : Awaits crowdedDec.node (opened n h) ⟨n, h⟩ := by
  induction n with
  | zero => exact Spine.here
  | succ n ih => exact ⟨⟨n + 1, h⟩, (crowded_nodeAt _).trans (dif_pos h), rfl, .here, ih _⟩

theorem crowded_treeInv : crowdedDec.TreeInv where
  links := by
    intro i l r hi hn
    rw [crowded_nodeAt] at hn
    have hN : Config.nodeCap = 511 := rfl
    have hc : crowdedDec.ncount.val = 511 := rfl
    by_cases h : i.val + 1 < Config.nodeCap
    · rw [dif_pos h] at hn
      cases hn
      exact ⟨(crowded_stk _).mpr (.inr ⟨by show i.val < 510; omega, rfl⟩), rfl, by rw [hc]; exact h⟩
    · rw [dif_neg h] at hn
      cases hn
      exact (crowded_stk _).mpr (.inl ⟨by have := i.isLt; show i.val = 510; omega, rfl⟩)
  opens := by
    rintro ⟨i, d⟩ he
    have hN : Config.nodeCap = 511 := rfl
    have hs : crowdedDec.Settled i := ⟨i.isLt, by simp [crowdedDec, Dec.reset]⟩
    rcases (crowded_stk _).mp he with ⟨h, rfl⟩ | ⟨h, rfl⟩ <;> simp only at h
    · refine ⟨hs, ?_, ?_⟩
      · rw [crowded_nodeAt, dif_neg (show ¬i.val + 1 < Config.nodeCap by omega)]
      · show i.val + 1 = 511
        omega
    · refine ⟨hs, ⟨i.val + 1, by omega⟩, ?_⟩
      rw [crowded_nodeAt, dif_pos (show i.val + 1 < Config.nodeCap by omega)]
  descending := List.pairwise_cons.mpr ⟨fun e he => ((mem_opened _ e).mp he).1, opened_descending _⟩
  sym_leaf := by simp [crowdedDec, Dec.reset]
  tag_count := by simp [crowdedDec, Dec.reset]
  done_iff := by simp [crowdedDec, Dec.reset]
  tleaf_low := by simp [crowdedDec, Dec.reset]
  cur_low := by simp [crowdedDec, Dec.reset]
  order := crowded_awaits (n := 510) (by decide)

theorem crowded_inv : crowded.Inv :=
  { blank_inv with
    dec :=
      { crowded_treeInv with
        fault_iff := by simp [crowded, crowdedDec, Dec.reset]
        hdr_empty := by simp [crowded, crowdedDec]
        tree_open := by simp [crowded, crowdedDec, Dec.reset]
        walk_ready := by simp [crowded, crowdedDec]
        obuf_fits := by simp [crowded, crowdedDec, Dec.reset]
        obuf_phase := by simp [crowded, crowdedDec, Dec.reset] } }

/-! ## What is assumed can hold: one witness for each obligation with hypotheses, at the boundaries of its clauses -/

theorem witness_DecodeEncodeAgree :
    (Instr.pkPush 16 0xFFFF).wellFormed = true ∧ (Instr.pkCtapp 1 1).wellFormed = true ∧
    (Instr.wrCmd 0x10000000).wellFormed = true ∧ (Instr.wrCmd 0x10000000).canonical = .pkClr ∧
    (Instr.wrCmd 0).canonical = .wrCmd 0 ∧ (Instr.pkPush 16 0xFFFF).isCommand = true := by decide

theorem witness_EncodeDecodeAgree : decodeCmd 0x5010FFFF = .ok (.pkPush 16 0xFFFF) := by decide

/-- One illegal word for each case of rule R86, a fixed bit at either end of each format's field, and the legal neighbours. -/
theorem witness_IllegalWordsOnlySetIll :
    [0x0FFFFFFF#32, 0xA0000000#32, 0x80000001#32, 0x68000000#32, 0x60000100#32, 0x98000000#32, 0x90000200#32, 0x48010000#32,
      0x50210000#32, 0x50000000#32, 0x50110000#32, 0x500F8000#32].all (fun w => !(decodeCmd w).toBool) = true ∧
    [0x10000000#32, 0x600000FF#32, 0x900001FF#32, 0x50010001#32, 0x5010FFFF#32, 0x500F7FFF#32].all
      (fun w => (decodeCmd w).toBool) = true := by decide

theorem witness_CmdWriteRunsTheCommand :
    decodeCmd 0x00000000 = .error .reservedOpcode ∧
    [0x10000000#32, 0x20000000#32, 0x30000000#32, 0x40010000#32, 0x50010000#32, 0x60000000#32, 0x70000000#32, 0x80000000#32,
      0x90000000#32].all (fun w => (decodeCmd w).toBool) = true := by decide

/-- The last case fills the FIFO exactly. -/
theorem witness_CmdWriteCompletes :
    formatBOk 1 1 = true ∧ (packing (zeros 7) (List.replicate 32 0)).pk.fault = .noFault ∧
    (packing (zeros 7) (List.replicate 32 0)).pk.fifo.length + ((packing (zeros 7) (List.replicate 32 0)).pk.acc.length + 1) / 8 = 33 := by
  decide

theorem witness_StepRunsTheDecodedInstruction :
    ({ blank with port := [.access (encode (.pkPush 9 0x161))] } : State).port = .access (encode (.pkPush 9 0x161)) :: [] ∧
    (Instr.pkPush 9 0x161).wellFormed = true ∧ decodeTableWord 32 0x80000000 = some .decClr ∧
    decodeTableWord 8 0b1001 = some (.wrErr 0) ∧ blank.port = [] := by decide

theorem witness_ResetInputResets : ({ finished with port := [.reset] } : State).port = .reset :: [] := rfl

theorem witness_FaultedPkDropsCommands : faulted.pk.fault ≠ .noFault := by decide

theorem witness_CtclrEmptiesTheTable : (loaded 0x41 [true] blank).pk.fault = .noFault := by decide

theorem witness_CtselSelectsAndEmpties :
    (loaded 0x41 [true] blank).pk.fault = .noFault ∧ (loaded 0x41 [true] blank).pk.codeOf 0x41 ≠ [] := by decide

/-- 255 bits in all, and 256. -/
theorem witness_CtappExtendsTheSelectedCode :
    (loaded 0 (List.replicate 254 true) blank).pk.fault = .noFault ∧
    ((loaded 0 (List.replicate 254 true) blank).pk.codeOf (loaded 0 (List.replicate 254 true) blank).pk.ctsym).length + 1 = 255 ∧
    ((loaded 0 (List.replicate 254 true) blank).pk.codeOf (loaded 0 (List.replicate 254 true) blank).pk.ctsym).length + 2 = 256 := by
  decide +kernel

/-- 33 bytes of 33, and 34. -/
theorem witness_PushAppendsItsBits :
    (packing (zeros 7) (List.replicate 32 0)).pk.fault = .noFault ∧
    (packing (zeros 7) (List.replicate 32 0)).pk.fifo.length + ((packing (zeros 7) (List.replicate 32 0)).pk.acc.length + 8) / 8
      ≤ (packing (zeros 7) (List.replicate 32 0)).params.pkFifoCap ∧
    (packing (zeros 7) (List.replicate 32 0)).params.pkFifoCap
      < (packing (zeros 7) (List.replicate 32 0)).pk.fifo.length + ((packing (zeros 7) (List.replicate 32 0)).pk.acc.length + 9) / 8 := by
  decide

/-- A code that fits, no code, and a code that does not fit. -/
theorem witness_EncAppendsTheCode :
    (loaded 0x41 [true] (packing (zeros 7) (List.replicate 32 0))).pk.fault = .noFault ∧
    (loaded 0x41 [true] (packing (zeros 7) (List.replicate 32 0))).pk.codeOf 0x41 = [true] ∧
    (loaded 0x41 [true] (packing (zeros 7) (List.replicate 32 0))).pk.codeOf 0x42 = [] ∧
    (packing (zeros 7) (List.replicate 32 0)).pk.fifo.length + (7 + 1) / 8 = small.pkFifoCap ∧
    small.pkFifoCap < (packing (zeros 7) (List.replicate 33 0)).pk.fifo.length + (7 + 1) / 8 := by decide

/-- Nothing pending; room for exactly one byte; none. -/
theorem witness_FlushPadsAndRecords :
    blank.pk.fault = .noFault ∧ blank.pk.acc = [] ∧
    (packing (zeros 7) (List.replicate 32 0)).pk.acc ≠ [] ∧ (packing (zeros 7) (List.replicate 32 0)).pk.acc.length ≤ 7 ∧
    (packing (zeros 7) (List.replicate 32 0)).pk.fifo.length + 1 ≤ small.pkFifoCap ∧
    (packing [true] (List.replicate 33 0)).pk.acc ≠ [] ∧
    small.pkFifoCap < (packing [true] (List.replicate 33 0)).pk.fifo.length + 1 := by decide

theorem witness_PkFaultEntryIsPrecise :
    ∃ t, exec (.pkEnc 0x41) (packing [true] [0x58]) = .next t ∧ (packing [true] [0x58]).pk.fault = .noFault ∧
      t.pk.fault ≠ .noFault := ⟨_, rfl, by decide, by decide⟩

/-- Each of the five causes, and an access that is none. -/
theorem witness_PkFaultCauses :
    (ran (.pkCtapp 2 0) (loaded 0 (List.replicate 254 true) blank)).pk.fault = .unsupportedInput ∧
    (ran (.pkEnc 0x41) blank).pk.fault = .unsupportedInput ∧
    (ran (.pkEnc 0x41) (loaded 0x41 [true] (packing (zeros 7) (List.replicate 33 0)))).pk.fault = .unsupportedInput ∧
    (ran (.pkPush 8 0) (packing [] (List.replicate 33 0))).pk.fault = .unsupportedInput ∧
    (ran .pkFlush (packing [true] (List.replicate 33 0))).pk.fault = .unsupportedInput ∧
    (ran .pkFlush (packing [true] [])).pk.fault = .noFault := by decide +kernel

theorem witness_PkCommandFrame :
    (∃ t, exec (.pkPush 9 0x161) (packing [false] [0x58]) = .next t ∧ t.pk.fault = (packing [false] [0x58]).pk.fault) ∧
    (∃ t, exec (.pkCtapp 1 1) (packing [false] [0x58]) = .next t ∧ t.pk.fault = (packing [false] [0x58]).pk.fault) :=
  ⟨⟨_, rfl, by decide⟩, ⟨_, rfl, by decide⟩⟩

/-- V-D9: the tag bit of T1 and a code, in two commands, after a byte that is already there. -/
theorem witness_PackLaw :
    [Instr.pkPush 1 0, .pkEnc 0x41].map (appendedBits (loaded 0x41 [true, false] (packing [] [0x58])).pk)
      = [[false], [true, false]].map some ∧
    (loaded 0x41 [true, false] (packing [] [0x58])).pk.fault = .noFault ∧
    (loaded 0x41 [true, false] (packing [] [0x58])).pk.acc = [] ∧
    (loaded 0x41 [true, false] (packing [] [0x58])).pk.fifo.length + ([[false], [true, false]].flatten.length + 7) / 8 ≤ small.pkFifoCap := by
  decide

/-- The room of each clause exactly. -/
theorem witness_FifoDisciplineSuffices :
    (loaded 0x41 [true] (packing (zeros 7) [0])).Inv ∧
    (loaded 0x41 [true] (packing (zeros 7) [0])).pk.fault = .noFault ∧
    (loaded 0x41 [true] (packing (zeros 7) [0])).pk.codeOf 0x41 ≠ [] ∧
    small.pkFifoCap - (loaded 0x41 [true] (packing (zeros 7) [0])).pk.fifo.length = 32 ∧ formatBOk 16 0xFFFF = true ∧
    (packing (zeros 7) (List.replicate 31 0)).Inv ∧ small.pkFifoCap - (packing (zeros 7) (List.replicate 31 0)).pk.fifo.length = 2 ∧
    (packing (zeros 7) (List.replicate 32 0)).Inv ∧ small.pkFifoCap - (packing (zeros 7) (List.replicate 32 0)).pk.fifo.length = 1 :=
  ⟨loaded_inv (packing_inv (by decide) (by decide)) (by decide), by decide, by decide, by decide, by decide,
    packing_inv (by decide) (by decide), by decide, packing_inv (by decide) (by decide), by decide⟩

/-- The four header cases at their bounds (V-D16). -/
theorem witness_HeaderByte :
    blank.dec.phase = .hdr ∧ 7 < (0x08 : Byte).toNat ∧ (0x07 : Byte).toNat ≤ 7 ∧ 1 ≤ (0x01 : Byte).toNat ∧
    decStatWord (ran (.decByte 8 true) blank).dec = 0x24 ∧ decStatWord (ran (.decByte 7 false) blank).dec = 0x01 ∧
    decStatWord (ran (.decByte 0 true) blank).dec = 0x03 ∧ decStatWord (ran (.decByte 1 true) blank).dec = 0x14 ∧
    decStatWord (ran (.decByte 7 true) blank).dec = 0x14 := by decide

theorem witness_BytesAfterTheEndAreDropped : finished.dec.phase = .done ∧ broken.dec.phase = .fault := by decide

/-- The 512th tag; the first tag; a left child; a right child. -/
theorem witness_TagBit :
    (crowdedDec.TreeInv ∧ crowdedDec.tmode = .tag ∧ crowdedDec.tdone = false ∧ crowdedDec.ncount.val = 511) ∧
    (blank.dec.TreeInv ∧ blank.dec.tmode = .tag ∧ blank.dec.tdone = false ∧ blank.dec.stk = []) ∧
    ((fed [0, 0]).dec.TreeInv ∧ (fed [0, 0]).dec.tmode = .tag ∧ (fed [0, 0]).dec.tdone = false ∧
      (fed [0, 0]).dec.stk.head? = some (7, .left)) ∧
    ((fed [0, 0x01, 0x61]).dec.TreeInv ∧ (fed [0, 0x01, 0x61]).dec.tmode = .tag ∧
      (fed [0, 0x01, 0x61]).dec.tdone = false ∧ (fed [0, 0x01, 0x61]).dec.stk.head? = some (6, .right)) :=
  ⟨⟨crowded_treeInv, by decide +kernel, by decide +kernel, by decide +kernel⟩,
    ⟨blank_inv.dec.toTreeInv, by decide, by decide, by decide⟩,
    ⟨(fed_inv _).dec.toTreeInv, by decide, by decide, by decide⟩,
    ⟨(fed_inv _).dec.toTreeInv, by decide, by decide, by decide⟩⟩

/-- Inside a symbol; at its eighth bit with nodes open, and with none (V-D13). -/
theorem witness_SymbolBit :
    inTree.dec.tmode = .sym ∧ inTree.dec.symcnt.val < 7 ∧
    (fed [0, 0, 0xB0]).dec.tmode = .sym ∧ (fed [0, 0, 0xB0]).dec.symcnt.val = 7 ∧ (fed [0, 0, 0xB0]).dec.stk ≠ [] ∧
    (fed [0, 0xB0]).dec.tmode = .sym ∧ (fed [0, 0xB0]).dec.symcnt.val = 7 ∧ (fed [0, 0xB0]).dec.stk = [] := by decide

/-- Every outcome of a tree byte: V-D14, V-D10, V-D12, V-D13, V-D17. -/
theorem witness_TreeByteOutcomes :
    (crowded.Inv ∧ crowded.dec.phase = .tree ∧ decStatWord (ran (.decByte 0 false) crowded).dec = 0x34) ∧
    (inTree.Inv ∧ inTree.dec.phase = .tree) ∧
    decStatWord (ran (.decByte 0x6C false) inTree).dec = 0x01 ∧ decStatWord (ran (.decByte 0x6C true) inTree).dec = 0x14 ∧
    decStatWord (ran (.decByte 0x80 false) (fed [0, 0xB0])).dec = 0x14 ∧
    decStatWord (ran (.decByte 0x40 false) (fed [0x06, 0x58, 0x6C])).dec = 0x02 ∧
    decStatWord (ran (.decByte 0x40 true) (fed [0x00, 0x58, 0x6C])).dec = 0x03 ∧
    decStatWord (ran (.decByte 0x40 true) (fed [0x06, 0x58, 0x6C])).dec = 0x24 :=
  ⟨⟨crowded_inv, by decide +kernel, by decide +kernel⟩, ⟨fed_inv _, by decide⟩, by decide, by decide, by decide, by decide,
    by decide, by decide⟩

theorem witness_TreeByteCompletes :
    inTree.Inv ∧ inTree.dec.phase = .tree ∧ inTree.dec.ncount.val + 8 ≤ 511 ∧ inTree.dec.Settled 0 ∧
    (inTree.dec.nodeAt 0).isLeaf = false :=
  ⟨fed_inv _, by decide, by decide, ⟨by decide, by decide⟩, by decide⟩

/-- A leaf with room and without, and an Internal node. -/
theorem witness_WalkBit :
    inPayload.dec.nodeAt inPayload.dec.cur = .internal (some 1) (some 2) ∧ inPayload.dec.nodeAt 1 = .leaf 0x61 ∧
    inPayload.dec.obuf.length ≠ 8 ∧ inPayload.dec.obuf.length = 0 ∧
    (fed [0x04, 0x58, 0x56, 0x2B, 0x18]).dec.nodeAt 0 = .internal (some 1) (some 2) ∧
    (fed [0x04, 0x58, 0x56, 0x2B, 0x18]).dec.nodeAt 2 = .internal (some 3) (some 4) := by decide

/-- Every outcome of a payload byte: V-D24, V-D22, V-D21. -/
theorem witness_PayloadByteOutcomes :
    inPayload.Inv ∧ inPayload.dec.phase = .payload ∧
    decStatWord (ran (.decByte 0x40 false) (ran (.decByte 0 false) inPayload)).dec = 0x34 ∧
    decStatWord (ran (.decByte 0x40 false) inPayload).dec = 0x02 ∧ decStatWord (ran (.decByte 0x40 true) inPayload).dec = 0x03 ∧
    (fed [0x07, 0x58, 0x56, 0x2B, 0x18]).Inv ∧
    decStatWord (ran (.decByte 0xFF true) (fed [0x07, 0x58, 0x56, 0x2B, 0x18])).dec = 0x24 :=
  ⟨fed_inv _, by decide, by decide, by decide, by decide, fed_inv _, by decide⟩

/-- Room for exactly eight symbols. -/
theorem witness_PayloadByteCompletes :
    inPayload.Inv ∧ inPayload.dec.phase = .payload ∧ inPayload.dec.obuf.length + 8 = small.outCap :=
  ⟨fed_inv _, by decide, by decide⟩

/-- V-D19's kind on T1, and V-D15. -/
theorem witness_PaddingIsIgnored :
    (inPayload.dec.phase = .payload ∧ (0x40 : Byte) >>> inPayload.dec.padreg.val = 0x7F#8 >>> inPayload.dec.padreg.val) ∧
    (fed [0x06, 0x58, 0x6C]).dec.phase = .tree ∧ (0x40 : Byte) >>> 5 = 0x5F#8 >>> 5 ∧
    ∃ d, tdBits ((bitsMSB 8 0x40#8).take (8 - 5)) (fed [0x06, 0x58, 0x6C]).dec = .ok d ∧ d.tdone = true :=
  ⟨⟨by decide, by decide⟩, by decide, by decide, _, rfl, by decide⟩

theorem witness_DecFaultEntryIsPrecise :
    ∃ t, exec (.decByte 0x40 true) (fed [0x06, 0x58, 0x6C]) = .next t ∧ (fed [0x06, 0x58, 0x6C]).dec.phase ≠ .fault ∧
      t.dec.phase = .fault := ⟨_, rfl, by decide, by decide⟩

/-- An access from each phase: the other edges are in `witness_HeaderByte`, `witness_TreeByteOutcomes`,
`witness_PayloadByteOutcomes`. -/
theorem witness_PhaseGraph :
    blank.Inv ∧ inTree.Inv ∧ inPayload.Inv ∧ finished.Inv ∧ broken.Inv ∧
    [blank, inTree, inPayload, finished, broken].map (fun s => s.dec.phase) = [.hdr, .tree, .payload, .done, .fault] ∧
    [blank, inTree, inPayload, finished, broken].map (fun s => (ran (.wrCmd 0x80000000) s).dec.phase)
      = [.hdr, .hdr, .hdr, .hdr, .hdr] ∧
    [blank, inTree, inPayload, finished, broken].map (fun s => (ran (.decByte 0x40 true) s).dec.phase)
      = [.fault, .fault, .done, .done, .fault] :=
  ⟨blank_inv, fed_inv _, fed_inv _, ran_byte_inv (fed_inv _) _ _, fed_inv _, by decide, by decide, by decide⟩

/-- A fully skewed tree of `2 n + 1` nodes. -/
def skewed : Nat → CodeTree
  | 0 => .leaf 0xFF
  | n + 1 => .internal (.leaf (BitVec.ofNat 8 n)) (skewed n)

/-- The capacity exactly. -/
theorem witness_ParseUndoesSer : (skewed 255).nodes = 511 ∧ (CodeTree.leaf 0x61).nodes = 1 := by decide +kernel

/-- T3 of spec/95 and the code table read off it. -/
def t3 : CodeTree := .internal (.leaf 0x61) (.internal (.leaf 0x62) (.leaf 0x63))

def t3Code (sym : Byte) : Bits := if sym = 0x61 then [false] else if sym = 0x62 then [true, false] else [true, true]

/-- V-S1: the container of `abacabca`, eight symbols with room for eight. -/
theorem witness_ContainerRoundTrip :
    t3.isLeaf = false ∧ t3.nodes ≤ 511 ∧
    [0x61, 0x62, 0x63].all (fun sym => (sym, t3Code sym) ∈ t3.paths) = true ∧
    containerOf t3 t3Code [0x61, 0x62, 0x61, 0x63, 0x61, 0x62, 0x63, 0x61] = [0x04, 0x58, 0x56, 0x2B, 0x18, 0x4D, 0x60] := by
  decide

/-- V-S1 and V-D21. -/
theorem witness_MachineDecodesFrames :
    decodeFrame 8 [0x04, 0x58, 0x56, 0x2B, 0x18, 0x4D, 0x60] = .ok [0x61, 0x62, 0x61, 0x63, 0x61, 0x62, 0x63, 0x61] ∧
    decodeFrame 8 [0x07, 0x58, 0x56, 0x2B, 0x18, 0xFF] = .error .corruptPayload := by decide +kernel

theorem witness_PkStatRead : (packing (zeros 7) (List.replicate 33 0)).Inv ∧ faulted.Inv :=
  ⟨packing_inv (by decide) (by decide), faulted_inv⟩

/-- Every phase, and FAULT under each code: R27, V-D13, V-D16, V-D14. -/
theorem witness_DecStatRead :
    (blank.Inv ∧ blank.dec.phase = .hdr) ∧ (inTree.Inv ∧ inTree.dec.phase = .tree) ∧
    (inPayload.Inv ∧ inPayload.dec.phase = .payload) ∧ (finished.Inv ∧ finished.dec.phase = .done) ∧
    ((fed [0x00, 0xB0, 0x80]).Inv ∧ (fed [0x00, 0xB0, 0x80]).dec.dfault = .malformedTree) ∧
    (broken.Inv ∧ broken.dec.dfault = .corruptPayload) ∧
    ((ran (.decByte 0 false) crowded).Inv ∧ (ran (.decByte 0 false) crowded).dec.dfault = .unsupportedInput) :=
  ⟨⟨blank_inv, by decide⟩, ⟨fed_inv _, by decide⟩, ⟨fed_inv _, by decide⟩, ⟨ran_byte_inv (fed_inv _) _ _, by decide⟩,
    ⟨fed_inv _, by decide⟩, ⟨fed_inv _, by decide⟩, ran_byte_inv crowded_inv _ _, by decide +kernel⟩

theorem witness_PkDataRead : (packing [] [0x58]).pk.fifo = 0x58 :: [] ∧ blank.pk.fifo = [] := by decide

theorem witness_DecDataRead :
    (finished.dec.phase = .done ∧ finished.dec.obuf = 0x61 :: [0x62]) ∧
    (ran (.decByte 0x40 false) inPayload).dec.phase ≠ .done ∧ (ran (.decByte 0 true) blank).dec.obuf = [] := by decide

theorem witness_DecLenRead : finished.Inv ∧ finished.dec.phase = .done ∧ inPayload.Inv ∧ inPayload.dec.phase ≠ .done :=
  ⟨ran_byte_inv (fed_inv _) _ _, by decide, fed_inv _, by decide⟩

/-- The bounds of rule R7. -/
theorem witness_InvariantHoldsAtReset :
    ({ pkFifoCap := 33, outCap := 1, base := 0 } : Params).wf ∧
    ({ pkFifoCap := 65535, outCap := 2 ^ 32 - 1, base := 0 } : Params).wf := by decide

theorem witness_StepKeepsInvariant : ({ inTree with port := [.access (encode (.decByte 0x6C false))] } : State).Inv :=
  have h : inTree.Inv := fed_inv _
  ⟨h.params, h.pk, h.dec⟩

theorem witness_InvariantSaysR48 :
    (faulted.Inv ∧ faulted.pk.fault ≠ .noFault) ∧ (inPayload.Inv ∧ inPayload.dec.phase = .payload) ∧
    (finished.Inv ∧ finished.dec.phase = .done ∧ 0 < finished.dec.ncount.val ∧ finished.dec.obuf ≠ []) ∧
    (blank.Inv ∧ blank.dec.phase = .hdr) ∧ (broken.Inv ∧ broken.dec.phase = .fault) :=
  ⟨⟨faulted_inv, by decide⟩, ⟨fed_inv _, by decide⟩, ⟨ran_byte_inv (fed_inv _) _ _, by decide, by decide, by decide⟩,
    ⟨blank_inv, by decide⟩, fed_inv _, by decide⟩

/-- A node with both children under `TDONE = 1`, and the deepest stack. -/
theorem witness_ArenaIsInPreOrder :
    inPayload.Inv ∧ inPayload.dec.Settled 0 ∧ inPayload.dec.nodeAt 0 = .internal (some 1) (some 2) ∧
    inPayload.dec.tdone = true ∧ crowded.Inv ∧ crowded.dec.stk.length = 511 :=
  ⟨fed_inv _, ⟨by decide, by decide⟩, by decide, by decide, crowded_inv, by decide +kernel⟩

/-- Five nodes, of which node 4 is the right child of two and node 3 of none. -/
def sharedDec : Dec :=
  { ((((Dec.reset.setNode 0 (.internal (some 1) (some 4))).setNode 1 (.internal (some 2) (some 4))).setNode 2 (.leaf 0)).setNode 3
      (.leaf 1)).setNode 4 (.leaf 2) with phase := .payload, ncount := 5, tdone := true }

/-- An arena that is not in pre-order is no state of the invariant: rule R104. -/
theorem test_shared_child_is_not_ordered : ¬sharedDec.Ordered := by
  have n1 : sharedDec.nodeAt 1 = .internal (some 2) (some 4) := by decide
  have n2 : sharedDec.nodeAt 2 = .leaf 0 := by decide
  rw [Dec.ordered_nil rfl rfl]
  rintro (h | h)
  · cases h
  · obtain ⟨l, r, e1, e2, -, hs, -⟩ := h.inside (j := 1) (by decide) (by decide) n1
    cases e1
    cases e2
    cases hs with
    | leaf _ he => exact absurd he (by decide)
    | internal hn => cases n2.symm.trans hn

/-- A state whose PK is that of `packing`, and whose DEC is that of `finished`. -/
def mixed : State := { packing [true] [0x58] with dec := finished.dec, err := ⟨true, false⟩ }

theorem witness_UnitsAreIsolated :
    ((packing [true] [0x58]).params = mixed.params ∧ (packing [true] [0x58]).pk = mixed.pk ∧
      ∃ t t', exec .rdPkData (packing [true] [0x58]) = .next t ∧ exec .rdPkData mixed = .next t') ∧
    (finished.params = mixed.params ∧ finished.dec = mixed.dec ∧
      ∃ t t', exec .rdDecData finished = .next t ∧ exec .rdDecData mixed = .next t') :=
  ⟨⟨rfl, rfl, _, _, rfl, rfl⟩, rfl, rfl, _, _, rfl, rfl⟩

/-- After reset with something left in the arena, a header byte waiting. -/
def stale (left : Node) : State :=
  { blank with dec := Dec.reset.setNode 7 left, port := [.access (encode (.decByte 0x06 false))] }

theorem witness_StaleArenaIsUnobservable :
    (stale (.leaf 0x55)).Inv ∧ (stale (.internal none none)).Inv ∧ (stale (.leaf 0x55)).Agree (stale (.internal none none)) ∧
    (stale (.leaf 0x55)).dec.nodeAt 7 ≠ (stale (.internal none none)).dec.nodeAt 7 :=
  ⟨⟨blank_inv.params, blank_inv.pk, decRestart_inv _ (Dec.reset.setNode 7 (.leaf 0x55))⟩,
    ⟨blank_inv.params, blank_inv.pk, decRestart_inv _ (Dec.reset.setNode 7 (.internal none none))⟩,
    ⟨rfl, rfl, fun i h => absurd h.1 (Nat.not_lt_zero _)⟩, by decide⟩

/-- From a faulted PK with `PK.CLR` first, and from any other in any order. -/
theorem witness_HostCanEstablishReset :
    [Instr.decClr, .pkClr, .wrErr 3, .pkCtclr].Perm [.wrErr 3, .pkClr, .pkCtclr, .decClr] ∧
    [Instr.pkClr, .pkCtclr].Sublist [Instr.decClr, .pkClr, .wrErr 3, .pkCtclr] ∧ faulted.pk.fault ≠ .noFault ∧
    [Instr.decClr, .pkCtclr, .wrErr 3, .pkClr].Perm [.wrErr 3, .pkClr, .pkCtclr, .decClr] ∧ mixed.pk.fault = .noFault := by
  decide

theorem witness_ErrFlagsAreSticky :
    (∃ t, exec (.wrErr 2) mixed = .next t ∧ mixed.err.ill = true ∧ (2 : Word).getLsbD 0 = false) ∧
    ∃ t, exec .decClr (ran (.decByte 0 true) finished) = .next t ∧ (ran (.decByte 0 true) finished).err.seq = true :=
  ⟨⟨_, rfl, rfl, by decide⟩, _, rfl, by decide⟩

/-- `SEQ` by both spellings of a byte after the end, `ILL` by an illegal word. -/
theorem witness_ErrFlagCauses :
    finished.err = ⟨false, false⟩ ∧ (ran (.decByte 0 true) finished).err = ⟨false, true⟩ ∧
    (ran (.wrCmd 0x90000100) finished).err = ⟨false, true⟩ ∧ (ran (.wrCmd 0) finished).err = ⟨true, false⟩ := by decide

theorem witness_FaultsAreHeldUntilCleared :
    (faulted.Inv ∧ faulted.pk.fault ≠ .noFault ∧ ∃ t, exec (.pkPush 1 1) faulted = .next t) ∧
    broken.Inv ∧ broken.dec.phase = .fault ∧ ∃ t, exec (.decByte 0x58 false) broken = .next t :=
  ⟨⟨faulted_inv, by decide, _, rfl⟩, fed_inv _, by decide, _, rfl⟩

theorem witness_ReadsReplyOnceWritesNever :
    (∃ t, exec .rdErr mixed = .next t) ∧ (encode .rdErr).write = false ∧
    (∃ t, exec (.pkPush 1 1) mixed = .next t) ∧ (encode (.pkPush 1 1)).write = true := ⟨⟨_, rfl⟩, rfl, ⟨_, rfl⟩, rfl⟩

/-- Two commands of the two units, from a state where each changes its own. -/
theorem witness_PkAndDecCommute :
    (ran (.pkPush 9 0x161) (packing [false] [])).pk.fifo = [0x58] ∧
    (ran (.decByte 0x06 false) (packing [false] [])).dec.phase = .tree := by decide

end Sys2Proof.Tests
end

/-! # The state: every access keeps the invariant (rules R47, R48)

One lemma per operation of PK, one for the two commands of DEC, and the accesses assembled from them. -/

namespace Sys2Proof.Machine

/-! ## The packer's operations: their only fault, and what they leave alone -/

theorem extendCode_error {n : Nat} {data : BitVec 16} {p : Pk} {c : FaultCode} (h : extendCode n data p = .error c) :
    c = .unsupportedInput := by
  rcases extendCode_cases n data p with ⟨-, he⟩ | ⟨-, he⟩
  · cases he.symm.trans h; rfl
  · cases he.symm.trans h

theorem encodeSymbol_error {cap : Nat} {sym : Byte} {p : Pk} {c : FaultCode} (h : encodeSymbol cap sym p = .error c) :
    c = .unsupportedInput := by
  rcases encodeSymbol_cases cap sym p with ⟨-, he⟩ | ⟨-, he⟩
  · cases he.symm.trans h; rfl
  · exact append_error (he.symm.trans h)

theorem flush_error {cap : Nat} {p : Pk} {c : FaultCode} (h : flush cap p = .error c) : c = .unsupportedInput := by
  rcases flush_cases cap p with ⟨-, he⟩ | ⟨-, -, he⟩ | ⟨-, -, he⟩
  · cases he.symm.trans h
  · cases he.symm.trans h; rfl
  · cases he.symm.trans h

/-- `Append` writes `FIFO` and `ACC` alone: rule R111. -/
theorem append_frame {cap : Nat} {bits : Bits} {p q : Pk} (h : append cap bits p = .ok q) :
    q = { p with fifo := q.fifo, acc := q.acc } := by
  rcases append_cases cap bits p with ⟨-, he⟩ | ⟨-, r, hr, hq, -⟩
  · cases he.symm.trans h
  · cases hr.symm.trans h; exact hq

/-- A `PK.ENC` that does not fault is the `Append` of the symbol's code: rule R116. -/
theorem encodeSymbol_ok {cap : Nat} {sym : Byte} {p q : Pk} (h : encodeSymbol cap sym p = .ok q) :
    append cap (p.codeOf sym) p = .ok q := by
  rcases encodeSymbol_cases cap sym p with ⟨-, he⟩ | ⟨-, he⟩
  · cases he.symm.trans h
  · exact he.symm.trans h

/-- `PK.FLUSH` writes `FIFO`, `ACC` and `PAD` alone: rule R117. -/
theorem flush_frame {cap : Nat} {p q : Pk} (h : flush cap p = .ok q) :
    q = { p with fifo := q.fifo, acc := q.acc, pad := q.pad } := by
  rcases flush_cases cap p with ⟨-, he⟩ | ⟨-, -, he⟩ | ⟨-, -, he⟩ <;> cases he.symm.trans h <;> rfl

/-- `PK.CTAPP` writes `CODE` alone: rule R114. -/
theorem extendCode_frame {n : Nat} {data : BitVec 16} {p q : Pk} (h : extendCode n data p = .ok q) :
    q = { p with code := q.code } := by
  rcases extendCode_cases n data p with ⟨-, he⟩ | ⟨-, he⟩ <;> cases he.symm.trans h
  rfl

/-- PK with every entry of the table empty and symbol 0 selected: rule R112. -/
def Pk.emptied (p : Pk) : Pk := { p with code := Vector.replicate Config.nsym [], ctsym := 0#8 }

/-- PK with `sym` selected and its entry empty: rule R113. -/
def Pk.selected (sym : Byte) (p : Pk) : Pk := { p.setCode sym [] with ctsym := sym }

@[simp] theorem Pk.codeOf_emptied (p : Pk) (sym : Byte) : p.emptied.codeOf sym = [] := by simp [Pk.codeOf, Pk.emptied]

/-! ## The invariant, operation by operation: rule R48 -/

theorem Pk.reset_inv (cap : Nat) : Pk.reset.Inv cap :=
  ⟨by simp [Pk.reset], by simp [Pk.reset], fun sym => by simp [Pk.codeOf, Pk.reset], .inl rfl, fun h => absurd rfl h⟩

theorem Pk.Inv.emptied {cap : Nat} {p : Pk} (h : p.Inv cap) : p.emptied.Inv cap :=
  ⟨h.acc_short, h.fifo_fits, fun sym => by simp, h.fault_code, h.fault_empty⟩

theorem Pk.Inv.selected {cap : Nat} {p : Pk} (h : p.Inv cap) (sym : Byte) : (p.selected sym).Inv cap :=
  have k := h.setCode sym [] (Nat.zero_le _)
  ⟨k.acc_short, k.fifo_fits, k.codes_short, k.fault_code, k.fault_empty⟩

theorem Pk.Inv.extendCode {cap n : Nat} {data : BitVec 16} {p q : Pk} (h : p.Inv cap) (hq : extendCode n data p = .ok q) :
    q.Inv cap := by
  rcases extendCode_cases n data p with ⟨-, he⟩ | ⟨hn, he⟩ <;> cases he.symm.trans hq
  exact h.setCode _ _ (by simpa using hn)

theorem Pk.Inv.flush {cap : Nat} {p q : Pk} (h : p.Inv cap) (hf : p.fault = .noFault) (hq : flush cap p = .ok q) :
    q.Inv cap := by
  rcases flush_cases cap p with ⟨-, he⟩ | ⟨-, -, he⟩ | ⟨-, hc, he⟩ <;> cases he.symm.trans hq
  · exact ⟨h.acc_short, h.fifo_fits, h.codes_short, h.fault_code, fun hne => absurd hf hne⟩
  · exact ⟨by simp, by simpa using hc, h.codes_short, h.fault_code, fun hne => absurd hf hne⟩

theorem resetWith_inv {p : Params} (hp : p.wf) : (State.resetWith p).Inv :=
  ⟨hp, Pk.reset_inv _, decRestart_inv _ Dec.reset⟩

theorem resetInput_inv {s : State} (h : s.Inv) : (resetInput s).Inv :=
  ⟨h.params, Pk.reset_inv _, decRestart_inv _ s.dec⟩

/-- What waits at the port is no part of the invariant. -/
theorem State.Inv.setPort {s : State} (h : s.Inv) (rest : List Input) : ({ s with port := rest } : State).Inv :=
  ⟨h.params, h.pk, h.dec⟩

/-! ## The two reads that pop: rules R155, R157 -/

/-- What a pop of `l` returns: the oldest byte with `VALID = 1`, or 0. -/
def headWord : List Byte → Word
  | [] => 0#32
  | b :: _ => validWord b

/-- PK after a read of `PK_DATA`: rule R155. -/
def Pk.popped (p : Pk) : Pk := { p with fifo := p.fifo.tail }

/-- DEC after a read of `DEC_DATA`: rule R157. -/
def Dec.popped (d : Dec) : Dec := if d.phase = .done then { d with obuf := d.obuf.tail } else d

/-- The word a read of `DEC_DATA` returns: rule R157. -/
def Dec.dataWord (d : Dec) : Word := if d.phase = .done then headWord d.obuf else 0#32

theorem exec_rdPkData (s : State) : exec .rdPkData s = .next (reply (headWord s.pk.fifo) { s with pk := s.pk.popped }) := by
  rcases s with ⟨⟨code, ctsym, acc, _ | ⟨b, rest⟩, pad, fault⟩, dec, err, params, port, replies⟩ <;> rfl

theorem exec_rdDecData (s : State) : exec .rdDecData s = .next (reply s.dec.dataWord { s with dec := s.dec.popped }) := by
  simp only [exec, execRdDecData, Dec.popped, Dec.dataWord]
  split
  · rcases hs : s.dec.obuf with _ | ⟨b, rest⟩
    · change Host.Outcome.next (reply 0#32 s) = .next (reply 0#32 { s with dec := { s.dec with obuf := [] } })
      rw [← hs]
    · rfl
  · rfl

theorem Pk.Inv.popped {cap : Nat} {p : Pk} (h : p.Inv cap) : p.popped.Inv cap where
  acc_short := h.acc_short
  fifo_fits := by have := h.fifo_fits; simp only [Pk.popped, List.length_tail]; omega
  codes_short := h.codes_short
  fault_code := h.fault_code
  fault_empty hf := by
    obtain ⟨hfifo, hrest⟩ := h.fault_empty hf
    exact ⟨by simp [Pk.popped, hfifo], hrest⟩

theorem Dec.Inv.popped {outCap : Nat} {d : Dec} (h : d.Inv outCap) : d.popped.Inv outCap := by
  unfold Dec.popped
  split
  · exact { h with
      obuf_fits := by have := h.obuf_fits; simp only [List.length_tail]; omega
      obuf_phase := fun hne => h.obuf_phase fun h0 => hne (by simp [h0]) }
  · exact h

/-! ## Every access keeps the invariant -/

/-- An access from `s` answered a next state that meets the invariant, under the same parameters. -/
def KeepsInv (s : State) (o : Host.Outcome State Fault Refusal) : Prop := ∃ t, o = .next t ∧ t.Inv ∧ t.params = s.params

/-- A command keeps the invariant: rules R110 to R118, R131 to R138. -/
theorem exec_command_keeps {c : Instr} (hc : c.isCommand = true) {s : State} (h : s.Inv) : KeepsInv s (exec c s) := by
  cases c with
  | pkClr => exact ⟨_, rfl, ⟨h.params, h.pk.restart, h.dec⟩, rfl⟩
  | pkCtclr =>
    exact pkCommand_keeps (f := fun p => .ok p.emptied) h (fun _ e _ => by cases e; exact h.pk.emptied)
      (fun _ e => nomatch e)
  | pkCtsel sym =>
    exact pkCommand_keeps (f := fun p => .ok (p.selected sym)) h (fun _ e _ => by cases e; exact h.pk.selected sym)
      (fun _ e => nomatch e)
  | pkCtapp n data => exact pkCommand_keeps h (fun _ e _ => h.pk.extendCode e) (fun _ => extendCode_error)
  | pkPush n data => exact pkCommand_keeps h (fun _ e hf => h.pk.append hf e) (fun _ => append_error)
  | pkEnc sym => exact pkCommand_keeps h (fun _ e hf => h.pk.append hf (encodeSymbol_ok e)) (fun _ => encodeSymbol_error)
  | pkFlush => exact pkCommand_keeps h (fun _ e hf => h.pk.flush hf e) (fun _ => flush_error)
  | decClr => exact ⟨_, rfl, ⟨h.params, h.pk, decRestart_inv _ s.dec⟩, rfl⟩
  | decByte byte last => exact execDecByte_keeps byte last h
  | _ => cases hc

/-- Every access keeps the invariant: rules R13, R48. -/
theorem exec_keeps (i : Instr) {s : State} (h : s.Inv) : KeepsInv s (exec i s) := by
  cases i with
  | pkClr | pkCtclr | pkCtsel | pkCtapp | pkPush | pkEnc | pkFlush | decClr | decByte => exact exec_command_keeps rfl h
  | wrCmd w =>
    cases hw : decodeCmd w with
    | ok c =>
      rw [exec_wrCmd_ok hw]
      exact exec_command_keeps (decodeCmd_isCommand hw) h
    | error e => exact ⟨_, exec_wrCmd_error hw s, ⟨h.params, h.pk, h.dec⟩, rfl⟩
  | rdPkData => exact ⟨_, exec_rdPkData s, ⟨h.params, h.pk.popped, h.dec⟩, rfl⟩
  | rdDecData => exact ⟨_, exec_rdDecData s, ⟨h.params, h.pk, h.dec.popped⟩, rfl⟩
  | _ => exact ⟨_, rfl, ⟨h.params, h.pk, h.dec⟩, rfl⟩

/-- Settles O50: the step is idle, an access or the reset input, and each keeps the invariant. -/
theorem stepKeepsInvariant : Obligations.StepKeepsInvariant := by
  intro s h
  rcases step_cases s with ⟨-, e⟩ | ⟨a, rest, -, e⟩ | ⟨rest, -, e⟩
  · exact ⟨s, e, h, rfl⟩
  · rw [e]
    exact exec_keeps (decode a) (h.setPort rest)
  · exact ⟨_, e, resetInput_inv (h.setPort rest), rfl⟩

/-- Settles O49: a reset DEC is a restarted one, a reset PK is empty. -/
theorem invariantHoldsAtReset : Obligations.InvariantHoldsAtReset :=
  ⟨fun _ => resetWith_inv, resetWith_inv (by decide)⟩

end Sys2Proof.Machine

/-! # What each access changes and what it leaves alone (rules R20, R40, R46, R61)

The frames of the `PK.*` commands, what the invariant says, and one inversion lemma for all accesses. -/

namespace Sys2Proof.Machine

/-! ## The frames of the `PK.*` commands: rules R20, R110 -/

section
variable {f : Pk → Except FaultCode Pk} {s t : State}

theorem pkCommand_pk_only (h : pkCommand f s = .next t) : t = { s with pk := t.pk } := by
  obtain ⟨g, hg⟩ := pkCommand_lift f
  cases (hg s).symm.trans h
  rfl

/-- A command that keeps `CODE` and `CTSYM` when it is executed keeps them always: rule R172. -/
theorem pkCommand_keeps_table (h : pkCommand f s = .next t)
    (hok : ∀ p, f s.pk = .ok p → p = { p with code := s.pk.code, ctsym := s.pk.ctsym }) :
    t = { s with pk := { t.pk with code := s.pk.code, ctsym := s.pk.ctsym } } := by
  rcases pkCommand_cases f s with ⟨-, e⟩ | ⟨-, p, hp, e⟩ | ⟨-, c, -, e⟩ <;> cases e.symm.trans h
  · rfl
  · exact congrArg (fun q => { s with pk := q }) (hok p hp)
  · rfl

/-- A command that leaves `PKFAULT` as it was was dropped or executed: rule R110. -/
theorem pkCommand_of_same_fault (h : pkCommand f s = .next t) (he : ∀ c, f s.pk = .error c → c = .unsupportedInput)
    (hf : t.pk.fault = s.pk.fault) : t.pk = s.pk ∨ f s.pk = .ok t.pk := by
  rcases pkCommand_cases f s with ⟨-, e⟩ | ⟨-, p, hp, e⟩ | ⟨h0, c, hc, e⟩ <;> cases e.symm.trans h
  · exact .inl rfl
  · exact .inr hp
  · cases he c hc
    cases hf.trans h0

/-- A command that writes `CODE` and `CTSYM` alone when it is executed writes them alone unless it faults. -/
theorem pkCommand_table_only (h : pkCommand f s = .next t) (he : ∀ c, f s.pk = .error c → c = .unsupportedInput)
    (hok : ∀ p, f s.pk = .ok p → p = { s.pk with code := p.code, ctsym := p.ctsym }) :
    t = { s with pk := t.pk } ∧
      (t.pk.fault = s.pk.fault → t.pk = { s.pk with code := t.pk.code, ctsym := t.pk.ctsym }) := by
  refine ⟨pkCommand_pk_only h, fun hf => ?_⟩
  rcases pkCommand_of_same_fault h he hf with e | e
  · rw [e]
  · exact hok _ e

/-- `Append` keeps `PAD` unless it faults: rule R111. -/
theorem pkCommand_keeps_pad (h : pkCommand f s = .next t) (he : ∀ c, f s.pk = .error c → c = .unsupportedInput)
    (hok : ∀ p, f s.pk = .ok p → p = { s.pk with fifo := p.fifo, acc := p.acc }) (hf : t.pk.fault = s.pk.fault) :
    t.pk.pad = s.pk.pad := by
  rcases pkCommand_of_same_fault h he hf with e | e
  · rw [e]
  · rw [hok _ e]

end

/-- Settles O20: each command is a `pkCommand` whose operation writes only its own fields of PK. -/
theorem pkCommandFrame : Obligations.PkCommandFrame := by
  intro i s t h
  refine ⟨?_, ?_, ?_⟩
  · rintro (rfl | rfl | ⟨n, d, rfl⟩ | ⟨y, rfl⟩)
    · cases h; rfl
    · exact pkCommand_keeps_table h fun _ e => by rw [flush_frame e]
    · exact pkCommand_keeps_table h fun _ e => by rw [append_frame e]
    · exact pkCommand_keeps_table h fun _ e => by rw [append_frame (encodeSymbol_ok e)]
  · rintro (rfl | ⟨y, rfl⟩ | ⟨n, d, rfl⟩)
    · exact pkCommand_table_only (f := fun p => .ok p.emptied) h (fun _ e => nomatch e) fun _ e => by cases e; rfl
    · exact pkCommand_table_only (f := fun p => .ok (p.selected y)) h (fun _ e => nomatch e) fun _ e => by cases e; rfl
    · exact pkCommand_table_only h (fun _ => extendCode_error) fun _ e => by rw [extendCode_frame e]
  · rintro (⟨n, d, rfl⟩ | ⟨y, rfl⟩)
    · exact pkCommand_keeps_pad h (fun _ => append_error) fun _ => append_frame
    · exact pkCommand_keeps_pad h (fun _ => encodeSymbol_error) fun _ e => append_frame (encodeSymbol_ok e)

/-! ## What the invariant says: rule R48 -/

/-- Every open node is allocated: rule R48, item 4. -/
theorem Dec.TreeInv.stk_lt {d : Dec} (h : d.TreeInv) : ∀ e ∈ d.stk, e.1.val < d.ncount.val :=
  fun e he => (h.opens e he).1.1

/-- With nothing allocated no node is open. -/
theorem Dec.TreeInv.stk_nil {d : Dec} (h : d.TreeInv) (h0 : d.ncount.val = 0) : d.stk = [] := by
  refine List.eq_nil_iff_forall_not_mem.mpr fun e he => ?_
  have := h.stk_lt e he
  omega

/-- The children of a settled node are allocated: rule R48, item 4. -/
theorem Dec.TreeInv.child_lt {d : Dec} (h : d.TreeInv) {i c : NodeIdx} {l r : Option NodeIdx} (hi : d.Settled i)
    (hn : d.nodeAt i = .internal l r) (hc : l = some c ∨ r = some c) : c.val < d.ncount.val := by
  have hlinks := h.links i l r hi hn
  rcases l with _ | l <;> rcases r with _ | r <;> simp only [Dec.LinksOk] at hlinks <;> simp at hc
  · cases hc; exact hlinks.2.2
  · rcases hc with rfl | rfl <;> omega

/-- The only codes of `PKFAULT` are 0 and 3: rule R48, item 2. -/
theorem Pk.Inv.code_eq {cap : Nat} {p : Pk} (h : p.Inv cap) : p.fault.code = 0#2 ∨ p.fault.code = 3#2 := by
  rcases h.fault_code with hf | hf <;> simp [hf, FaultCode.code]

/-- Settles O51: item by item from the fields of the invariant. -/
theorem invariantSaysR48 : Obligations.InvariantSaysR48 := by
  intro s h
  have hT := h.dec.toTreeInv
  have htleaf := hT.tleaf_low
  have hcur := hT.cur_low
  refine ⟨⟨h.pk.acc_short, h.pk.fifo_fits, Nat.le_of_lt_succ s.pk.pad.isLt, h.pk.codes_short⟩,
    ⟨h.pk.code_eq, h.pk.fault_empty⟩,
    ⟨h.dec.fault_iff, fun hp => h.dec.obuf_nil (by simp [hp]) (by simp [hp])⟩,
    ⟨hT.stk_lt, fun _ => by omega, fun _ _ _ _ => hT.child_lt⟩, fun hp => ?_, fun hp => ?_,
    h.dec.obuf_fits, fun hne => (h.dec.obuf_phase hne).imp_right And.left⟩
  · obtain ⟨hd, hroot, hcurLeaf⟩ := h.dec.walk_ready hp
    obtain ⟨-, hstk, -⟩ := hT.done_iff.mp hd
    refine ⟨hd, hstk, hroot, hcurLeaf, fun i hi hl => ?_⟩
    obtain ⟨l, r, hn, -⟩ := hT.children hd hi hl
    exact ⟨l, r, hn⟩
  · obtain ⟨h0, hd, hc⟩ := h.dec.hdr_fresh hp
    exact ⟨h.dec.hdr_empty hp, hd, hT.stk_nil h0, h.dec.obuf_nil (by simp [hp]) (by simp [hp]), hc⟩

/-! ## What every access does to each unit: rules R46, R61 -/

/-- A `DEC.BYTE` before its faults are latched: rule R132. -/
def decByteResult (outCap : Nat) (byte : Byte) (last : Bool) (d : Dec) : Except DecStop Dec :=
  match d.phase with
  | .hdr => hdrByte byte last d
  | .tree => treeByte byte last d
  | .payload => payloadByte outCap byte last d
  | .done | .fault => .ok d

/-- DEC after an attempt from `d`: executed, or faulted (rule R173). A stop of the model leaves no state to speak of. -/
def decLatched (d : Dec) : Except DecStop Dec → Dec
  | .ok e => e
  | .error (.inl c) => decFaultEntry c d
  | .error (.inr _) => d

/-- The access acts on PK alone, by `g`. -/
def ActsOnPk (o : State → Host.Outcome State Fault Refusal) (g : Params → Pk → Pk) : Prop :=
  ∀ s, o s = .next { s with pk := g s.params s.pk }

/-- The access, if it does not stop, acts on DEC by `k`, and on nothing else but `ERR.SEQ`, which it may set. -/
def ActsOnDec (o : State → Host.Outcome State Fault Refusal) (k : Params → Dec → Dec) : Prop :=
  ∀ s t, o s = .next t → t = { s with dec := k s.params s.dec } ∨ (t = setSeq s ∧ k s.params s.dec = s.dec)

section
variable {o : State → Host.Outcome State Fault Refusal} {k : Params → Dec → Dec} {s t : State}

theorem ActsOnDec.pk_eq (hk : ActsOnDec o k) (h : o s = .next t) : t.pk = s.pk := by
  rcases hk s t h with rfl | ⟨rfl, -⟩ <;> rfl

theorem ActsOnDec.dec_eq (hk : ActsOnDec o k) (h : o s = .next t) : t.dec = k s.params s.dec := by
  rcases hk s t h with rfl | ⟨rfl, e⟩
  · rfl
  · exact e.symm

end

theorem pkCommand_acts (f : Params → Pk → Except FaultCode Pk) : ∃ g, ActsOnPk (fun s => pkCommand (f s.params) s) g := by
  choose g hg using fun q => pkCommand_lift (f q)
  exact ⟨g, fun s => hg s.params s⟩

theorem decCommand_latched {f : Dec → Except DecStop Dec} {s t : State} (h : decCommand f s = .next t) :
    t = { s with dec := decLatched s.dec (f s.dec) } := by
  rcases decCommand_cases f s with ⟨d, hd, e⟩ | ⟨c, hc, e⟩ | ⟨r, -, e⟩
  · rw [hd]; cases e.symm.trans h; rfl
  · rw [hc]; cases e.symm.trans h; rfl
  · cases e.symm.trans h

theorem execDecByte_acts (byte : Byte) (last : Bool) :
    ActsOnDec (execDecByte byte last) fun q d => decLatched d (decByteResult q.outCap byte last d) := by
  intro s t h
  unfold execDecByte at h
  cases hp : s.dec.phase <;> simp only [hp] at h <;> simp only [decByteResult, hp]
  · exact .inl (decCommand_latched h)
  · exact .inl (decCommand_latched h)
  · exact .inl (decCommand_latched h)
  · cases h; exact .inr ⟨rfl, rfl⟩
  · cases h; exact .inl rfl

/-- A command acts on the one unit it belongs to: rule R61. -/
theorem exec_command_acts {c : Instr} (hc : c.isCommand = true) :
    (∃ g, ActsOnPk (exec c) g) ∨ ∃ k, ActsOnDec (exec c) k := by
  cases c with
  | pkClr => exact .inl ⟨fun _ => pkRestart, fun _ => rfl⟩
  | pkCtclr => exact .inl (pkCommand_acts fun _ p => .ok p.emptied)
  | pkCtsel sym => exact .inl (pkCommand_acts fun _ p => .ok (p.selected sym))
  | pkCtapp n data => exact .inl (pkCommand_acts fun _ => extendCode n data)
  | pkPush n data => exact .inl (pkCommand_acts fun q => append q.pkFifoCap (bitsMSB n data))
  | pkEnc sym => exact .inl (pkCommand_acts fun q => encodeSymbol q.pkFifoCap sym)
  | pkFlush => exact .inl (pkCommand_acts fun q => flush q.pkFifoCap)
  | decClr => exact .inr ⟨fun _ => decRestart, fun _ _ h => by cases h; exact .inl rfl⟩
  | decByte byte last => exact .inr ⟨_, execDecByte_acts byte last⟩
  | _ => cases hc

/-- What an access can do to the state, said once. -/
inductive Effect (i : Instr) : Prop where
  /-- A `PK.*` command, or a write that is ignored. -/
  | onPk (g : Params → Pk → Pk) (h : ActsOnPk (exec i) g)
  /-- A `DEC.*` command. -/
  | onDec (k : Params → Dec → Dec) (h : ActsOnDec (exec i) k)
  /-- An illegal command word. -/
  | illegal (h : ∀ s, exec i s = .next (setIll s))
  /-- A write of `ERR`. -/
  | clearErr (w : Word) (hi : i = .wrErr w)
  /-- A read, which may pop. -/
  | read (g : Pk → Pk) (k : Dec → Dec) (r : State → Word)
      (h : ∀ s, exec i s = .next (reply (r s) { s with pk := g s.pk, dec := k s.dec }))

/-- A command in either spelling: rule R90. -/
theorem Effect.of_command {c i : Instr} (hc : c.isCommand = true) (hi : exec i = exec c) : Effect i := by
  rcases exec_command_acts hc with ⟨g, hg⟩ | ⟨k, hk⟩
  · exact .onPk g (hi ▸ hg)
  · exact .onDec k (hi ▸ hk)

theorem exec_effect (i : Instr) : Effect i := by
  cases i with
  | pkClr | pkCtclr | pkCtsel | pkCtapp | pkPush | pkEnc | pkFlush | decClr | decByte => exact .of_command rfl rfl
  | rdCmd | rdErr | rdPkStat | rdDecStat | rdDecLen | rdRsvd7 => exact .read id id _ fun _ => rfl
  | rdPkData => exact .read Pk.popped id _ exec_rdPkData
  | rdDecData => exact .read id Dec.popped _ exec_rdDecData
  | wrCmd w =>
    cases hw : decodeCmd w with
    | ok c => exact .of_command (decodeCmd_isCommand hw) (funext (exec_wrCmd_ok hw))
    | error e => exact .illegal (exec_wrCmd_error hw)
  | wrErr w => exact .clearErr w rfl
  | wrPkStat | wrPkData | wrDecStat | wrDecData | wrDecLen | wrRsvd7 => exact .onPk (fun _ => id) fun _ => rfl

section
variable {i : Instr} {s s' t t' : State}

/-- PK after an access depends on PK before it and on the parameters: rule R46. -/
theorem exec_pk_congr (hq : s.params = s'.params) (h : exec i s = .next t) (h' : exec i s' = .next t') (hpk : s.pk = s'.pk) :
    t.pk = t'.pk := by
  cases exec_effect i with
  | onPk g hg => cases (hg s).symm.trans h; cases (hg s').symm.trans h'; simp only [hq, hpk]
  | onDec k hk => rw [hk.pk_eq h, hk.pk_eq h', hpk]
  | illegal hi => cases (hi s).symm.trans h; cases (hi s').symm.trans h'; exact hpk
  | clearErr w hi => subst hi; cases h; cases h'; exact hpk
  | read g k r hr => cases (hr s).symm.trans h; cases (hr s').symm.trans h'; simp only [reply_pk, hpk]

/-- DEC after an access depends on DEC before it and on the parameters: rule R46. -/
theorem exec_dec_congr (hq : s.params = s'.params) (h : exec i s = .next t) (h' : exec i s' = .next t')
    (hdec : s.dec = s'.dec) : t.dec = t'.dec := by
  cases exec_effect i with
  | onPk g hg => cases (hg s).symm.trans h; cases (hg s').symm.trans h'; exact hdec
  | onDec k hk => rw [hk.dec_eq h, hk.dec_eq h', hq, hdec]
  | illegal hi => cases (hi s).symm.trans h; cases (hi s').symm.trans h'; exact hdec
  | clearErr w hi => subst hi; cases h; cases h'; exact hdec
  | read g k r hr => cases (hr s).symm.trans h; cases (hr s').symm.trans h'; simp only [reply_dec, hdec]

/-- An access other than `WR ERR` leaves `ERR` or sets one flag: rules R40, R170, R171. -/
theorem exec_err_cases (h : exec i s = .next t) :
    t.err = s.err ∨ t.err = { s.err with ill := true } ∨ t.err = { s.err with seq := true } ∨
      ∃ w, i = .wrErr w ∧ t.err = s.err.clear w := by
  cases exec_effect i with
  | onPk g hg => cases (hg s).symm.trans h; exact .inl rfl
  | onDec k hk =>
    rcases hk s t h with rfl | ⟨rfl, -⟩
    · exact .inl rfl
    · exact .inr (.inr (.inl rfl))
  | illegal hi => cases (hi s).symm.trans h; exact .inr (.inl rfl)
  | clearErr w hi => subst hi; cases h; exact .inr (.inr (.inr ⟨w, rfl, rfl⟩))
  | read g k r hr => cases (hr s).symm.trans h; exact .inl rfl

end

/-- Settles O54: what an access does to a unit is a function of that unit, and so is the word a read of it returns. -/
theorem unitsAreIsolated : Obligations.UnitsAreIsolated := by
  intro i s s' t t' hq h h'
  refine ⟨fun hpk => ⟨exec_pk_congr hq h h' hpk, ?_⟩, fun hdec => ⟨exec_dec_congr hq h h' hdec, ?_⟩⟩
  · rintro (rfl | rfl)
    · cases h; cases h'
      exact ⟨pkStatWord s.pk, rfl, by rw [hpk]; rfl⟩
    · cases (exec_rdPkData s).symm.trans h; cases (exec_rdPkData s').symm.trans h'
      exact ⟨headWord s.pk.fifo, rfl, by rw [hpk]; rfl⟩
  · rintro (rfl | rfl | rfl)
    · cases h; cases h'
      exact ⟨decStatWord s.dec, rfl, by rw [hdec]; rfl⟩
    · cases (exec_rdDecData s).symm.trans h; cases (exec_rdDecData s').symm.trans h'
      exact ⟨s.dec.dataWord, rfl, by rw [hdec]; rfl⟩
    · cases h; cases h'
      exact ⟨decLenWord s.dec, rfl, by rw [hdec]; rfl⟩

/-- Settles O57: only `WR ERR` clears, and only where its word has a 1. -/
theorem errFlagsAreSticky : Obligations.ErrFlagsAreSticky := by
  intro i s t h
  rcases exec_err_cases h with e | e | e | ⟨w, rfl, e⟩ <;> rw [e]
  · exact ⟨fun hf _ => hf, fun hf _ => hf⟩
  · exact ⟨fun _ _ => rfl, fun hf _ => hf⟩
  · exact ⟨fun hf _ => hf, fun _ _ => rfl⟩
  · constructor <;> intro hf hw <;> simp only [Err.clear, hf, hw w rfl] <;> rfl

end Sys2Proof.Machine

/-! # The reset state by four accesses (rules R47, R188)

Each of the four accesses clears its own part of the state and leaves what the others have cleared. -/

namespace Sys2Proof.Machine

/-- The four accesses of rule R188. -/
def clearers : List Instr := [.wrErr 3#32, .pkClr, .pkCtclr, .decClr]

/-- The accesses of `is` empty the table of `p`: `PK.CTCLR` is among them and is not dropped (rule R110), since `p` is not
faulted or `PK.CLR` comes before it. -/
def EmptiesTable (is : List Instr) (p : Pk) : Prop :=
  (p.fault = .noFault ∧ .pkCtclr ∈ is) ∨ [Instr.pkClr, .pkCtclr].Sublist is

theorem emptiesTable_cons {i : Instr} {is : List Instr} {p : Pk} :
    EmptiesTable (i :: is) p ↔
      EmptiesTable is p ∨ (p.fault = .noFault ∧ i = .pkCtclr) ∨ (i = .pkClr ∧ .pkCtclr ∈ is) := by
  simp only [EmptiesTable, List.cons_sublist_cons', List.singleton_sublist, List.mem_cons, eq_comm (a := Instr.pkCtclr),
    eq_comm (a := Instr.pkClr)]
  tauto

/-- After `PK.CLR` every `PK.CTCLR` is executed. -/
theorem EmptiesTable.after_pkClr {is : List Instr} {p : Pk} (h : EmptiesTable (.pkClr :: is) p) :
    EmptiesTable is (pkRestart p) := by
  rcases emptiesTable_cons.mp h with (⟨-, hm⟩ | hs) | ⟨-, hi⟩ | ⟨-, hm⟩
  · exact .inl ⟨rfl, hm⟩
  · exact .inr hs
  · cases hi
  · exact .inl ⟨rfl, hm⟩

theorem exec_wrErr_three (s : State) : exec (.wrErr 3#32) s = .next { s with err := .reset } := by
  have he : s.err.clear 3#32 = .reset := by simp [Err.clear, Err.reset]
  rw [← he]
  rfl

theorem exec_pkClr (s : State) : exec .pkClr s = .next { s with pk := pkRestart s.pk } := rfl

theorem exec_decClr (s : State) : exec .decClr s = .next { s with dec := decRestart s.dec } := rfl

@[simp] theorem decRestart_decRestart (d : Dec) : decRestart (decRestart d) = decRestart d := rfl

theorem exec_pkCtclr_of_noFault {s : State} (h : s.pk.fault = .noFault) :
    exec .pkCtclr s = .next { s with pk := s.pk.emptied } := if_pos h

theorem exec_pkCtclr_of_fault {s : State} (h : s.pk.fault ≠ .noFault) : exec .pkCtclr s = .next s := if_neg h

/-- PK is in its reset state when it is both just restarted and emptied: rules R47, R112, R118. -/
theorem Pk.eq_reset {p : Pk} (h1 : p = pkRestart p) (h2 : p = p.emptied) : p = .reset := by
  rw [h2, h1]
  rfl

/-- What a list of the four accesses does, whatever their order: what one of them has cleared stays clear. -/
theorem execAll_clearers {is : List Instr} (his : ∀ i ∈ is, i ∈ clearers) (s : State) :
    ∃ p, execAll is s = .next { s with
        pk := p
        dec := if .decClr ∈ is then decRestart s.dec else s.dec
        err := if .wrErr 3#32 ∈ is then .reset else s.err } ∧
      (.pkClr ∈ is ∨ s.pk = pkRestart s.pk → p = pkRestart p) ∧
      (EmptiesTable is s.pk ∨ s.pk = s.pk.emptied → p = p.emptied) := by
  induction is generalizing s with
  | nil => exact ⟨s.pk, rfl, by simp, by simp [EmptiesTable]⟩
  | cons i is ih =>
    have ih := ih fun j hj => his j (List.mem_cons_of_mem i hj)
    have hi := his i List.mem_cons_self
    simp only [clearers, List.mem_cons, List.not_mem_nil, or_false] at hi
    rcases hi with rfl | rfl | rfl | rfl
    · obtain ⟨p, e, hclr, htab⟩ := ih { s with err := .reset }
      exact ⟨p, by simp [execAll, exec_wrErr_three, e], by simpa using hclr, by simpa [emptiesTable_cons] using htab⟩
    · obtain ⟨p, e, hclr, htab⟩ := ih { s with pk := pkRestart s.pk }
      refine ⟨p, by simp [execAll, exec_pkClr, e], fun _ => hclr (.inr rfl), fun h => htab ?_⟩
      exact h.imp EmptiesTable.after_pkClr (congrArg pkRestart)
    · by_cases hf : s.pk.fault = .noFault
      · obtain ⟨p, e, hclr, htab⟩ := ih { s with pk := s.pk.emptied }
        refine ⟨p, by simp [execAll, exec_pkCtclr_of_noFault hf, e], fun h => hclr ?_, fun _ => htab (.inr rfl)⟩
        exact h.imp (by simp) (congrArg Pk.emptied)
      · obtain ⟨p, e, hclr, htab⟩ := ih s
        refine ⟨p, by simp [execAll, exec_pkCtclr_of_fault hf, e], by simpa using hclr, ?_⟩
        simpa [emptiesTable_cons, hf] using htab
    · obtain ⟨p, e, hclr, htab⟩ := ih { s with dec := decRestart s.dec }
      exact ⟨p, by simp [execAll, exec_decClr, e], by simpa using hclr, by simpa [emptiesTable_cons] using htab⟩

/-- Settles O56: all four accesses are in the list, so every part is cleared. -/
theorem hostCanEstablishReset : Obligations.HostCanEstablishReset := by
  intro order s hperm hpk
  have hmem : ∀ i, i ∈ order ↔ i ∈ clearers := fun _ => hperm.mem_iff
  have hempties : EmptiesTable order s.pk := hpk.imp_left fun hf => ⟨hf, (hmem _).mpr (by simp [clearers])⟩
  obtain ⟨p, e, hclr, htab⟩ := execAll_clearers (fun i hi => (hmem i).mp hi) s
  have hp : p = .reset := Pk.eq_reset (hclr (.inl ((hmem _).mpr (by simp [clearers])))) (htab (.inl hempties))
  simp only [e, hp, hmem, clearers, List.mem_cons, true_or, or_true, if_true]
  rfl

end Sys2Proof.Machine

/-! # Decoding what the encoder writes, and the step (rules R60, R80 to R90)

The decoder takes back each field of an encoded command word, so a step runs the instruction whose access is first at the
port. -/

namespace Sys2Proof

/-! ## The fields of an encoded word: rules R80 to R84 -/

/-- The field between two others is taken back. -/
theorem extractLsb'_append_middle {a b c : Nat} (x : BitVec a) (y : BitVec b) (z : BitVec c) :
    (x ++ y ++ z).extractLsb' c b = y := by
  rw [BitVec.extractLsb'_append_eq_of_le (Nat.le_refl c), Nat.sub_self]
  exact BitVec.extractLsb'_append_eq_right

section
variable (op : BitVec 4) (byte : Byte) (last : Bool) (n : Nat) (data : BitVec 16)

@[simp] theorem opField_encodeZ : opField (encodeZ op) = op := BitVec.extractLsb'_append_eq_left

@[simp] theorem opField_encodeS : opField (encodeS op byte) = op :=
  (BitVec.extractLsb'_append_eq_of_le (by decide)).trans BitVec.extractLsb'_append_eq_left

@[simp] theorem opField_encodeB : opField (encodeB op n data) = op :=
  (BitVec.extractLsb'_append_eq_of_le (by decide)).trans
    ((BitVec.extractLsb'_append_eq_of_le (by decide)).trans BitVec.extractLsb'_append_eq_left)

@[simp] theorem opField_encodeD : opField (encodeD op byte last) = op :=
  (BitVec.extractLsb'_append_eq_of_le (by decide)).trans
    ((BitVec.extractLsb'_append_eq_of_le (by decide)).trans BitVec.extractLsb'_append_eq_left)

@[simp] theorem byteField_encodeS : byteField (encodeS op byte) = byte := BitVec.extractLsb'_append_eq_right

@[simp] theorem byteField_encodeD : byteField (encodeD op byte last) = byte := BitVec.extractLsb'_append_eq_right

@[simp] theorem lastField_encodeD : lastField (encodeD op byte last) = last :=
  BitVec.getLsbD_append.trans (BitVec.getLsbD_append.trans (by simp))

@[simp] theorem dataField_encodeB : dataField (encodeB op n data) = data := BitVec.extractLsb'_append_eq_right

@[simp] theorem countField_encodeB : countField (encodeB op n data) = BitVec.ofNat 5 n := extractLsb'_append_middle _ _ _

/-! ## Format by format -/

@[simp] theorem decodeZ_encodeZ (i : Instr) : decodeZ i (encodeZ op) = .ok i := if_pos BitVec.extractLsb'_append_eq_right

@[simp] theorem decodeS_encodeS (f : Byte → Instr) : decodeS f (encodeS op byte) = .ok (f byte) := by
  have hzero : (encodeS op byte).extractLsb' 8 20 = 0#20 := extractLsb'_append_middle _ _ _
  rw [decodeS, if_pos hzero, byteField_encodeS]

@[simp] theorem decodeD_encodeD (f : Byte → Bool → Instr) : decodeD f (encodeD op byte last) = .ok (f byte last) := by
  have hzero : (encodeD op byte last).extractLsb' 9 19 = 0#19 :=
    (BitVec.extractLsb'_append_eq_of_le (by decide)).trans (extractLsb'_append_middle _ _ _)
  rw [decodeD, if_pos hzero, byteField_encodeD, lastField_encodeD]

end

/-- Format B is taken back when its operands fit: rule R83. A count of at most 16 fits the 5-bit field. -/
theorem decodeB_encodeB {n : Nat} {data : BitVec 16} (op : BitVec 4) (f : Nat → BitVec 16 → Instr)
    (h : formatBOk n data = true) : decodeB f (encodeB op n data) = .ok (f n data) := by
  obtain ⟨hcount, hdata⟩ := Bool.and_eq_true_iff.mp h
  have hzero : (encodeB op n data).extractLsb' 21 7 = 0#7 :=
    (BitVec.extractLsb'_append_eq_of_le (by decide)).trans (extractLsb'_append_middle _ _ _)
  have hn : (countField (encodeB op n data)).toNat = n := by
    simp only [countOk, Config.pushMax, Bool.and_eq_true, decide_eq_true_eq] at hcount
    rw [countField_encodeB, BitVec.toNat_ofNat]
    omega
  rw [decodeB, if_pos hzero, hn, dataField_encodeB, if_pos hcount, if_pos hdata]

/-! ## Whole instructions -/

/-- The word of a well-formed command decodes to the command: rule R85. -/
theorem decodeCmd_encodeWord {c : Instr} (hc : c.isCommand = true) (hw : c.wellFormed = true) :
    decodeCmd (encodeWord c) = .ok c := by
  cases c with
  | pkClr | pkCtclr | pkCtsel | pkEnc | pkFlush | decClr | decByte => simp [decodeCmd, encodeWord, encode, writeOf]
  | pkCtapp n data | pkPush n data => simp [decodeCmd, encodeWord, encode, writeOf, decodeB_encodeB _ _ hw]
  | _ => cases hc

theorem decode_writeOf_zero (w : Word) : decode (writeOf 0 w) = decodeCmdWrite w := rfl

theorem decodeCmdWrite_ok {w : Word} {c : Instr} (h : decodeCmd w = .ok c) : decodeCmdWrite w = c := by
  rw [decodeCmdWrite, h]

/-- A command is its word written to `CMD`: rule R80. -/
theorem encode_command {c : Instr} (hc : c.isCommand = true) : encode c = writeOf 0 (encodeWord c) := by
  cases c with
  | pkClr | pkCtclr | pkCtsel | pkCtapp | pkPush | pkEnc | pkFlush | decClr | decByte => rfl
  | _ => cases hc

theorem decode_encode_command {c : Instr} (hc : c.isCommand = true) (hw : c.wellFormed = true) : decode (encode c) = c := by
  rw [encode_command hc, decode_writeOf_zero, decodeCmdWrite_ok (decodeCmd_encodeWord hc hw)]

/-- The access of a well-formed instruction decodes to it, a command in its one spelling: rules R80 to R90. -/
theorem decode_encode {i : Instr} (hw : i.wellFormed = true) : decode (encode i) = i.canonical := by
  cases i with
  | pkClr | pkCtclr | pkCtsel | pkCtapp | pkPush | pkEnc | pkFlush | decClr | decByte => exact decode_encode_command rfl hw
  | _ => rfl

/-- The access of a row's bits decodes to the row's instruction. -/
theorem decode_tableAccess {nbits w : Nat} {i : Instr} (h : decodeTableWord nbits w = some i) :
    decode (tableAccess nbits w) = i := by
  by_cases hn : nbits = 32
  · rw [decodeTableWord, if_pos hn] at h
    rw [tableAccess, if_pos hn, decode_writeOf_zero]
    cases hd : decodeCmd (BitVec.ofNat 32 w) with
    | ok c =>
      simp only [hd, Option.ite_none_right_eq_some, Option.some.injEq] at h
      exact (decodeCmdWrite_ok hd).trans h.2
    | error e => simp [hd] at h
  · rw [decodeTableWord, if_neg hn, Option.ite_none_right_eq_some, Option.some.injEq] at h
    exact h.2

namespace Machine

/-! ## The step: rule R60 -/

theorem step_of_access {s : State} {a : Access} {rest : List Input} (h : s.port = .access a :: rest) :
    step s = exec (decode a) { s with port := rest } := by
  rw [step, h]

theorem step_of_empty_port {s : State} (h : s.port = []) : step s = .next s := by
  rw [step, h]

/-- Settles O7: the step decodes the access, and decoding takes back what `encode` or a table row placed. -/
theorem stepRunsTheDecodedInstruction : Obligations.StepRunsTheDecodedInstruction := by
  refine ⟨fun s a rest => step_of_access, fun s i rest hw hp => ?_, fun s nbits w i hi => ?_, fun s => step_of_empty_port⟩
  · rw [step_of_access hp, decode_encode hw, exec_canonical]
  · have hstep : step (s.withFetchWord nbits w) = exec (decode (tableAccess nbits w)) s := step_of_access rfl
    rw [hstep, decode_tableAccess hi]

end Machine
end Sys2Proof

/-! # Commands of the two units commute; reads reply, writes do not (rules R53, R61)

A command of DEC does not look at PK and does not touch it, and a command of PK acts on PK alone. -/

namespace Sys2Proof.Machine

/-! ## A command of PK and one of DEC: rule R61 -/

/-- The access does not look at PK: with another PK before it, it answers the same with that PK after it, a stop included. -/
def IgnoresPk (o : State → Host.Outcome State Fault Refusal) : Prop :=
  ∀ s p, o { s with pk := p } = andThen (o s) fun t => .next { t with pk := p }

theorem decCommand_ignoresPk (f : Dec → Except DecStop Dec) : IgnoresPk (decCommand f) := by
  intro s p
  rcases decCommand_cases f s with ⟨d, hd, e⟩ | ⟨c, hc, e⟩ | ⟨r, hr, e⟩ <;> rw [e]
  · simp only [decCommand, hd, andThen]
  · simp only [decCommand, hc, andThen]
  · simp only [decCommand, hr, andThen]

theorem execDecByte_ignoresPk (byte : Byte) (last : Bool) : IgnoresPk (execDecByte byte last) := by
  intro s p
  unfold execDecByte
  cases s.dec.phase
  · exact decCommand_ignoresPk (hdrByte byte last) s p
  · exact decCommand_ignoresPk (treeByte byte last) s p
  · exact decCommand_ignoresPk (payloadByte s.params.outCap byte last) s p
  · rfl
  · rfl

/-- A command that acts on PK alone commutes with one that acts on DEC and does not look at PK. -/
theorem ActsOnPk.commutes {o o' : State → Host.Outcome State Fault Refusal} {g : Params → Pk → Pk} {k : Params → Dec → Dec}
    (hg : ActsOnPk o g) (hk : ActsOnDec o' k) (hi : IgnoresPk o') (s : State) :
    andThen (o s) o' = andThen (o' s) o := by
  calc andThen (o s) o' = o' { s with pk := g s.params s.pk } := by rw [hg s]; rfl
    _ = andThen (o' s) fun t => .next { t with pk := g s.params s.pk } := hi s _
    _ = andThen (o' s) o := ?_
  cases h : o' s with
  | next t =>
    have hparams : t.params = s.params := by rcases hk s t h with rfl | ⟨rfl, -⟩ <;> rfl
    simp only [andThen, hg t, hk.pk_eq h, hparams]
  | fault r => rfl
  | refused r => rfl

/-- Settles O53: a `PK.*` command acts on PK alone, and a `DEC.*` command does not look at PK. -/
theorem pkAndDecCommute : Obligations.PkAndDecCommute := by
  intro i j s hi hj
  have hpk : ∃ g, ActsOnPk (exec i) g := by
    rcases hi with rfl | rfl | ⟨y, rfl⟩ | ⟨n, d, rfl⟩ | ⟨n, d, rfl⟩ | ⟨y, rfl⟩ | rfl
    · exact ⟨fun _ => pkRestart, fun _ => rfl⟩
    · exact pkCommand_acts fun _ p => .ok p.emptied
    · exact pkCommand_acts fun _ p => .ok (p.selected y)
    · exact pkCommand_acts fun _ => extendCode n d
    · exact pkCommand_acts fun q => append q.pkFifoCap (bitsMSB n d)
    · exact pkCommand_acts fun q => encodeSymbol q.pkFifoCap y
    · exact pkCommand_acts fun q => flush q.pkFifoCap
  obtain ⟨g, hg⟩ := hpk
  rcases hj with rfl | ⟨b, l, rfl⟩
  · exact hg.commutes (k := fun _ => decRestart) (fun _ _ h => by cases h; exact .inl rfl) (fun _ _ => rfl) s
  · exact hg.commutes (execDecByte_acts b l) (execDecByte_ignoresPk b l) s

/-! ## What the host sees: rule R53 -/

section
variable {i : Instr} {s t : State}

/-- A command leaves the port, the replies and the parameters. -/
theorem exec_command_frame (hc : i.isCommand = true) (h : exec i s = .next t) :
    t = { s with pk := t.pk, dec := t.dec, err := t.err } := by
  rcases exec_command_acts hc with ⟨g, hg⟩ | ⟨k, hk⟩
  · cases (hg s).symm.trans h; rfl
  · rcases hk s t h with rfl | ⟨rfl, -⟩ <;> rfl

/-- A write leaves the port, the replies and the parameters, a command in either spelling among them. -/
theorem exec_write_frame (hi : (encode i).write = true) (h : exec i s = .next t) :
    t = { s with pk := t.pk, dec := t.dec, err := t.err } := by
  cases i with
  | pkClr | pkCtclr | pkCtsel | pkCtapp | pkPush | pkEnc | pkFlush | decClr | decByte => exact exec_command_frame rfl h
  | wrCmd w =>
    cases hw : decodeCmd w with
    | ok c => exact exec_command_frame (decodeCmd_isCommand hw) ((exec_wrCmd_ok hw s).symm.trans h)
    | error e => cases (exec_wrCmd_error hw s).symm.trans h; rfl
  | wrErr | wrPkStat | wrPkData | wrDecStat | wrDecData | wrDecLen | wrRsvd7 => cases h; rfl
  | _ => cases hi

/-- A read replies with one word and pops at most the data queues of PK and DEC. -/
theorem exec_read_frame (hi : (encode i).write = false) (h : exec i s = .next t) :
    ∃ w, t = reply w { s with pk := t.pk, dec := t.dec } := by
  cases i with
  | rdCmd | rdErr | rdPkStat | rdDecStat | rdDecLen | rdRsvd7 => cases h; exact ⟨_, rfl⟩
  | rdPkData => cases (exec_rdPkData s).symm.trans h; exact ⟨_, rfl⟩
  | rdDecData => cases (exec_rdDecData s).symm.trans h; exact ⟨_, rfl⟩
  | _ => cases hi

end

/-- Settles O60: an access is a read or a write, and each has its frame; the six reads that do not pop leave the units too. -/
theorem readsReplyOnceWritesNever : Obligations.ReadsReplyOnceWritesNever := by
  intro i s t h
  refine ⟨fun hi => ?_, ?_⟩
  · simp only [List.mem_cons, List.not_mem_nil, or_false] at hi
    rcases hi with rfl | rfl | rfl | rfl | rfl | rfl <;> cases h <;> exact ⟨_, rfl⟩
  · cases hw : (encode i).write with
    | true => rw [exec_write_frame hw h]; exact ⟨nofun, fun _ => rfl, rfl, rfl⟩
    | false =>
      obtain ⟨w, e⟩ := exec_read_frame hw h
      rw [e]
      exact ⟨fun _ => ⟨w, rfl⟩, nofun, rfl, rfl⟩

end Sys2Proof.Machine

/-! # Command words and their commands, one to one (rules R80 to R86)

A legal word is the encoding of its command, and the words that are not legal are those of rule R86's four cases. -/

namespace Sys2Proof

/-- Settles O2: `decode_encode` for every access, `decodeCmd_encodeWord` for the word of a command. -/
theorem decodeEncodeAgree : Obligations.DecodeEncodeAgree := fun _ hw =>
  ⟨decode_encode hw, fun hc => decodeCmd_encodeWord hc hw⟩

/-- Settles O1: closed words, decoded one by one. -/
theorem specWordsDecode : Obligations.SpecWordsDecode := by
  unfold Obligations.SpecWordsDecode
  decide

/-! ## A word is its fields and the zeros of its format: rules R81 to R84 -/

section
variable {w : Word}

theorem encodeZ_fields (h : w.extractLsb' 0 28 = 0#28) : encodeZ (opField w) = w := by
  rw [encodeZ, ← h, opField, BitVec.extractLsb'_append_extractLsb'_eq_extractLsb' (by decide)]
  exact BitVec.extractLsb'_eq_self

theorem encodeS_fields (h : w.extractLsb' 8 20 = 0#20) : encodeS (opField w) (byteField w) = w := by
  rw [encodeS, ← h, opField, BitVec.extractLsb'_append_extractLsb'_eq_extractLsb' (by decide),
    byteField, BitVec.extractLsb'_append_extractLsb'_eq_extractLsb' (by decide)]
  exact BitVec.extractLsb'_eq_self

theorem encodeB_fields (h : w.extractLsb' 21 7 = 0#7) : encodeB (opField w) (countField w).toNat (dataField w) = w := by
  rw [encodeB, ← h, opField, BitVec.extractLsb'_append_extractLsb'_eq_extractLsb' (by decide),
    BitVec.ofNat_toNat, BitVec.setWidth_eq, countField, BitVec.extractLsb'_append_extractLsb'_eq_extractLsb' (by decide),
    dataField, BitVec.extractLsb'_append_extractLsb'_eq_extractLsb' (by decide)]
  exact BitVec.extractLsb'_eq_self

theorem ofBool_lastField : BitVec.ofBool (lastField w) = w.extractLsb' 8 1 := by
  ext j hj
  obtain rfl : j = 0 := by omega
  simp [lastField]

theorem encodeD_fields (h : w.extractLsb' 9 19 = 0#19) : encodeD (opField w) (byteField w) (lastField w) = w := by
  rw [encodeD, ← h, opField, BitVec.extractLsb'_append_extractLsb'_eq_extractLsb' (by decide),
    ofBool_lastField, BitVec.extractLsb'_append_extractLsb'_eq_extractLsb' (by decide),
    byteField, BitVec.extractLsb'_append_extractLsb'_eq_extractLsb' (by decide)]
  exact BitVec.extractLsb'_eq_self

end

/-! ## A legal word is the encoding of its command: rule R85 -/

section
variable {w : Word} {c : Instr} {op : BitVec 4}

theorem encodeWord_of_decodeZ (hop : (opField w).toNat = op.toNat) {i : Instr}
    (hi : encodeWord i = encodeZ op) (h : decodeZ i w = .ok c) : encodeWord c = w := by
  rw [decodeZ] at h
  split_ifs at h with hzero
  cases h
  rw [hi, ← BitVec.eq_of_toNat_eq hop, encodeZ_fields hzero]

theorem encodeWord_of_decodeS (hop : (opField w).toNat = op.toNat) {f : Byte → Instr}
    (hf : ∀ sym, encodeWord (f sym) = encodeS op sym) (h : decodeS f w = .ok c) : encodeWord c = w := by
  rw [decodeS] at h
  split_ifs at h with hzero
  cases h
  rw [hf, ← BitVec.eq_of_toNat_eq hop, encodeS_fields hzero]

theorem encodeWord_of_decodeB (hop : (opField w).toNat = op.toNat) {f : Nat → BitVec 16 → Instr}
    (hf : ∀ n data, encodeWord (f n data) = encodeB op n data) (h : decodeB f w = .ok c) : encodeWord c = w := by
  rw [decodeB] at h
  split_ifs at h with hzero
  cases h
  rw [hf, ← BitVec.eq_of_toNat_eq hop, encodeB_fields hzero]

theorem encodeWord_of_decodeD (hop : (opField w).toNat = op.toNat) {f : Byte → Bool → Instr}
    (hf : ∀ byte last, encodeWord (f byte last) = encodeD op byte last) (h : decodeD f w = .ok c) : encodeWord c = w := by
  rw [decodeD] at h
  split_ifs at h with hzero
  cases h
  rw [hf, ← BitVec.eq_of_toNat_eq hop, encodeD_fields hzero]

/-- No bit of a legal word is dropped: the opcode is the command's own, and the format keeps every other bit. -/
theorem encodeWord_of_decodeCmd (h : decodeCmd w = .ok c) : encodeWord c = w := by
  rw [decodeCmd] at h
  split at h
  next hop => exact encodeWord_of_decodeZ (op := 0x1) hop rfl h
  next hop => exact encodeWord_of_decodeZ (op := 0x2) hop rfl h
  next hop => exact encodeWord_of_decodeS (op := 0x3) hop (fun _ => rfl) h
  next hop => exact encodeWord_of_decodeB (op := 0x4) hop (fun _ _ => rfl) h
  next hop => exact encodeWord_of_decodeB (op := 0x5) hop (fun _ _ => rfl) h
  next hop => exact encodeWord_of_decodeS (op := 0x6) hop (fun _ => rfl) h
  next hop => exact encodeWord_of_decodeZ (op := 0x7) hop rfl h
  next hop => exact encodeWord_of_decodeZ (op := 0x8) hop rfl h
  next hop => exact encodeWord_of_decodeD (op := 0x9) hop (fun _ _ => rfl) h
  next => cases h

end

/-- Settles O3: the encoder writes the word again, and the decoder answers well-formed commands only. -/
theorem encodeDecodeAgree : Obligations.EncodeDecodeAgree := fun _ _ h =>
  ⟨encodeWord_of_decodeCmd h, decodeCmd_wellFormed h, decodeCmd_isCommand h⟩

/-! ## Illegal words: rule R86, on the word as a number -/

theorem countOk_eq_false_iff {n : Nat} : countOk n = false ↔ n = 0 ∨ 16 < n := by
  simp only [countOk, Config.pushMax, Bool.and_eq_false_iff, decide_eq_false_iff_not]
  omega

theorem dataOk_eq_false_iff {n : Nat} {data : BitVec 16} : dataOk n data = false ↔ data.toNat / 2 ^ n ≠ 0 := by
  rw [dataOk, beq_eq_false_iff_ne, Ne, ← BitVec.toNat_inj, BitVec.toNat_ushiftRight, Nat.shiftRight_eq_div_pow]
  rfl

section
variable (w : Word)

theorem opField_toNat : (opField w).toNat = w.toNat / 2 ^ 28 := by
  rw [opField, BitVec.extractLsb'_toNat, Nat.shiftRight_eq_div_pow]
  omega

theorem countField_toNat : (countField w).toNat = w.toNat / 2 ^ 16 % 32 := by
  rw [countField, BitVec.extractLsb'_toNat, Nat.shiftRight_eq_div_pow]

theorem dataField_toNat : (dataField w).toNat = w.toNat % 2 ^ 16 := BitVec.extractLsb'_toNat ..

/-- A field is 0 when the word has no bit under the field's mask. -/
theorem extractLsb'_eq_zero_iff_mask (lo n : Nat) (h : lo + n ≤ 32) :
    w.extractLsb' lo n = 0#n ↔ w &&& ((BitVec.allOnes n).setWidth 32 <<< lo) = 0#32 := by
  simp only [BitVec.eq_of_getLsbD_eq_iff, BitVec.getLsbD_extractLsb', BitVec.getLsbD_and, BitVec.getLsbD_shiftLeft,
    BitVec.getLsbD_setWidth, BitVec.getLsbD_allOnes, BitVec.getLsbD_zero]
  constructor
  · intro hfield j hj
    have hbit := hfield (j - lo)
    grind
  · intro hmask j hj
    have hbit := hmask (lo + j)
    grind

theorem decodeZ_error_iff (i : Instr) : (∃ e, decodeZ i w = .error e) ↔ w &&& 0x0FFFFFFF#32 ≠ 0#32 := by
  have hmask : w.extractLsb' 0 28 = 0#28 ↔ w &&& 0x0FFFFFFF#32 = 0#32 := extractLsb'_eq_zero_iff_mask w 0 28 (by decide)
  rw [Ne, ← hmask, decodeZ]
  split_ifs with hzero <;> simp [hzero]

theorem decodeS_error_iff (f : Byte → Instr) : (∃ e, decodeS f w = .error e) ↔ w &&& 0x0FFFFF00#32 ≠ 0#32 := by
  have hmask : w.extractLsb' 8 20 = 0#20 ↔ w &&& 0x0FFFFF00#32 = 0#32 := extractLsb'_eq_zero_iff_mask w 8 20 (by decide)
  rw [Ne, ← hmask, decodeS]
  split_ifs with hzero <;> simp [hzero]

theorem decodeD_error_iff (f : Byte → Bool → Instr) : (∃ e, decodeD f w = .error e) ↔ w &&& 0x0FFFFE00#32 ≠ 0#32 := by
  have hmask : w.extractLsb' 9 19 = 0#19 ↔ w &&& 0x0FFFFE00#32 = 0#32 := extractLsb'_eq_zero_iff_mask w 9 19 (by decide)
  rw [Ne, ← hmask, decodeD]
  split_ifs with hzero <;> simp [hzero]

theorem decodeB_error_iff (f : Nat → BitVec 16 → Instr) :
    (∃ e, decodeB f w = .error e) ↔
      w &&& 0x0FE00000#32 ≠ 0#32 ∨ w.toNat / 2 ^ 16 % 32 = 0 ∨ 16 < w.toNat / 2 ^ 16 % 32 ∨
        w.toNat % 2 ^ 16 / 2 ^ (w.toNat / 2 ^ 16 % 32) ≠ 0 := by
  have hmask : w.extractLsb' 21 7 = 0#7 ↔ w &&& 0x0FE00000#32 = 0#32 := extractLsb'_eq_zero_iff_mask w 21 7 (by decide)
  rw [← countField_toNat, ← dataField_toNat, ← dataOk_eq_false_iff, ← or_assoc (b := _ < _), ← countOk_eq_false_iff, Ne,
    ← hmask, decodeB]
  split_ifs with hzero hcount hdata
  · simp [hzero, hcount, hdata]
  · simp [hdata]
  · simp [hcount]
  · simp [hzero]

end

/-- Settles O4: whatever the opcode, its format refuses the word exactly as rule R86 says. -/
theorem illegalWordsOnlySetIll : Obligations.IllegalWordsOnlySetIll := by
  intro w op n data illegal
  have hiff : (∃ e, decodeCmd w = .error e) ↔ illegal := by
    have hop : (opField w).toNat = op := opField_toNat w
    simp only [illegal, n, data]
    clear_value op
    rw [decodeCmd, hop]
    split
    case h_1 | h_2 | h_7 | h_8 => simp [decodeZ_error_iff]
    case h_3 | h_6 => simp [decodeS_error_iff]
    case h_4 | h_5 => simp [decodeB_error_iff]
    case h_9 => simp [decodeD_error_iff]
    case h_10 =>
      have hreserved : op = 0 ∨ 10 ≤ op := by grind
      simp [hreserved]
  exact ⟨hiff, fun hill s => (hiff.mpr hill).elim fun _ he => Machine.exec_wrCmd_error he s⟩

end Sys2Proof

/-! # The tree section (rules R71, R100 to R109)

`Parse` undoes `Ser`; what a tag bit, a symbol bit and a byte of the tree section do; the shape of the arena. -/

namespace Sys2Proof.Machine

/-! ## `Parse` undoes `Ser`: rules R71, R108, R109 -/

/-- A leaf is read back from its tag and the eight bits of its symbol. -/
theorem parseFuel_leaf {fuel k : Nat} (sym : Byte) (r : Bits) (hk : k < Config.nodeCap) :
    parseFuel (fuel + 1) ((CodeTree.leaf sym).ser ++ r) k = .ok (.leaf sym, r, k + 1) := by
  have hlen : ¬(bitsMSB 8 sym ++ r).length < 8 := by simp
  simp only [CodeTree.ser, List.cons_append, parseFuel, Nat.ne_of_lt hk, hlen, if_false, if_true,
    List.take_left' (length_bitsMSB 8 sym), List.drop_left' (length_bitsMSB 8 sym), byteOf_bitsMSB]

/-- An Internal node is read back from its tag and its two subtrees. -/
theorem parseFuel_internal {fuel k k1 k2 : Nat} {l t : CodeTree} {s r1 r2 : Bits} (hk : k < Config.nodeCap)
    (hl : parseFuel fuel s (k + 1) = .ok (l, r1, k1)) (ht : parseFuel fuel r1 k1 = .ok (t, r2, k2)) :
    parseFuel (fuel + 1) (false :: s) k = .ok (.internal l t, r2, k2) := by
  simp only [parseFuel, Nat.ne_of_lt hk, if_false, Bool.false_eq_true, hl, ht]

/-- From any count `k` of nodes before it, a tree that fits is read back, and what follows it is left. -/
theorem parseFuel_ser (t : CodeTree) {fuel k : Nat} (r : Bits) (hfuel : t.nodes ≤ fuel) (hk : k + t.nodes ≤ Config.nodeCap) :
    parseFuel fuel (t.ser ++ r) k = .ok (t, r, k + t.nodes) := by
  induction t generalizing fuel k r with
  | leaf sym =>
    simp only [CodeTree.nodes] at hfuel hk ⊢
    obtain ⟨fuel, rfl⟩ := Nat.exists_eq_add_one_of_ne_zero (n := fuel) (by omega)
    exact parseFuel_leaf sym r (by omega)
  | internal l t ihl iht =>
    simp only [CodeTree.nodes] at hfuel hk ⊢
    obtain ⟨fuel, rfl⟩ := Nat.exists_eq_add_one_of_ne_zero (n := fuel) (by omega)
    have hleft := ihl (fuel := fuel) (k := k + 1) (t.ser ++ r) (by omega) (by omega)
    have hright := iht (fuel := fuel) (k := k + 1 + l.nodes) r (by omega) (by omega)
    rw [CodeTree.ser, List.cons_append, List.append_assoc, parseFuel_internal (by omega) hleft hright]
    congr 3
    omega

/-- Settles O36: from an empty count, with fuel for the whole arena. -/
theorem parseUndoesSer : Obligations.ParseUndoesSer := by
  intro t r ht
  rw [parse, parseFuel_ser t r (Nat.le_succ_of_le ht) (by rwa [Nat.zero_add]), Nat.zero_add]

/-! ## A tag bit: rule R101 -/

/-- What linking node `i` to its parent makes of `d` in a state between two bits. -/
structure Dec.LinkedBy (d d1 : Dec) (i : NodeIdx) : Prop where
  frame : d1 = { d with node := d1.node, stk := d1.stk }
  others : ∀ j, d.stk.head?.map Prod.fst ≠ some j → d1.nodeAt j = d.nodeAt j
  root : d.stk = [] → d1.stk = [] ∧ i = 0
  left : ∀ p rest, d.stk = (p, .left) :: rest → d1.stk = (p, .right) :: rest ∧ d.nodeAt p = .internal none none ∧
    d1.nodeAt p = .internal (some i) none ∧ i.val = p.val + 1
  right : ∀ p rest, d.stk = (p, .right) :: rest → d1.stk = rest ∧ p.val < i.val ∧
    ∃ l, d.nodeAt p = .internal (some l) none ∧ d1.nodeAt p = .internal (some l) (some i)

/-- Between two bits, if no node waits for a child and the tree is not complete, nothing is allocated: rule R103. -/
theorem Dec.TreeInv.ncount_zero {d : Dec} (h : d.TreeInv) (hm : d.tmode = .tag) (hd : d.tdone = false) (hs : d.stk = []) :
    d.ncount.val = 0 := by
  by_contra hne
  have hdone := h.done_iff.mpr ⟨hm, hs, Nat.pos_of_ne_zero hne⟩
  simp [hd] at hdone

/-- Between two bits the next node can be linked, and `LinkedBy` says how: the three cases of the stack. -/
theorem linkParent_linkedBy {d : Dec} {i : NodeIdx} (h : d.TreeInv) (hm : d.tmode = .tag) (hd : d.tdone = false)
    (hi : d.ncount.val = i.val) : ∃ d1, linkParent i d = .ok d1 ∧ d.LinkedBy d1 i := by
  have hbroken := linkParent_ok h i
  rcases linkParent_cases i d with
    ⟨hs, e⟩ | ⟨p, rest, l, r, hs, hn, e⟩ | ⟨p, rest, l, r, hs, hn, e⟩ | ⟨_, _, -, -, e⟩ <;> rw [e] at hbroken ⊢
  · have hzero := h.ncount_zero hm hd hs
    exact ⟨d, rfl, rfl, fun _ _ => rfl, fun _ => ⟨hs, Fin.ext (hi.symm.trans hzero)⟩, by simp [hs], by simp [hs]⟩
  · obtain ⟨-, hopen, hnext⟩ := h.opens (p, .left) (by simp [hs])
    cases hn.symm.trans hopen
    refine ⟨_, rfl, rfl, fun j hj => Dec.nodeAt_setNode_ne d (by simpa [hs] using hj) _, by simp [hs], ?_, by simp [hs]⟩
    intro q tl hq
    cases hs.symm.trans hq
    exact ⟨rfl, hn, Dec.nodeAt_setNode_self d p _, hi.symm.trans hnext.symm⟩
  · obtain ⟨⟨hlow, -⟩, l0, hopen⟩ := h.opens (p, .right) (by simp [hs])
    cases hn.symm.trans hopen
    refine ⟨_, rfl, rfl, fun j hj => Dec.nodeAt_setNode_ne d (by simpa [hs] using hj) _, by simp [hs], by simp [hs], ?_⟩
    intro q tl hq
    cases hs.symm.trans hq
    exact ⟨rfl, hlow.trans_eq hi, l0, hn, Dec.nodeAt_setNode_self d p _⟩
  · obtain ⟨_, hok⟩ := hbroken
    cases hok

/-- The 512th tag faults: U1. -/
theorem tdBit_full {d : Dec} (b : Bool) (hm : d.tmode = .tag) (hi : d.ncount.val = Config.nodeCap) :
    tdBit b d = raiseDec .unsupportedInput := by
  simp only [tdBit, hm, tdTag, hi, lt_irrefl, dif_neg, not_false_iff]

/-- A tag bit with room links node `NCOUNT` and starts it. -/
theorem tdBit_tag {d : Dec} {i : NodeIdx} (b : Bool) (h : d.TreeInv) (hm : d.tmode = .tag) (hd : d.tdone = false)
    (hi : d.ncount.val = i.val) :
    ∃ d1, d.LinkedBy d1 i ∧ tdBit b d = .ok (startNode i b { d1 with ncount := i.succ }) := by
  obtain ⟨d1, hl, hlinked⟩ := linkParent_linkedBy h hm hd hi
  have hlt : d.ncount.val < Config.nodeCap := hi ▸ i.isLt
  obtain rfl : i = ⟨d.ncount.val, hlt⟩ := Fin.ext hi.symm
  refine ⟨d1, hlinked, ?_⟩
  simp only [tdBit, hm, tdTag, hlt, dif_pos, hl]
  rfl

/-- Starting a leaf writes no node. -/
@[simp] theorem startNode_leaf_nodeAt (d : Dec) (i j : NodeIdx) : (startNode i true d).nodeAt j = d.nodeAt j := rfl

/-- Starting an Internal node writes its own entry alone. -/
@[simp] theorem startNode_internal_nodeAt (d : Dec) (i j : NodeIdx) :
    (startNode i false d).nodeAt j = if i = j then .internal none none else d.nodeAt j := Dec.nodeAt_setNode d i j _

/-- Starting node `i` changes no other node. -/
theorem startNode_nodeAt_ne (d : Dec) (b : Bool) {i j : NodeIdx} (hj : i ≠ j) : (startNode i b d).nodeAt j = d.nodeAt j := by
  cases b
  · rw [startNode_internal_nodeAt, if_neg hj]
  · rfl

/-- The stack after a node is started: an Internal node waits for its left child. -/
theorem startNode_stk (d : Dec) (i : NodeIdx) (b : Bool) :
    (startNode i b d).stk = if b then d.stk else (i, .left) :: d.stk := by cases b <;> rfl

@[simp] theorem startNode_ncount (d : Dec) (i : NodeIdx) (b : Bool) : (startNode i b d).ncount = d.ncount := by
  cases b <;> rfl

/-- Settles O26: the node is linked by `linkParent_linkedBy`, then started. -/
theorem tagBit : Obligations.TagBit := by
  intro d b h hm hd
  refine ⟨tdBit_full b hm, fun i hi => ?_⟩
  obtain ⟨d1, hlink, he⟩ := tdBit_tag b h hm hd hi
  have hframe := hlink.frame
  refine ⟨_, he, by simp, ?_, ?_, ⟨d1.stk, startNode_stk _ _ _, hlink.root, ?_, ?_⟩, ?_⟩
  · rintro rfl
    exact ⟨rfl, rfl, rfl, rfl, hlink.others⟩
  · rintro rfl
    rw [hframe]
    refine ⟨hm, rfl, rfl, rfl, by simp, fun j hj hhead => ?_⟩
    exact (startNode_nodeAt_ne _ false hj.symm).trans (hlink.others j hhead)
  · intro p rest hs
    obtain ⟨hstk, hold, hnew, hnext⟩ := hlink.left p rest hs
    exact ⟨hstk, hold, (startNode_nodeAt_ne _ b (by rintro rfl; omega)).trans hnew, hnext⟩
  · intro p rest hs
    obtain ⟨hstk, hlt, l, hold, hnew⟩ := hlink.right p rest hs
    exact ⟨hstk, l, hold, (startNode_nodeAt_ne _ b (by rintro rfl; omega)).trans hnew⟩
  · rw [hframe]
    cases b <;> exact ⟨rfl, rfl, rfl, rfl, rfl, rfl⟩

/-! ## A symbol bit: rules R102, R103 -/

/-- A symbol bit before the eighth. -/
theorem tdBit_sym_more {d : Dec} (b : Bool) (hm : d.tmode = .sym) (hc : d.symcnt.val < 7) :
    tdBit b d = .ok { d with symacc := shiftIn d.symacc b, symcnt := d.symcnt + 1 } := by
  have hne : ¬d.symcnt.val + 1 = 8 := by omega
  simp only [tdBit, hm, tdSym, if_neg hne]

/-- The eighth symbol bit. -/
theorem tdBit_sym_last {d : Dec} (b : Bool) (hm : d.tmode = .sym) (hc : d.symcnt.val = 7) :
    tdBit b d = .ok { d.setNode d.tleaf (.leaf (shiftIn d.symacc b)) with
      symacc := shiftIn d.symacc b, symcnt := 0, tmode := .tag, tdone := d.tdone || d.stk.isEmpty } := by
  simp only [tdBit, hm, tdSym, hc, if_true]

/-- The shift of rule R33 written with the bit as a one-bit word. -/
theorem shiftIn_eq_or_ofBool (a : Byte) (b : Bool) : shiftIn a b = a <<< 1 ||| (BitVec.ofBool b).setWidth 8 := by
  cases b <;> rfl

/-- Settles O27: the two branches of the count. -/
theorem symbolBit : Obligations.SymbolBit := by
  intro d b hm acc
  have hacc : acc = shiftIn d.symacc b := (shiftIn_eq_or_ofBool _ _).symm
  rw [hacc]
  refine ⟨fun hc => ⟨_, tdBit_sym_more b hm hc, ?_, rfl⟩, fun hc => ⟨_, tdBit_sym_last b hm hc, ?_, fun j hj => ?_, ?_, rfl⟩⟩
  · exact Fin.val_add_one_of_lt (n := 7) (i := d.symcnt) hc
  · exact Dec.nodeAt_setNode_self d _ _
  · exact Dec.nodeAt_setNode_ne d (Ne.symm hj) _
  · simp

/-! ## A byte of the tree section: rules R105 to R107 -/

theorem exec_decByte_tree {s : State} (byte : Byte) (last : Bool) (hp : s.dec.phase = .tree) :
    exec (.decByte byte last) s = decCommand (treeByte byte last) s := by
  simp only [exec, execDecByte, hp]

section
variable {byte : Byte} {last : Bool} {d d1 : Dec}

/-- A byte in which TD faults. -/
theorem treeByte_error {e : DecStop} (h : tdBits (bitsMSB 8 byte) d = .error e) : treeByte byte last d = .error e := by
  rw [treeByte, h]

/-- A byte that leaves the tree incomplete. -/
theorem treeByte_open (h : tdBits (bitsMSB 8 byte) d = .ok d1) (hd : d1.tdone = false) :
    treeByte byte last d = if last then raiseDec .malformedTree else .ok d1 := by
  simp only [treeByte, h, hd, Bool.false_eq_true, if_false]

/-- A byte that completes the tree. -/
theorem treeByte_complete (h : tdBits (bitsMSB 8 byte) d = .ok d1) (hd : d1.tdone = true) :
    treeByte byte last d = treeEnd last d1 := by
  simp only [treeByte, h, hd, if_true]

/-- Rule R106 (a): the root is a Leaf. -/
theorem treeEnd_leaf (h : (d.nodeAt 0).isLeaf = true) : treeEnd last d = raiseDec .malformedTree := if_pos h

/-- Rule R106 (b): the payload follows. -/
theorem treeEnd_more (h : (d.nodeAt 0).isLeaf = false) : treeEnd false d = .ok { d with cur := 0, phase := .payload } := by
  simp [treeEnd, h]

/-- Rule R106 (c): the frame ends with the tree, and the payload is empty. -/
theorem treeEnd_empty (h : (d.nodeAt 0).isLeaf = false) (hpad : d.padreg = 0) :
    treeEnd true d = .ok { d with cur := 0, phase := .done } := by
  simp [treeEnd, h, hpad]

/-- Rule R106 (d): the frame ends with the tree, but the header announces padding. -/
theorem treeEnd_padded (h : (d.nodeAt 0).isLeaf = false) (hpad : d.padreg ≠ 0) :
    treeEnd true d = raiseDec .corruptPayload := by
  simp [treeEnd, h, hpad]

end

theorem decCommand_ok {f : Dec → Except DecStop Dec} {s : State} {d : Dec} (h : f s.dec = .ok d) :
    decCommand f s = .next { s with dec := d } := by
  simp only [decCommand, h]

theorem decCommand_fault {f : Dec → Except DecStop Dec} {s : State} {c : FaultCode} (h : f s.dec = raiseDec c) :
    decCommand f s = .next { s with dec := decFaultEntry c s.dec } := by
  simp only [decCommand, h, raiseDec]

/-- Settles O28: TD faults, leaves the tree incomplete, or completes it and rule R106 decides. -/
theorem treeByteOutcomes : Obligations.TreeByteOutcomes := by
  intro s byte last h hp fault
  rw [exec_decByte_tree byte last hp]
  rcases tdBits_cases (bitsMSB 8 byte) h.dec.toTreeInv with ⟨d, e, -, hsame⟩ | e
  · have hobuf : d.obuf = [] := hsame.obuf.trans (h.dec.obuf_nil (by simp [hp]) (by simp [hp]))
    refine .inr ⟨d, e, hsame.padreg, hobuf, ?_, ?_, ?_, ?_, ?_, ?_⟩
    · rintro hd rfl
      exact decCommand_ok (treeByte_open e hd)
    · rintro hd rfl
      exact decCommand_fault (treeByte_open e hd)
    · intro hd hroot
      exact decCommand_fault ((treeByte_complete e hd).trans (treeEnd_leaf hroot))
    · rintro hd hroot rfl
      exact decCommand_ok ((treeByte_complete e hd).trans (treeEnd_more hroot))
    · rintro hd hroot rfl hpad
      exact decCommand_ok ((treeByte_complete e hd).trans (treeEnd_empty hroot hpad))
    · rintro hd hroot rfl hpad
      exact decCommand_fault ((treeByte_complete e hd).trans (treeEnd_padded hroot hpad))
  · exact .inl ⟨e, decCommand_fault (treeByte_error e)⟩

/-! ## A tree byte with room completes: rules R100, R101, R105 -/

/-- The root is stored and is an Internal node. -/
def Dec.RootInternal (d : Dec) : Prop := d.Settled 0 ∧ (d.nodeAt 0).isLeaf = false

/-- TD has gone from `d` to `e`, starting at most `n` nodes, and has kept the root an Internal node. -/
structure Dec.GrownBy (n : Nat) (d e : Dec) : Prop where
  tree : e.TreeInv
  le : d.ncount.val ≤ e.ncount.val
  bound : e.ncount.val ≤ d.ncount.val + n
  root : d.RootInternal → e.RootInternal

theorem Dec.GrownBy.refl {d : Dec} (h : d.TreeInv) (n : Nat) : d.GrownBy n d := ⟨h, le_rfl, Nat.le_add_right _ _, id⟩

theorem Dec.GrownBy.trans {m n : Nat} {d e f : Dec} (h1 : d.GrownBy m e) (h2 : e.GrownBy n f) : d.GrownBy (m + n) f :=
  ⟨h2.tree, h1.le.trans h2.le, by have := h1.bound; have := h2.bound; omega, h2.root ∘ h1.root⟩

/-- Linking never makes a node that is Internal a Leaf. -/
theorem Dec.LinkedBy.isLeaf {d d1 : Dec} {i j : NodeIdx} (h : d.LinkedBy d1 i) (hj : (d.nodeAt j).isLeaf = false) :
    (d1.nodeAt j).isLeaf = false := by
  by_cases hhead : d.stk.head?.map Prod.fst = some j
  · rcases hs : d.stk with _ | ⟨⟨p, _ | _⟩, rest⟩ <;> simp [hs] at hhead <;> subst hhead
    · obtain ⟨-, -, hnew, -⟩ := h.left p rest hs
      simp [hnew, Node.isLeaf]
    · obtain ⟨-, -, l, -, hnew⟩ := h.right p rest hs
      simp [hnew, Node.isLeaf]
  · rw [h.others j hhead, hj]

/-- A tag bit keeps the root Internal: it writes the new node and the parent's child fields. -/
theorem startNode_rootInternal {d d1 : Dec} {i : NodeIdx} (b : Bool) (hlink : d.LinkedBy d1 i) (hm : d.tmode = .tag)
    (hi : d.ncount.val = i.val) (h : d.RootInternal) : (startNode i b { d1 with ncount := i.succ }).RootInternal := by
  obtain ⟨⟨hpos, -⟩, hroot⟩ := h
  have hne : i ≠ 0 := by rintro rfl; omega
  have hframe := hlink.frame
  refine ⟨⟨by simp, ?_⟩, ?_⟩
  · cases b
    · rw [hframe]
      simp [startNode, hm]
    · simp [startNode, hne.symm]
  · rw [startNode_nodeAt_ne _ b hne]
    exact hlink.isLeaf hroot

/-- A symbol bit starts no node and keeps the root Internal: the leaf it stores is not the root. -/
theorem tdSym_grownBy {d : Dec} (b : Bool) (h : d.TreeInv) (hm : d.tmode = .sym) : d.GrownBy 1 (tdSym b d) := by
  have hkeeps := tdSym_keeps (b := b) h hm
  unfold tdSym at hkeeps ⊢
  split at hkeeps
  · next hc =>
    rw [if_pos hc]
    refine ⟨hkeeps, le_rfl, Nat.le_succ _, fun ⟨⟨hpos, hleaf⟩, hroot⟩ => ⟨⟨hpos, by simp⟩, ?_⟩⟩
    have hne : d.tleaf ≠ 0 := fun e => hleaf ⟨hm, e.symm⟩
    exact (congrArg Node.isLeaf (Dec.nodeAt_setNode_ne d hne _)).trans hroot
  · next hc =>
    rw [if_neg hc]
    exact ⟨hkeeps, le_rfl, Nat.le_succ _, id⟩

/-- A bit with room for a node does not fault. -/
theorem tdBit_grownBy {d : Dec} (b : Bool) (h : d.TreeInv) (hd : d.tdone = false) (hroom : d.ncount.val + 1 ≤ Config.nodeCap) :
    ∃ e, tdBit b d = .ok e ∧ d.GrownBy 1 e := by
  cases hm : d.tmode with
  | tag =>
    obtain ⟨d1, hlink, he⟩ := tdBit_tag (i := ⟨d.ncount.val, hroom⟩) b h hm hd rfl
    have hkeeps := tdTag_keeps h hm hd (b := b) (by simpa only [tdBit, hm] using he)
    exact ⟨_, he, hkeeps, by simp, by simp, startNode_rootInternal b hlink hm rfl⟩
  | sym => exact ⟨_, by simp only [tdBit, hm], tdSym_grownBy b h hm⟩

/-- Bits with room for as many nodes do not fault. -/
theorem tdBits_grownBy (bits : Bits) {d : Dec} (h : d.TreeInv) (hroom : d.ncount.val + bits.length ≤ Config.nodeCap) :
    ∃ e, tdBits bits d = .ok e ∧ d.GrownBy bits.length e := by
  induction bits generalizing d with
  | nil => exact ⟨d, rfl, .refl h _⟩
  | cons b rest ih =>
    rw [List.length_cons] at hroom ⊢
    cases hd : d.tdone with
    | true => exact ⟨d, by simp only [tdBits, hd, if_true], .refl h _⟩
    | false =>
      obtain ⟨d1, e1, g1⟩ := tdBit_grownBy b h hd (by omega)
      have hbound := g1.bound
      obtain ⟨d2, e2, g2⟩ := ih g1.tree (by omega)
      refine ⟨d2, by simp only [tdBits, hd, Bool.false_eq_true, if_false, e1, e2], ?_⟩
      rw [Nat.add_comm]
      exact g1.trans g2

theorem Dec.TreeInv.sameOutside_of_tdBits {bits : Bits} {d e : Dec} (h : d.TreeInv) (he : tdBits bits d = .ok e) :
    d.SameOutside e := by
  rcases tdBits_cases bits h with ⟨e', he', -, hsame⟩ | hfault
  · cases he.symm.trans he'
    exact hsame
  · cases he.symm.trans hfault

/-- Settles O29: TD has room for the byte's eight bits, and of the outcomes of O28 the root leaves two. -/
theorem treeByteCompletes : Obligations.TreeByteCompletes := by
  intro s byte h hp hroom hset hroot
  obtain ⟨d, e, g⟩ := tdBits_grownBy (bitsMSB 8 byte) h.dec.toTreeInv (by rw [length_bitsMSB]; exact hroom)
  have hle := g.le
  have hbound := g.bound
  rw [length_bitsMSB] at hbound
  obtain ⟨-, hroot'⟩ := g.root ⟨hset, hroot⟩
  have hsame := h.dec.toTreeInv.sameOutside_of_tdBits e
  have hfault : d.dfault = .noFault := hsame.dfault.trans (h.dec.dfault_none (by simp [hp]))
  rcases treeByteOutcomes s byte false h hp with ⟨e', -⟩ | ⟨d', e', -, -, hopen, -, -, hdone, -, -⟩
  · cases e.symm.trans e'
  · cases e.symm.trans e'
    cases hd : d.tdone with
    | false =>
      exact ⟨_, hopen hd rfl, .inl (hsame.phase.trans hp), hle, hbound, hsame.padreg, hsame.obuf, hfault, rfl⟩
    | true => exact ⟨_, hdone hd hroot' rfl, .inr rfl, hle, hbound, hsame.padreg, hsame.obuf, hfault, rfl⟩

/-! ## The shape of the arena: rules R32, R104 -/

section
variable {a : Vector Node Config.nodeCap}

/-- The right child of a node comes right after its left subtree. -/
theorem Dec.TreeInv.left_spans {d : Dec} (h : d.TreeInv) {p l r : NodeIdx} (hp : d.Settled p)
    (hn : d.nodeAt p = .internal (some l) (some r)) : Spans d.node l r.val := by
  obtain ⟨hlow, hleaf⟩ := hp
  have hinside : ∀ {i : NodeIdx} {e : Nat}, Spans d.node i e → i.val ≤ p.val → p.val < e → Spans d.node l r.val := by
    intro i e hs hi he
    obtain ⟨l', r', hl, hr, -, hspans, -⟩ := hs.inside hi he hn
    cases hl
    cases hr
    exact hspans
  cases hm : d.tmode with
  | sym =>
    have hlast := h.sym_leaf hm
    have hne : p.val ≠ d.tleaf.val := fun e => hleaf ⟨hm, Fin.ext e⟩
    exact (((Dec.ordered_sym hm).mp h.order).inside (by omega) hn).2
  | tag =>
    rcases hs : d.stk with _ | ⟨⟨q, _ | _⟩, rest⟩
    · rcases (Dec.ordered_nil hm hs).mp h.order with hzero | hspans
      · omega
      · exact hinside hspans (Nat.zero_le _) hlow
    · obtain ⟨-, hopen, hlast⟩ := h.opens (q, .left) (by simp [hs])
      have hne : p.val ≠ q.val := fun e => by
        cases Fin.ext e
        cases hn.symm.trans hopen
      simp only at hlast
      exact (((Dec.ordered_left hm hs).mp h.order).inside (by omega) hn).2
    · obtain ⟨m, hq, hmq, hspans, hrest⟩ := (Dec.ordered_right hm hs).mp h.order
      rcases Nat.lt_trichotomy p.val q.val with hlt | heq | hgt
      · exact (hrest.inside hlt hn).2
      · cases Fin.ext heq
        cases hn.symm.trans hq
      · exact hinside hspans (by omega) hlow

theorem Reaches.trans {i j k : NodeIdx} (h1 : Reaches a i j) (h2 : Reaches a j k) : Reaches a i k := by
  induction h2 with
  | root => exact h1
  | child _ hn hc ih => exact ih.child hn hc

/-- Every entry of a subtree is reached from its root. -/
theorem Spans.reaches {i j : NodeIdx} {e : Nat} (h : Spans a i e) (hi : i.val ≤ j.val) (hj : j.val < e) : Reaches a i j := by
  induction h with
  | leaf _ he =>
    cases Fin.ext (Nat.le_antisymm hi (by omega))
    exact .root
  | @internal i l r e hn hl _ _ ihl ihr =>
    rcases Nat.lt_or_ge j.val r.val with hjr | hrj
    · rcases Nat.eq_or_lt_of_le hi with heq | hlt
      · cases Fin.ext heq
        exact .root
      · exact (Reaches.root.child hn (.inl rfl)).trans (ihl (by omega) hjr)
    · exact (Reaches.root.child hn (.inr rfl)).trans (ihr hrj hj)

/-! ## Counting leaves -/

/-- How many of the entries below `n` are leaves. -/
def leavesBelow (a : Vector Node Config.nodeCap) (n : Nat) : Nat :=
  (List.finRange Config.nodeCap).countP fun i => decide (i.val < n) && (a[i.val]'i.isLt).isLeaf

/-- One more entry counts by its own kind. -/
theorem leavesBelow_succ (i : NodeIdx) :
    leavesBelow a (i.val + 1) = leavesBelow a i.val + if (a[i.val]'i.isLt).isLeaf then 1 else 0 := by
  have hperm := List.perm_cons_erase (List.mem_finRange i)
  have hrest : ∀ j ∈ (List.finRange Config.nodeCap).erase i, (j.val < i.val + 1 ↔ j.val < i.val) := by
    intro j hj
    have hne : j.val ≠ i.val := fun e => ((List.nodup_finRange _).mem_erase_iff.mp hj).1 (Fin.ext e)
    omega
  have hcount := List.countP_congr (l := (List.finRange Config.nodeCap).erase i)
    (p := fun j => decide (j.val < i.val + 1) && (a[j.val]'j.isLt).isLeaf)
    (q := fun j => decide (j.val < i.val) && (a[j.val]'j.isLt).isLeaf) (fun j hj => by simp [hrest j hj])
  simp only [leavesBelow, hperm.countP_eq, List.countP_cons, hcount]
  simp

/-- A subtree of `e - i` nodes has one more leaf than Internal nodes: `2 * leaves = nodes + 1`, without subtraction. -/
theorem Spans.leaves {i : NodeIdx} {e : Nat} (h : Spans a i e) :
    2 * leavesBelow a e + i.val = 2 * leavesBelow a i.val + e + 1 := by
  induction h with
  | @leaf i e sym hn he =>
    rw [he, leavesBelow_succ, hn]
    simp only [Node.isLeaf, if_true]
    omega
  | @internal i l r e hn hl _ _ ihl ihr =>
    have hsame : leavesBelow a l.val = leavesBelow a i.val := by
      simp [hl, leavesBelow_succ, hn, Node.isLeaf]
    omega

/-- A complete tree of `n` nodes has an odd number of them, and `(n + 1) / 2` leaves. -/
theorem Spans.root_leaves {n : Nat} (h : Spans a 0 n) : n % 2 = 1 ∧ leavesBelow a n = (n + 1) / 2 := by
  have hleaves := h.leaves
  have hzero : leavesBelow a (0 : NodeIdx).val = 0 := by simp [leavesBelow]
  have hval : (0 : NodeIdx).val = 0 := rfl
  omega

end

/-! ## The depth of the stack: rule R32 -/

/-- A list of entries that descend from below `n` has at most `n` of them. -/
theorem length_le_of_descending {l : List (NodeIdx × Slot)} {n : Nat} (hd : l.Pairwise fun a b => b.1.val < a.1.val)
    (hn : ∀ e ∈ l, e.1.val < n) : l.length ≤ n := by
  induction l generalizing n with
  | nil => exact Nat.zero_le n
  | cons e rest ih =>
    obtain ⟨hbelow, hrest⟩ := List.pairwise_cons.mp hd
    exact (ih hrest hbelow).trans_lt (hn e List.mem_cons_self)

/-- When `TDONE` is 1 the tree at the root takes up all allocated entries: rules R103, R104. -/
theorem Dec.TreeInv.complete_spans {d : Dec} (h : d.TreeInv) (hd : d.tdone = true) : Spans d.node 0 d.ncount.val := by
  obtain ⟨hm, hs, hpos⟩ := h.done_iff.mp hd
  exact ((Dec.ordered_nil hm hs).mp h.order).resolve_left hpos.ne'

/-- Settles O52: `LinksOk` and `left_spans` for one node, `complete_spans` for the whole tree. -/
theorem arenaIsInPreOrder : Obligations.ArenaIsInPreOrder := by
  intro s h
  have hT := h.dec.toTreeInv
  refine ⟨fun p l r hp hn => ?_, fun hd => ?_, length_le_of_descending hT.descending hT.stk_lt⟩
  · have hlinks := hT.links p l r hp hn
    refine ⟨?_, ?_⟩
    · rintro c rfl
      refine ⟨?_, hT.child_lt hp hn (.inl rfl)⟩
      rcases r with _ | r
      · exact hlinks.2.1
      · exact hlinks.1
    · rintro c rfl
      rcases l with _ | l
      · cases hlinks
      · obtain ⟨hl, hlt, hlow⟩ := hlinks
        exact ⟨hl ▸ hlt, hlow, l, rfl, hT.left_spans hp hn⟩
  · have hspans := hT.complete_spans hd
    obtain ⟨hodd, hleaves⟩ := hspans.root_leaves
    refine ⟨hspans, fun i hi => hspans.reaches (Nat.zero_le _) hi, fun i l r hi hn => ?_, hodd, hleaves⟩
    obtain ⟨l', r', hn', -⟩ := hT.children hd hi (by rw [hn]; rfl)
    cases hn.symm.trans hn'
    simp

end Sys2Proof.Machine

/-! # The packer (rules R110 to R119)

What each `PK.*` command does to PK. `Append` is a total operation `Pk.appended` wherever there is room; appending one string
after the other is appending both at once, and from this the law of `Pack` follows. -/

namespace Sys2Proof.Machine

/-! ## The bits that make no whole byte: rules R10, R111 -/

/-- The bits of `s` after its last whole byte. -/
def pendingOf (s : Bits) : Bits := s.drop (8 * (s.length / 8))

@[simp] theorem length_pendingOf (s : Bits) : (pendingOf s).length = s.length % 8 := by
  simp only [pendingOf, List.length_drop]
  omega

/-- The bits of the first whole bytes make the same bytes. -/
theorem bytesOf_take_whole (s : Bits) : bytesOf (s.take (8 * (s.length / 8))) = bytesOf s := by
  have hwhole : (s.take (8 * (s.length / 8))).length % 8 = 0 := by simp only [List.length_take]; omega
  have hrest : (s.drop (8 * (s.length / 8))).length < 8 := by simp only [List.length_drop]; omega
  conv_rhs => rw [← List.take_append_drop (8 * (s.length / 8)) s, bytesOf_append _ _ hwhole, bytesOf_short _ hrest,
    List.append_nil]

/-- A string is its whole bytes and then the pending bits. -/
theorem bitsOf_bytesOf_pendingOf (s : Bits) : bitsOf (bytesOf s) ++ pendingOf s = s := by
  rw [← bytesOf_take_whole, bitsOf_bytesOf _ (by simp only [List.length_take]; omega), pendingOf, List.take_append_drop]

theorem pendingOf_of_short {s : Bits} (h : s.length < 8) : pendingOf s = s := by
  simp [pendingOf, Nat.div_eq_of_lt h]

/-- Whole bytes in front do not change which bits are pending. -/
theorem pendingOf_bitsOf_append (bs : List Byte) (s : Bits) : pendingOf (bitsOf bs ++ s) = pendingOf s := by
  have hsplit : 8 * ((8 * bs.length + s.length) / 8) = (bitsOf bs).length + 8 * (s.length / 8) := by
    rw [length_bitsOf]
    omega
  simp only [pendingOf, List.length_append, length_bitsOf]
  rw [hsplit, List.drop_length_add_append]

theorem bytesOf_bitsOf_append (bs : List Byte) (s : Bits) : bytesOf (bitsOf bs ++ s) = bs ++ bytesOf s := by
  rw [bytesOf_append _ _ (by simp), bytesOf_bitsOf]

/-- Only the pending bits of `s` matter to what is pending after `t`. -/
theorem pendingOf_append (s t : Bits) : pendingOf (s ++ t) = pendingOf (pendingOf s ++ t) := by
  conv_lhs => rw [← bitsOf_bytesOf_pendingOf s, List.append_assoc, pendingOf_bitsOf_append]

/-- Only the pending bits of `s` matter to the bytes that `t` completes. -/
theorem bytesOf_append_pendingOf (s t : Bits) : bytesOf (s ++ t) = bytesOf s ++ bytesOf (pendingOf s ++ t) := by
  conv_lhs => rw [← bitsOf_bytesOf_pendingOf s, List.append_assoc, bytesOf_bitsOf_append]

/-- The bits of a byte are the eight bits it was made of, as one list. -/
theorem bitsMSB_byteOf_of_length {s : Bits} (h : s.length = 8) : bitsMSB 8 (byteOf s) = s := by
  obtain ⟨b, t, rfl⟩ := exists_byte_of_le s h.ge
  obtain rfl : t = [] := List.length_eq_zero_iff.mp (by simpa using h)
  simp

/-- Eight bits make one byte. -/
theorem bytesOf_of_length {s : Bits} (h : s.length = 8) : bytesOf s = [byteOf s] := by
  have hbyte := bytesOf_bits_append (byteOf s) []
  rwa [List.append_nil, bitsMSB_byteOf_of_length h] at hbyte

/-! ## Packed sections: rules R73, R74 -/

theorem padOf_lt (n : Nat) : padOf n < 8 := Nat.mod_lt _ (by decide)

theorem padOf_of_partial {n : Nat} (h0 : 0 < n) (h : n ≤ 7) : padOf n = 8 - n := by
  rw [padOf]
  omega

@[simp] theorem padOf_length_pendingOf (s : Bits) : padOf (pendingOf s).length = padOf s.length := by
  simp only [padOf, length_pendingOf, Nat.mod_mod]

/-- A section is the whole bytes and then the section of the pending bits. -/
theorem sectionOf_eq_bytesOf_append (s : Bits) : sectionOf s = bytesOf s ++ sectionOf (pendingOf s) := by
  rw [sectionOf, sectionOf, padOf_length_pendingOf, bytesOf_append_pendingOf]

@[simp] theorem sectionOf_nil : sectionOf [] = [] := rfl

/-- The section of a partial byte is that byte filled up with zeros. -/
theorem sectionOf_partial {s : Bits} (hne : s ≠ []) (h : s.length ≤ 7) :
    sectionOf s = [byteOf (s ++ zeros (8 - s.length))] := by
  have hpos := List.length_pos_iff.mpr hne
  rw [sectionOf, padOf_of_partial hpos h, bytesOf_of_length (by simp; omega)]

/-! ## `Append`: rule R111 -/

/-- PK after the bits are appended to its stream. -/
def Pk.appended (p : Pk) (bits : Bits) : Pk :=
  { p with fifo := p.fifo ++ bytesOf (p.acc ++ bits), acc := pendingOf (p.acc ++ bits) }

@[simp] theorem Pk.appended_fifo (p : Pk) (bits : Bits) : (p.appended bits).fifo = p.fifo ++ bytesOf (p.acc ++ bits) := rfl
@[simp] theorem Pk.appended_acc (p : Pk) (bits : Bits) : (p.appended bits).acc = pendingOf (p.acc ++ bits) := rfl
@[simp] theorem Pk.appended_fault (p : Pk) (bits : Bits) : (p.appended bits).fault = p.fault := rfl
@[simp] theorem Pk.codeOf_appended (p : Pk) (bits : Bits) (sym : Byte) : (p.appended bits).codeOf sym = p.codeOf sym := rfl

theorem append_of_room {cap : Nat} {bits : Bits} {p : Pk} (h : p.fifo.length + (p.acc.length + bits.length) / 8 ≤ cap) :
    append cap bits p = .ok (p.appended bits) := by
  rw [append, if_neg (Nat.not_lt.mpr h), ← List.length_append, bytesOf_take_whole]
  rfl

theorem append_of_full {cap : Nat} {bits : Bits} {p : Pk} (h : cap < p.fifo.length + (p.acc.length + bits.length) / 8) :
    append cap bits p = .error .unsupportedInput := if_pos h

/-- Appending nothing changes nothing, since fewer than eight bits are pending. -/
theorem Pk.appended_nil {p : Pk} (h : p.acc.length ≤ 7) : p.appended [] = p := by
  have hlt : p.acc.length < 8 := Nat.lt_succ_of_le h
  simp [Pk.appended, bytesOf_short _ hlt, pendingOf_of_short hlt]

/-- How the bits are split does not matter: rule R119. -/
theorem Pk.appended_appended (p : Pk) (a b : Bits) : (p.appended a).appended b = p.appended (a ++ b) := by
  simp only [Pk.appended, List.append_assoc, ← pendingOf_append, ← bytesOf_append_pendingOf]

/-! ## `PK.FLUSH`: rule R117 -/

/-- PK after the pending bits are emitted as a section of their own. -/
def Pk.flushed (p : Pk) : Pk :=
  { p with fifo := p.fifo ++ sectionOf p.acc, acc := [], pad := Fin.ofNat 8 (padOf p.acc.length) }

theorem flush_of_room {cap : Nat} {p : Pk} (hacc : p.acc.length ≤ 7) (h : p.fifo.length + (p.acc.length + 7) / 8 ≤ cap) :
    flush cap p = .ok p.flushed := by
  rcases flush_cases cap p with ⟨hnil, he⟩ | ⟨hne, hfull, -⟩ | ⟨hne, -, he⟩
  · simp [he, Pk.flushed, hnil, padOf]
  · have hpos := List.length_pos_iff.mpr hne
    omega
  · rw [he, Pk.flushed, sectionOf_partial hne hacc, padOf_of_partial (List.length_pos_iff.mpr hne) hacc]

/-- A flush after an append emits the section of all bits that were not yet in the FIFO. -/
theorem Pk.flushed_appended (p : Pk) (bits : Bits) : (p.appended bits).flushed =
    { p with fifo := p.fifo ++ sectionOf (p.acc ++ bits), acc := [], pad := Fin.ofNat 8 (padOf (p.acc ++ bits).length) } := by
  rw [sectionOf_eq_bytesOf_append (p.acc ++ bits), ← List.append_assoc, ← padOf_length_pendingOf]
  rfl

/-! ## The commands while PK is not faulted: rule R110 -/

section
variable {f : Pk → Except FaultCode Pk} {s : State}

theorem pkCommand_of_fault (h : s.pk.fault ≠ .noFault) : pkCommand f s = .next s := if_neg h

theorem pkCommand_of_ok {p : Pk} (h : s.pk.fault = .noFault) (hf : f s.pk = .ok p) :
    pkCommand f s = .next { s with pk := p } := by
  simp only [pkCommand, h, if_true, hf]

theorem pkCommand_of_error {c : FaultCode} (h : s.pk.fault = .noFault) (hf : f s.pk = .error c) :
    pkCommand f s = .next { s with pk := pkFaultEntry c s.pk } := by
  simp only [pkCommand, h, if_true, hf]

end

theorem exec_pkCtsel (sym : Byte) (s : State) : exec (.pkCtsel sym) s = pkCommand (fun p => .ok (p.selected sym)) s := rfl

theorem exec_pkCtapp (n : Nat) (data : BitVec 16) (s : State) :
    exec (.pkCtapp n data) s = pkCommand (extendCode n data) s := rfl

theorem exec_pkPush (n : Nat) (data : BitVec 16) (s : State) :
    exec (.pkPush n data) s = pkCommand (append s.params.pkFifoCap (bitsMSB n data)) s := rfl

theorem exec_pkEnc (sym : Byte) (s : State) : exec (.pkEnc sym) s = pkCommand (encodeSymbol s.params.pkFifoCap sym) s := rfl

theorem exec_pkFlush (s : State) : exec .pkFlush s = pkCommand (flush s.params.pkFifoCap) s := rfl

/-- Settles O10: each of the six commands is a `pkCommand`. -/
theorem faultedPkDropsCommands : Obligations.FaultedPkDropsCommands := fun s h =>
  ⟨exec_pkCtclr_of_fault h, fun sym => (exec_pkCtsel sym s).trans (pkCommand_of_fault h),
    fun _ _ => pkCommand_of_fault h, fun _ _ => pkCommand_of_fault h, fun _ => pkCommand_of_fault h, pkCommand_of_fault h⟩

/-- Settles O11: `PK.CLR` is no `pkCommand`, so no fault drops it. -/
theorem pkClrStartsASession : Obligations.PkClrStartsASession := exec_pkClr

/-! ## The table: rules R112 to R114 -/

/-- Settles O12: the next state is the one with the table emptied. -/
theorem ctclrEmptiesTheTable : Obligations.CtclrEmptiesTheTable := fun s h =>
  ⟨_, exec_pkCtclr_of_noFault h, Pk.codeOf_emptied s.pk, rfl, rfl⟩

/-- The selected entry is empty and the others are kept. -/
@[simp] theorem Pk.codeOf_selected (p : Pk) (sym u : Byte) : (p.selected sym).codeOf u = if sym = u then [] else p.codeOf u :=
  Pk.codeOf_setCode p sym u []

/-- Settles O13: the next state is the one with `sym` selected. -/
theorem ctselSelectsAndEmpties : Obligations.CtselSelectsAndEmpties := by
  intro s sym h
  exact ⟨_, (exec_pkCtsel sym s).trans (pkCommand_of_ok h rfl), rfl, by simp, fun u hu => by simp [hu.symm], rfl⟩

/-- Settles O14: the two cases of `extendCode`. -/
theorem ctappExtendsTheSelectedCode : Obligations.CtappExtendsTheSelectedCode := by
  intro s n data h len
  rw [exec_pkCtapp]
  rcases extendCode_cases n data s.pk with ⟨hlong, he⟩ | ⟨hfits, he⟩
  · exact ⟨fun hle => absurd hlong (Nat.not_lt.mpr hle), fun _ => pkCommand_of_error h he⟩
  · exact ⟨fun _ => ⟨_, pkCommand_of_ok h he, by simp, fun u hu => by simp [hu.symm], rfl⟩,
      fun hlt => absurd hlt (Nat.not_lt.mpr hfits)⟩

/-! ## The stream: rules R111, R115 to R117 -/

/-- The next state after `Append`, told by the stream alone: rule R111. -/
theorem exists_appended {o : Host.Outcome State Fault Refusal} {s : State} {bits : Bits}
    (ho : o = .next { s with pk := s.pk.appended bits }) :
    ∃ t new, o = .next t ∧ t.pk.fifo = s.pk.fifo ++ new ∧ new.length = (s.pk.acc.length + bits.length) / 8 ∧
      bitsOf new ++ t.pk.acc = s.pk.acc ++ bits ∧ t.pk.acc.length = (s.pk.acc.length + bits.length) % 8 ∧
      t = { s with pk := { s.pk with fifo := t.pk.fifo, acc := t.pk.acc } } :=
  ⟨_, bytesOf (s.pk.acc ++ bits), ho, rfl, by simp, bitsOf_bytesOf_pendingOf _, by simp, rfl⟩

theorem exec_pkPush_of_room {s : State} {n : Nat} {data : BitVec 16} (h : s.pk.fault = .noFault)
    (hroom : s.pk.fifo.length + (s.pk.acc.length + n) / 8 ≤ s.params.pkFifoCap) :
    exec (.pkPush n data) s = .next { s with pk := s.pk.appended (bitsMSB n data) } :=
  pkCommand_of_ok h (append_of_room (by rwa [length_bitsMSB]))

/-- Settles O15: `Append` with room and without. -/
theorem pushAppendsItsBits : Obligations.PushAppendsItsBits := by
  intro s n data h k
  refine ⟨fun hroom => ?_, fun hfull => pkCommand_of_error h (append_of_full (by rwa [length_bitsMSB]))⟩
  have happended := exists_appended (exec_pkPush_of_room (data := data) h hroom)
  rwa [length_bitsMSB] at happended

theorem exec_pkEnc_of_room {s : State} {sym : Byte} (h : s.pk.fault = .noFault) (hcode : s.pk.codeOf sym ≠ [])
    (hroom : s.pk.fifo.length + (s.pk.acc.length + (s.pk.codeOf sym).length) / 8 ≤ s.params.pkFifoCap) :
    exec (.pkEnc sym) s = .next { s with pk := s.pk.appended (s.pk.codeOf sym) } := by
  rcases encodeSymbol_cases s.params.pkFifoCap sym s.pk with ⟨hnone, -⟩ | ⟨-, he⟩
  · exact absurd hnone hcode
  · exact pkCommand_of_ok h (he.trans (append_of_room hroom))

/-- Settles O16: no code, or `Append` with room and without. -/
theorem encAppendsTheCode : Obligations.EncAppendsTheCode := by
  intro s sym h c k
  refine ⟨fun hcode hroom => exists_appended (exec_pkEnc_of_room h hcode hroom), fun hfault => ?_⟩
  apply pkCommand_of_error h
  rcases encodeSymbol_cases s.params.pkFifoCap sym s.pk with ⟨-, he⟩ | ⟨hcode, he⟩
  · exact he
  · exact he.trans (append_of_full (hfault.resolve_left hcode))

/-- Settles O17: the three cases of `flush`. -/
theorem flushPadsAndRecords : Obligations.FlushPadsAndRecords := by
  intro s h hacc
  rw [exec_pkFlush]
  rcases flush_cases s.params.pkFifoCap s.pk with ⟨hnil, he⟩ | ⟨hne, hfull, he⟩ | ⟨hne, hroom, he⟩
  · exact ⟨fun _ => pkCommand_of_ok h he, fun hne => absurd hnil hne, fun hne => absurd hnil hne⟩
  · exact ⟨fun hnil => absurd hnil hne, fun _ hle => absurd hfull (Nat.not_lt.mpr hle), fun _ _ => pkCommand_of_error h he⟩
  · refine ⟨fun hnil => absurd hnil hne, fun _ _ => ⟨_, _, pkCommand_of_ok h he, rfl, ?_, rfl, ?_, rfl⟩,
      fun _ hlt => absurd hlt (Nat.not_lt.mpr hroom)⟩
    · exact bitsMSB_byteOf_of_length (by simp; omega)
    · have hpos := List.length_pos_iff.mpr hne
      exact Nat.mod_eq_of_lt (by omega)

/-! ## The law of `Pack`: rule R119 -/

/-- A command that appends a string, with room for it. -/
theorem exec_of_appendedBits {i : Instr} {bits : Bits} {s : State} (hi : appendedBits s.pk i = some bits)
    (h : s.pk.fault = .noFault) (hroom : s.pk.fifo.length + (s.pk.acc.length + bits.length) / 8 ≤ s.params.pkFifoCap) :
    exec i s = .next { s with pk := s.pk.appended bits } := by
  unfold appendedBits at hi
  split at hi
  case h_1 n data =>
    obtain ⟨-, hbits⟩ := Option.ite_none_right_eq_some.mp hi
    cases hbits
    rw [length_bitsMSB] at hroom
    exact exec_pkPush_of_room h hroom
  case h_2 sym =>
    obtain ⟨hcode, hbits⟩ := Option.ite_none_left_eq_some.mp hi
    cases hbits
    exact exec_pkEnc_of_room h hcode hroom
  case h_3 => cases hi

/-- Which string a command appends depends on the code table alone, and appending keeps that. -/
@[simp] theorem appendedBits_appended (p : Pk) (bits : Bits) : appendedBits (p.appended bits) = appendedBits p := by
  funext i
  cases i <;> rfl

theorem execAll_cons_of_next {i : Instr} {s t : State} (is : List Instr) (h : exec i s = .next t) :
    execAll (i :: is) s = execAll is t := by
  rw [execAll, h]

/-- Commands that append strings one after the other append the whole, and then the next command runs. -/
theorem execAll_appending (js : List Instr) {is : List Instr} {strings : List Bits} {s : State}
    (his : is.map (appendedBits s.pk) = strings.map some) (h : s.pk.fault = .noFault) (hacc : s.pk.acc.length ≤ 7)
    (hroom : s.pk.fifo.length + (s.pk.acc.length + strings.flatten.length) / 8 ≤ s.params.pkFifoCap) :
    execAll (is ++ js) s = execAll js { s with pk := s.pk.appended strings.flatten } := by
  induction strings generalizing is s with
  | nil =>
    obtain rfl := List.map_eq_nil_iff.mp his
    rw [List.flatten_nil, Pk.appended_nil hacc]
    rfl
  | cons bits strings ih =>
    obtain ⟨i, is, rfl, hi, his⟩ := List.map_eq_cons_iff.mp his
    simp only [List.flatten_cons, List.length_append] at hroom
    have hexec := exec_of_appendedBits hi h (by omega)
    rw [List.cons_append, execAll_cons_of_next _ hexec, ih (by simpa using his) (by simpa using h) (by simp; omega) ?_]
    · rw [List.flatten_cons, ← Pk.appended_appended]
    · simp only [Pk.appended_fifo, Pk.appended_acc, List.length_append, length_bytesOf, length_pendingOf]
      omega

/-- Settles O21: the strings are appended as one, and a flush after an append leaves a section. -/
theorem packLaw : Obligations.PackLaw := by
  intro is strings s his h hacc hroom
  have hrun := execAll_appending [.pkFlush] his h (by simp [hacc]) (by simp only [hacc, List.length_nil]; omega)
  have hflush : flush s.params.pkFifoCap (s.pk.appended strings.flatten) = .ok (s.pk.appended strings.flatten).flushed := by
    apply flush_of_room <;> simp only [Pk.appended_fifo, Pk.appended_acc, hacc, List.nil_append, List.length_append,
      length_bytesOf, length_pendingOf] <;> omega
  have hexec : exec .pkFlush { s with pk := s.pk.appended strings.flatten } =
      .next { s with pk := (s.pk.appended strings.flatten).flushed } := pkCommand_of_ok h hflush
  rw [execAll_cons_of_next _ hexec, Pk.flushed_appended, hacc, List.nil_append] at hrun
  refine ⟨_, hrun, rfl, ?_, rfl, h, ?_⟩
  · exact Nat.mod_eq_of_lt (padOf_lt _)
  · simp only [hacc]

end Sys2Proof.Machine

/-! # The decoder (rules R130 to R142)

The equations of the header, the walk and a payload byte; the phase graph; the container round trip; and the machine against
`Decode`: TD computes `Parse`, UD computes `Walk`, and a frame is the two one after the other. -/

namespace Sys2Proof.Machine

/-! ## What the accesses of DEC are: rules R131, R132 -/

/-- Settles O23: the restarted DEC, field by field. -/
theorem decClrStartsASession : Obligations.DecClrStartsASession := exec_decClr

theorem exec_decByte_hdr {s : State} (byte : Byte) (last : Bool) (hp : s.dec.phase = .hdr) :
    exec (.decByte byte last) s = decCommand (hdrByte byte last) s := by
  simp only [exec, execDecByte, hp]

theorem exec_decByte_payload {s : State} (byte : Byte) (last : Bool) (hp : s.dec.phase = .payload) :
    exec (.decByte byte last) s = decCommand (payloadByte s.params.outCap byte last) s := by
  simp only [exec, execDecByte, hp]

theorem exec_decByte_done {s : State} (byte : Byte) (last : Bool) (hp : s.dec.phase = .done) :
    exec (.decByte byte last) s = .next (setSeq s) := by
  simp only [exec, execDecByte, hp]

theorem exec_decByte_fault {s : State} (byte : Byte) (last : Bool) (hp : s.dec.phase = .fault) :
    exec (.decByte byte last) s = .next s := by
  simp only [exec, execDecByte, hp]

/-- Settles O25: the last two rows of rule R132's table. -/
theorem bytesAfterTheEndAreDropped : Obligations.BytesAfterTheEndAreDropped := fun _ byte last =>
  ⟨exec_decByte_done byte last, exec_decByte_fault byte last⟩

/-! ## The header byte: rule R133 -/

section
variable {byte : Byte} {last : Bool} {d : Dec}

/-- Rule R133 (a): no header is above 7. -/
theorem hdrByte_invalid (h : 7 < byte.toNat) : hdrByte byte last d = raiseDec .corruptPayload := if_pos h

/-- Rule R133 (b): the tree section follows. -/
theorem hdrByte_more (h : byte.toNat ≤ 7) :
    hdrByte byte false d = .ok { d with padreg := Fin.ofNat 8 byte.toNat, phase := .tree } := if_neg (Nat.not_lt.mpr h)

/-- Rule R133 (c): the empty container. -/
theorem hdrByte_empty : hdrByte 0#8 true d = .ok { d with padreg := 0, phase := .done } := rfl

/-- Rule R133 (d): a frame without a tree section. -/
theorem hdrByte_alone (hpos : 1 ≤ byte.toNat) (h : byte.toNat ≤ 7) : hdrByte byte true d = raiseDec .malformedTree := by
  have hne : byte ≠ 0#8 := by
    rintro rfl
    exact absurd hpos (by decide)
  simp [hdrByte, hne, h]

end

/-- Settles O24: one equation of `hdrByte` for each case. -/
theorem headerByte : Obligations.HeaderByte := by
  intro s byte last hp fault
  rw [exec_decByte_hdr byte last hp]
  refine ⟨fun hbig => decCommand_fault (hdrByte_invalid hbig), ?_, ?_, ?_⟩
  · rintro hsmall rfl
    exact ⟨_, decCommand_ok (hdrByte_more hsmall), Nat.mod_eq_of_lt (Nat.lt_succ_of_le hsmall), rfl⟩
  · rintro rfl rfl
    exact decCommand_ok hdrByte_empty
  · rintro hpos hsmall rfl
    exact decCommand_fault (hdrByte_alone hpos hsmall)

/-! ## One step of the tree walk: rule R135 -/

/-- Settles O30: `udBit` from a node with both children. -/
theorem walkBit : Obligations.WalkBit := by
  intro d outCap b l r hcur nxt
  have hchild : (d.nodeAt d.cur).child b = some nxt := by
    rw [hcur]
    cases b <;> rfl
  refine ⟨fun sym hleaf => ⟨fun hfull => ?_, fun hroom => ?_⟩, fun l' r' hnode => ?_⟩
  · simp only [udBit, hchild, hleaf, if_pos hfull, raiseDec]
  · simp only [udBit, hchild, hleaf, if_neg hroom]
  · simp only [udBit, hchild, hnode]

/-! ## A payload byte: rules R137, R138 -/

section
variable {byte : Byte} {last : Bool} {d d1 : Dec} {outCap : Nat}

/-- The bits of a payload byte that the walk goes over: rule R137. -/
def logicalOf (byte : Byte) (last : Bool) (d : Dec) : Bits := (bitsMSB 8 byte).take (logicalBits last d.padreg)

theorem length_logicalOf_le (byte : Byte) (last : Bool) (d : Dec) : (logicalOf byte last d).length ≤ 8 := by
  simp [logicalOf]

/-- A byte in which the walk faults. -/
theorem payloadByte_error {e : DecStop} (h : udBits outCap (logicalOf byte last d) d = .error e) :
    payloadByte outCap byte last d = .error e := by
  rw [logicalOf] at h
  rw [payloadByte, h]

/-- A byte after which the payload goes on. -/
theorem payloadByte_more (h : udBits outCap (logicalOf byte false d) d = .ok d1) :
    payloadByte outCap byte false d = .ok d1 := by
  rw [logicalOf] at h
  rw [payloadByte, h]
  rfl

/-- The last byte of the payload, with the walk at the root. -/
theorem payloadByte_done (h : udBits outCap (logicalOf byte true d) d = .ok d1) (hcur : d1.cur = 0) :
    payloadByte outCap byte true d = .ok { d1 with phase := .done } := by
  rw [logicalOf] at h
  simp only [payloadByte, h, payloadEnd, hcur, if_true]

/-- The last byte of the payload, with the walk inside a code. -/
theorem payloadByte_midCode (h : udBits outCap (logicalOf byte true d) d = .ok d1) (hcur : d1.cur ≠ 0) :
    payloadByte outCap byte true d = raiseDec .corruptPayload := by
  rw [logicalOf] at h
  simp only [payloadByte, h, payloadEnd, hcur, if_true, if_false]

end

/-- In phase PAYLOAD the tree walk's precondition holds: rule R136. -/
theorem Dec.Inv.walkInv {outCap : Nat} {d : Dec} (h : d.Inv outCap) (hp : d.phase = .payload) : d.WalkInv outCap :=
  have ⟨hdone, hroot, hcur⟩ := h.walk_ready (.inl hp)
  ⟨h.toTreeInv, hdone, hroot, hcur, h.obuf_fits⟩

/-- The walk went from `d` to `d'` over at most `n` bits: it moved, and appended at most one symbol a bit. -/
def Dec.WalkedTo (n : Nat) (d d' : Dec) : Prop :=
  ∃ new, d' = { d with cur := d'.cur, obuf := d.obuf ++ new } ∧ new.length ≤ n

/-- One bit appends at most one symbol. -/
theorem udBit_walkedTo {outCap : Nat} {b : Bool} {d d' : Dec} (h : udBit outCap b d = .ok d') : d.WalkedTo 1 d' := by
  rcases udBit_cases outCap b d with ⟨-, e⟩ | ⟨_, _, -, -, -, e⟩ | ⟨_, sym, -, -, -, e⟩ | ⟨_, -, -, e⟩ <;>
    cases e.symm.trans h
  · exact ⟨[sym], rfl, le_rfl⟩
  · exact ⟨[], by simp, Nat.zero_le _⟩

theorem Dec.WalkedTo.trans {m n : Nat} {d e f : Dec} (h1 : d.WalkedTo m e) (h2 : e.WalkedTo n f) : d.WalkedTo (m + n) f := by
  obtain ⟨new1, he, hlen1⟩ := h1
  obtain ⟨new2, hf, hlen2⟩ := h2
  refine ⟨new1 ++ new2, ?_, by simp only [List.length_append]; omega⟩
  rw [hf, he]
  simp

/-- The walk over several bits. -/
theorem udBits_walkedTo {outCap : Nat} {bits : Bits} {d d' : Dec} (h : udBits outCap bits d = .ok d') :
    d.WalkedTo bits.length d' := by
  induction bits generalizing d with
  | nil =>
    cases h
    exact ⟨[], by simp, le_rfl⟩
  | cons b rest ih =>
    unfold udBits at h
    split at h
    · next d1 e =>
      rw [List.length_cons, Nat.add_comm]
      exact (udBit_walkedTo e).trans (ih h)
    · cases h

/-- With room for a symbol a bit, the walk does not fault. -/
theorem udBits_of_room {outCap : Nat} (bits : Bits) {d : Dec} (h : d.WalkInv outCap)
    (hroom : d.obuf.length + bits.length ≤ outCap) : ∃ d', udBits outCap bits d = .ok d' := by
  induction bits generalizing d with
  | nil => exact ⟨d, rfl⟩
  | cons b rest ih =>
    rw [List.length_cons] at hroom
    rcases udBit_keeps b h with ⟨d1, e, h1, -⟩ | ⟨-, hfull⟩
    · obtain ⟨new, hd1, hlen⟩ := udBit_walkedTo e
      obtain ⟨d2, e2⟩ := ih h1 (by rw [hd1]; simp only [List.length_append]; omega)
      exact ⟨d2, by simp only [udBits, e, e2]⟩
    · omega

/-- Settles O31: the walk overflows, or ends on an Internal node and rule R138 decides. -/
theorem payloadByteOutcomes : Obligations.PayloadByteOutcomes := by
  intro s byte last h hp bits fault
  have hbits : bits = logicalOf byte last s.dec := rfl
  rw [exec_decByte_payload byte last hp, hbits]
  rcases udBits_keeps (logicalOf byte last s.dec) (h.dec.walkInv hp) with ⟨d, e, hwalk, -⟩ | e
  · obtain ⟨new, hd, hlen⟩ := udBits_walkedTo e
    have hfits : s.dec.obuf.length + new.length ≤ s.params.outCap := by
      have hobuf := hwalk.obuf
      rwa [hd, List.length_append] at hobuf
    refine .inr ⟨d, new, e, hd, hlen.trans (length_logicalOf_le ..), hfits, hwalk.here, ?_, ?_, ?_⟩
    · rintro rfl
      exact decCommand_ok (payloadByte_more e)
    · rintro rfl hcur
      exact decCommand_ok (payloadByte_done e hcur)
    · rintro rfl hcur
      exact decCommand_fault (payloadByte_midCode e hcur)
  · exact .inl ⟨e, decCommand_fault (payloadByte_error e)⟩

/-- Settles O32: the walk has room for a symbol for each of the byte's eight bits. -/
theorem payloadByteCompletes : Obligations.PayloadByteCompletes := by
  intro s byte h hp hroom
  have hlen := length_logicalOf_le byte false s.dec
  obtain ⟨d, e⟩ := udBits_of_room (logicalOf byte false s.dec) (h.dec.walkInv hp) (by omega)
  obtain ⟨new, hd, hnew⟩ := udBits_walkedTo e
  exact ⟨_, new, (exec_decByte_payload byte false hp).trans (decCommand_ok (payloadByte_more e)), hnew.trans hlen,
    congrArg (fun d => { s with dec := d }) hd⟩

/-! ## Padding: rules R105, R137 -/

/-- The first bits of a word are the bits of the word shifted. -/
theorem take_bitsMSB {w : Nat} (n k : Nat) (v : BitVec w) : (bitsMSB n v).take (n - k) = bitsMSB (n - k) (v >>> k) := by
  induction n with
  | zero => simp [bitsMSB]
  | succ n ih =>
    rcases Nat.lt_or_ge n k with hlt | hge
    · rw [Nat.sub_eq_zero_of_le hlt]
      rfl
    · rw [Nat.succ_sub hge, bitsMSB, List.take_succ_cons, ih, bitsMSB, BitVec.getLsbD_ushiftRight, Nat.add_sub_cancel' hge]

/-- Two bytes that agree after a shift by `k` agree on their first `8 - k` bits. -/
theorem take_bitsMSB_eq {byte byte' : Byte} {k : Nat} (h : byte >>> k = byte' >>> k) :
    (bitsMSB 8 byte).take (8 - k) = (bitsMSB 8 byte').take (8 - k) := by
  rw [take_bitsMSB, take_bitsMSB, h]

/-- Once the tree is complete no bit is looked at: rule R105. -/
theorem tdBits_of_done {d : Dec} (bits : Bits) (h : d.tdone = true) : tdBits bits d = .ok d := by
  cases bits with
  | nil => rfl
  | cons b rest => simp only [tdBits, h, if_true]

theorem tdBits_cons_ok {b : Bool} {d d1 : Dec} (rest : Bits) (hd : d.tdone = false) (h : tdBit b d = .ok d1) :
    tdBits (b :: rest) d = tdBits rest d1 := by
  simp only [tdBits, hd, Bool.false_eq_true, if_false, h]

theorem tdBits_cons_error {b : Bool} {d : Dec} {e : DecStop} (rest : Bits) (hd : d.tdone = false)
    (h : tdBit b d = .error e) : tdBits (b :: rest) d = .error e := by
  simp only [tdBits, hd, Bool.false_eq_true, if_false, h]

/-- TD goes on from where it stands. -/
theorem tdBits_append {bits : Bits} {d d' : Dec} (rest : Bits) (h : tdBits bits d = .ok d') :
    tdBits (bits ++ rest) d = tdBits rest d' := by
  induction bits generalizing d with
  | nil =>
    cases h
    rfl
  | cons b bits ih =>
    cases hd : d.tdone with
    | true =>
      rw [tdBits_of_done _ hd] at h
      cases h
      rw [tdBits_of_done _ hd, tdBits_of_done _ hd]
    | false =>
      cases he : tdBit b d with
      | ok d1 =>
        rw [tdBits_cons_ok _ hd he] at h
        rw [List.cons_append, tdBits_cons_ok _ hd he, ih h]
      | error stop => cases (tdBits_cons_error bits hd he).symm.trans h

theorem tdBits_append_error {bits : Bits} {d : Dec} {e : DecStop} (rest : Bits) (h : tdBits bits d = .error e) :
    tdBits (bits ++ rest) d = .error e := by
  induction bits generalizing d with
  | nil => cases h
  | cons b bits ih =>
    cases hd : d.tdone with
    | true => cases (tdBits_of_done _ hd).symm.trans h
    | false =>
      cases he : tdBit b d with
      | ok d1 =>
        rw [tdBits_cons_ok _ hd he] at h
        rw [List.cons_append, tdBits_cons_ok _ hd he, ih h]
      | error stop =>
        rw [List.cons_append, tdBits_cons_error _ hd he, ← tdBits_cons_error bits hd he, h]

/-- Settles O33: the walk goes over the first bits alone, and TD stops at the bit that completes the tree. -/
theorem paddingIsIgnored : Obligations.PaddingIsIgnored := by
  refine ⟨fun s byte byte' hp h => ?_, fun s byte byte' last k d hp h e hd => ?_⟩
  · have hbits : (bitsMSB 8 byte).take (logicalBits true s.dec.padreg) = (bitsMSB 8 byte').take (logicalBits true s.dec.padreg) :=
      take_bitsMSB_eq h
    rw [exec_decByte_payload byte true hp, exec_decByte_payload byte' true hp]
    simp only [decCommand, payloadByte, hbits]
  · have hskip : ∀ b : Byte, b >>> k = byte >>> k → tdBits (bitsMSB 8 b) s.dec = .ok d := by
      intro b hb
      rw [← take_bitsMSB_eq hb] at e
      rw [← List.take_append_drop (8 - k) (bitsMSB 8 b), tdBits_append _ e, tdBits_of_done _ hd]
    rw [exec_decByte_tree byte last hp, exec_decByte_tree byte' last hp]
    simp only [decCommand, treeByte_complete (hskip byte rfl) hd, treeByte_complete (hskip byte' h.symm) hd]

/-! ## The phase graph: rule R140 -/

/-- One of the two commands of DEC: rules R131, R132. -/
def IsDecCommand (i : Instr) : Prop := i = .decClr ∨ ∃ byte last, i = .decByte byte last

@[simp] theorem Dec.popped_phase (d : Dec) : d.popped.phase = d.phase := by
  unfold Dec.popped
  split <;> rfl

/-- A command that is not one of DEC's leaves DEC alone: rule R61. -/
theorem exec_pkCommand_dec {c : Instr} {s t : State} (hc : c.isCommand = true) (hdec : ¬IsDecCommand c)
    (h : exec c s = .next t) : t.dec = s.dec := by
  obtain ⟨hstream, htable, -⟩ := pkCommandFrame c s t h
  cases c with
  | pkClr | pkPush | pkEnc | pkFlush => rw [hstream (by simp)]
  | pkCtclr | pkCtsel | pkCtapp => rw [(htable (by simp)).1]
  | decClr => exact absurd (.inl rfl) hdec
  | decByte byte last => exact absurd (.inr ⟨byte, last, rfl⟩) hdec
  | _ => cases hc

/-- An access that is no command of DEC leaves DEC alone, but for the pop of `RD DEC_DATA`: rules R61, R157. -/
theorem exec_dec_of_other {i : Instr} {s t : State} (hi : ¬IsDecCommand i.canonical) (h : exec i s = .next t) :
    t.dec = s.dec ∨ t.dec = s.dec.popped := by
  cases i with
  | pkClr | pkCtclr | pkCtsel | pkCtapp | pkPush | pkEnc | pkFlush | decClr | decByte =>
    exact .inl (exec_pkCommand_dec rfl hi h)
  | wrCmd w =>
    cases hw : decodeCmd w with
    | ok c =>
      rw [exec_wrCmd_ok hw] at h
      rw [Instr.canonical, decodeCmdWrite_ok hw] at hi
      exact .inl (exec_pkCommand_dec (decodeCmd_isCommand hw) hi h)
    | error e =>
      cases (exec_wrCmd_error hw s).symm.trans h
      exact .inl rfl
  | rdPkData =>
    cases (exec_rdPkData s).symm.trans h
    exact .inl rfl
  | rdDecData =>
    cases (exec_rdDecData s).symm.trans h
    exact .inr rfl
  | _ =>
    cases h
    exact .inl rfl

/-- A header byte that does not fault goes on with the tree, or ends the empty container: rule R133. -/
theorem hdrByte_phase {byte : Byte} {last : Bool} {d e : Dec} (h : hdrByte byte last d = .ok e) :
    (e.phase = .tree ∧ byte.toNat ≤ 7 ∧ last = false) ∨ (e.phase = .done ∧ byte = 0#8 ∧ last = true) := by
  rcases hdrByte_cases byte last d with ⟨-, he⟩ | ⟨hsmall, hlast, he⟩ | ⟨hzero, hlast, he⟩ | ⟨-, -, -, he⟩ <;>
    cases he.symm.trans h
  · exact .inl ⟨rfl, hsmall, hlast⟩
  · exact .inr ⟨rfl, hzero, hlast⟩

/-- A tree byte that does not fault: the tree is incomplete, or the payload follows, or it is empty (rules R105, R106). -/
theorem treeByte_phase {byte : Byte} {last : Bool} {d e : Dec} (hT : d.TreeInv) (hp : d.phase = .tree)
    (h : treeByte byte last d = .ok e) :
    (e.phase = .tree ∧ last = false) ∨ (e.phase = .payload ∧ last = false) ∨
      (e.phase = .done ∧ last = true ∧ d.padreg = 0) := by
  rcases tdBits_cases (bitsMSB 8 byte) hT with ⟨d1, hd1, -, hsame⟩ | hfault
  · cases hd : d1.tdone with
    | false =>
      rw [treeByte_open hd1 hd] at h
      cases last with
      | false =>
        cases h
        exact .inl ⟨hsame.phase.trans hp, rfl⟩
      | true => cases h
    | true =>
      rw [treeByte_complete hd1 hd] at h
      rcases treeEnd_cases last d1 with ⟨-, he⟩ | ⟨-, hlast, he⟩ | ⟨-, hlast, hpad, he⟩ | ⟨-, -, -, he⟩ <;>
        cases he.symm.trans h
      · exact .inr (.inl ⟨rfl, hlast⟩)
      · exact .inr (.inr ⟨rfl, hlast, hsame.padreg.symm.trans hpad⟩)
  · cases (treeByte_error hfault).symm.trans h

/-- A byte that DEC accepts faults, or does what the section's rule says: rule R132. -/
theorem decCommand_phase {f : Dec → Except DecStop Dec} {s t : State} (h : decCommand f s = .next t) :
    t.dec.phase = .fault ∨ f s.dec = .ok t.dec := by
  rcases decCommand_cases f s with ⟨d, hd, e⟩ | ⟨c, -, e⟩ | ⟨r, -, e⟩ <;> cases e.symm.trans h
  · exact .inr hd
  · exact .inl rfl

/-- A payload byte that does not fault: the payload goes on, or ends at the root (rules R137, R138). -/
theorem payloadByte_phase {outCap : Nat} {byte : Byte} {last : Bool} {d e : Dec} (hp : d.phase = .payload)
    (h : payloadByte outCap byte last d = .ok e) :
    (e.phase = .payload ∧ last = false) ∨ (e.phase = .done ∧ last = true ∧ e.cur = 0) := by
  cases hd : udBits outCap (logicalOf byte last d) d with
  | error stop => cases (payloadByte_error hd).symm.trans h
  | ok d1 =>
    cases last with
    | false =>
      cases (payloadByte_more hd).symm.trans h
      obtain ⟨new, hd1, -⟩ := udBits_walkedTo hd
      exact .inl ⟨by rw [hd1]; exact hp, rfl⟩
    | true =>
      by_cases hcur : d1.cur = 0
      · cases (payloadByte_done hd hcur).symm.trans h
        exact .inr ⟨rfl, rfl, hcur⟩
      · cases (payloadByte_midCode hd hcur).symm.trans h

/-- Settles O35: an access of DEC goes by the section's rule, the others leave `PHASE` alone. -/
theorem phaseGraph : Obligations.PhaseGraph := by
  intro i s t h he
  refine ⟨fun hi => ?_, fun hclr hbyte => ?_, fun byte last hi => ?_⟩
  · rw [← exec_canonical, hi] at he
    cases he
    rfl
  · have hother : ¬IsDecCommand i.canonical := by
      rintro (hi | ⟨byte, last, hi⟩)
      · exact hclr hi
      · exact hbyte byte last hi
    rcases exec_dec_of_other hother he with e | e <;> simp [e]
  · rw [← exec_canonical, hi] at he
    refine ⟨fun hp => ?_, fun hp => ?_, fun hp => ?_, ?_⟩
    · rw [exec_decByte_hdr byte last hp] at he
      exact (decCommand_phase he).imp_right hdrByte_phase
    · rw [exec_decByte_tree byte last hp] at he
      exact (decCommand_phase he).imp_right (treeByte_phase h.dec.toTreeInv hp)
    · rw [exec_decByte_payload byte last hp] at he
      exact (decCommand_phase he).imp_right (payloadByte_phase hp)
    · rintro (hp | hp)
      · cases (exec_decByte_done byte last hp).symm.trans he
        rfl
      · cases (exec_decByte_fault byte last hp).symm.trans he
        rfl

/-! ## The container round trip: rules R74 to R76, R141, R142 -/

/-- The bits of a section are its string and the padding. -/
theorem bitsOf_sectionOf (s : Bits) : bitsOf (sectionOf s) = s ++ zeros (padOf s.length) :=
  bitsOf_bytesOf _ (by simp only [List.length_append, length_zeros, padOf]; omega)

theorem length_sectionOf (s : Bits) : (sectionOf s).length = (s.length + 7) / 8 := by
  simp only [sectionOf, length_bytesOf, List.length_append, length_zeros, padOf]
  omega

@[simp] theorem CodeTree.ser_ne_nil (t : CodeTree) : t.ser ≠ [] := by
  cases t <;> simp [CodeTree.ser]

/-- The header of a container is its padding count: rule R75. -/
theorem toNat_header (n : Nat) : (BitVec.ofNat 8 (padOf n)).toNat = padOf n :=
  Nat.mod_eq_of_lt ((padOf_lt n).trans (by decide))

section
variable {outCap : Nat} {t cur l r : CodeTree} {b : Bool} {rest : Bits} {out : List Byte} {sym : Byte}

/-- The end of the walk: rule R141. -/
theorem walk_nil : walk outCap t cur [] out = if cur = t then .ok out else .error .corruptPayload := by
  cases cur <;> rfl

/-- A step down to an Internal node. -/
theorem walk_internal {l' r' : CodeTree} (h : (if b then r else l) = .internal l' r') :
    walk outCap t (.internal l r) (b :: rest) out = walk outCap t (.internal l' r') rest out := by
  rw [walk, h]

/-- A step down to a Leaf, with room for its symbol. -/
theorem walk_leaf (h : (if b then r else l) = .leaf sym) (hroom : out.length ≠ outCap) :
    walk outCap t (.internal l r) (b :: rest) out = walk outCap t t rest (out ++ [sym]) := by
  rw [walk, h]
  exact if_neg hroom

/-- A step down to a Leaf, with the output full. -/
theorem walk_full (h : (if b then r else l) = .leaf sym) (hfull : out.length = outCap) :
    walk outCap t (.internal l r) (b :: rest) out = .error .unsupportedInput := by
  rw [walk, h]
  exact if_pos hfull

/-- A path through child `c` emits its symbol if the rest of the path does so from `c`. -/
theorem walk_child {c : CodeTree} {p : Bits} (hc : (if b then r else l) = c) (hp : (sym, p) ∈ c.paths)
    (hroom : out.length ≠ outCap)
    (hwalk : c.isLeaf = false → walk outCap t c (p ++ rest) out = walk outCap t t rest (out ++ [sym])) :
    walk outCap t (.internal l r) (b :: p ++ rest) out = walk outCap t t rest (out ++ [sym]) := by
  cases c with
  | leaf y =>
    cases List.mem_singleton.mp hp
    exact walk_leaf hc hroom
  | internal l' r' => exact (walk_internal hc).trans (hwalk rfl)

/-- From an Internal node, the path to a leaf below it emits that leaf's symbol and leads back to the root. -/
theorem walk_path {p : Bits} (hcur : cur.isLeaf = false) (hp : (sym, p) ∈ cur.paths) (hroom : out.length ≠ outCap) :
    walk outCap t cur (p ++ rest) out = walk outCap t t rest (out ++ [sym]) := by
  induction cur generalizing p with
  | leaf => cases hcur
  | internal l r ihl ihr =>
    simp only [CodeTree.paths, List.mem_append, List.mem_map] at hp
    rcases hp with ⟨⟨_, p⟩, hp, he⟩ | ⟨⟨_, p⟩, hp, he⟩ <;> cases he
    · exact walk_child rfl hp hroom fun hleaf => ihl hleaf hp
    · exact walk_child rfl hp hroom fun hleaf => ihr hleaf hp

end

/-- The payload of an input decodes to the input, as long as it fits. -/
theorem walk_payloadOf {outCap : Nat} {t : CodeTree} {code : Byte → Bits} (ht : t.isLeaf = false) (x : List Byte)
    {out : List Byte} (hx : ∀ sym ∈ x, (sym, code sym) ∈ t.paths) (hroom : out.length + x.length ≤ outCap) :
    walk outCap t t (payloadOf code x) out = .ok (out ++ x) := by
  induction x generalizing out with
  | nil =>
    rw [List.append_nil]
    exact walk_nil.trans (if_pos rfl)
  | cons sym x ih =>
    rw [List.length_cons] at hroom
    have hpath := hx sym List.mem_cons_self
    have hrest := ih (out := out ++ [sym]) (fun y hy => hx y (List.mem_cons_of_mem _ hy)) (by simp; omega)
    rw [payloadOf, List.map_cons, List.flatten_cons, walk_path ht hpath (by omega)]
    simpa [payloadOf] using hrest

/-- The bytes of a section hold its string as the logical bits: rule R137. -/
theorem decodePayload_sectionOf (outCap : Nat) (t : CodeTree) (s : Bits) :
    decodePayload outCap t (BitVec.ofNat 8 (padOf s.length)) (sectionOf s) = walk outCap t t s [] := by
  have hlen : 8 * (sectionOf s).length - padOf s.length = s.length := by
    rw [length_sectionOf, padOf]
    omega
  have hne : ¬(sectionOf s = [] ∧ padOf s.length > 0) := by
    rintro ⟨hnil, hpad⟩
    have hempty := congrArg List.length hnil
    rw [length_sectionOf, List.length_nil] at hempty
    rw [padOf] at hpad
    omega
  rw [decodePayload, toNat_header, if_neg hne, hlen, bitsOf_sectionOf, List.take_left]

/-- `Decode` of a frame whose tree section and payload section are known: rule R141. -/
theorem decodeFrame_sections {outCap : Nat} {h : Byte} {c pl : List Byte} {t : CodeTree} {r : Bits} (hh : h.toNat ≤ 7)
    (hc : bitsOf c = t.ser ++ r) (hr : r.length < 8) (ht : t.nodes ≤ Config.nodeCap) :
    decodeFrame outCap (h :: (c ++ pl)) = if t.isLeaf then .error .malformedTree else decodePayload outCap t h pl := by
  have hlen := congrArg List.length hc
  rw [length_bitsOf, List.length_append] at hlen
  have hpos := List.length_pos_iff.mpr t.ser_ne_nil
  have hne : c ++ pl ≠ [] := by
    intro hnil
    have : c = [] := (List.append_eq_nil_iff.mp hnil).1
    simp [this] at hlen
    omega
  have hparse : parse (bitsOf (c ++ pl)) = .ok (t, r ++ bitsOf pl, t.nodes) := by
    rw [bitsOf_append, hc, List.append_assoc]
    exact parseUndoesSer t _ ht
  have hcount : (8 * (c ++ pl).length - (r ++ bitsOf pl).length + 7) / 8 = c.length := by
    simp only [List.length_append, length_bitsOf]
    omega
  simp only [decodeFrame, if_neg (Nat.not_lt.mpr hh), if_neg hne, hparse, hcount, List.drop_left]

/-- Settles O37: the tree section parses to the tree, and the payload is walked code by code. -/
theorem containerRoundTrip : Obligations.ContainerRoundTrip := by
  intro outCap t code x ht hnodes hx hpaths
  refine ⟨?_, rfl⟩
  have hpad := padOf_lt (payloadOf code x).length
  have hframe := decodeFrame_sections (outCap := outCap) (pl := sectionOf (payloadOf code x))
    (h := BitVec.ofNat 8 (padOf (payloadOf code x).length)) (by rw [toNat_header]; omega)
    (bitsOf_sectionOf t.ser) (by simpa using padOf_lt t.ser.length) hnodes
  rw [containerOf, hframe, ht, decodePayload_sectionOf]
  exact walk_payloadOf ht x hpaths (by simpa using hx)

/-! ## TD computes `Parse`: rules R101 to R104, R108

TD reads a subtree exactly where `Parse` does: `Dec.Parses` states the three outcomes side by side, and `parseFuel_parses` proves
it along the recursion of `parseFuel`. -/

/-- The arena holds tree `t` at node `i`, in pre-order: rule R104. -/
def Holds (a : Vector Node Config.nodeCap) : CodeTree → NodeIdx → Prop
  | .leaf sym, i => a[i.val]'i.isLt = .leaf sym
  | .internal l r, i => ∃ j k : NodeIdx, a[i.val]'i.isLt = .internal (some j) (some k) ∧ j.val = i.val + 1 ∧
      k.val = j.val + l.nodes ∧ Holds a l j ∧ Holds a r k

/-- Only the entries of a tree matter to it. -/
theorem Holds.congr {a a' : Vector Node Config.nodeCap} {t : CodeTree} {i : NodeIdx} (h : Holds a t i)
    (hs : ∀ j : NodeIdx, i.val ≤ j.val → j.val < i.val + t.nodes → a'[j.val]'j.isLt = a[j.val]'j.isLt) : Holds a' t i := by
  induction t generalizing i with
  | leaf sym => exact (hs i le_rfl (by simp [CodeTree.nodes])).trans h
  | internal l r ihl ihr =>
    obtain ⟨j, k, hn, hj, hk, hl, hr⟩ := h
    simp only [CodeTree.nodes] at hs
    exact ⟨j, k, (hs i le_rfl (by omega)).trans hn, hj, hk, ihl hl fun m _ _ => hs m (by omega) (by omega),
      ihr hr fun m _ _ => hs m (by omega) (by omega)⟩

/-- The root entry is a Leaf exactly if the tree is one. -/
theorem Holds.isLeaf {d : Dec} {t : CodeTree} {i : NodeIdx} (h : Holds d.node t i) : (d.nodeAt i).isLeaf = t.isLeaf := by
  cases t with
  | leaf sym => exact congrArg Node.isLeaf h
  | internal l r =>
    obtain ⟨j, k, hn, -⟩ := h
    exact congrArg Node.isLeaf hn

/-- From `d` TD has read the subtree `t` into the arena at node `i` and linked it to its parent: rules R101 to R104. -/
structure Dec.ReadTo (d e : Dec) (t : CodeTree) (i : NodeIdx) : Prop where
  tree : e.TreeInv
  tag : e.tmode = .tag
  count : e.ncount.val = i.val + t.nodes
  holds : Holds e.node t i
  linked : ∃ d1, d.LinkedBy d1 i ∧ e.stk = d1.stk ∧ ∀ j, j.val < i.val → e.nodeAt j = d1.nodeAt j

/-- TD on the bits `s` from `d`, beside what `Parse` answers on them. -/
def Dec.Parses (d : Dec) (s : Bits) : Except ParseError (CodeTree × Bits × Nat) → Prop
  | .error .tooManyNodes => tdBits s d = raiseDec .unsupportedInput
  | .error .exhausted => ∃ e, tdBits s d = .ok e ∧ e.tdone = false
  | .ok (t, r, k) => ∃ e i, d.ncount.val = i.val ∧ s = t.ser ++ r ∧ tdBits t.ser d = .ok e ∧ e.ncount.val = k ∧ d.ReadTo e t i

/-- An error seen from a later state is the error seen from the earlier one. -/
theorem Dec.Parses.error_of_eq {d d' : Dec} {s s' : Bits} {e : ParseError} (h : d'.Parses s' (.error e))
    (heq : tdBits s d = tdBits s' d') : d.Parses s (.error e) := by
  cases e with
  | tooManyNodes => exact heq.trans h
  | exhausted =>
    obtain ⟨f, hf, hd⟩ := h
    exact ⟨f, heq.trans hf, hd⟩

theorem tdBit_treeInv {b : Bool} {d e : Dec} (h : d.TreeInv) (hd : d.tdone = false) (he : tdBit b d = .ok e) : e.TreeInv := by
  rcases tdBit_cases (b := b) h hd with ⟨e', he', hT⟩ | ⟨hfault, -⟩
  · cases he.symm.trans he'
    exact hT
  · cases he.symm.trans hfault

theorem tdBits_treeInv {bits : Bits} {d e : Dec} (h : d.TreeInv) (he : tdBits bits d = .ok e) : e.TreeInv := by
  rcases tdBits_cases bits h with ⟨e', he', hT, -⟩ | hfault
  · cases he.symm.trans he'
    exact hT
  · cases he.symm.trans hfault

/-- While a node is open the tree is not complete: rule R103. -/
theorem Dec.TreeInv.tdone_false {d : Dec} (h : d.TreeInv) (hs : d.stk ≠ []) : d.tdone = false := by
  by_contra hne
  exact hs (h.done_iff.mp (by simpa using hne)).2.1

/-- Node `i`, linked to its parent in `d`, counted and started with tag `b`: the last part of rule R101. -/
def Dec.started (i : NodeIdx) (b : Bool) (d : Dec) : Dec := startNode i b { d with ncount := i.succ }

@[simp] theorem Dec.started_ncount (i : NodeIdx) (b : Bool) (d : Dec) : (d.started i b).ncount.val = i.val + 1 := by
  simp [Dec.started]

theorem Dec.started_internal_stk (i : NodeIdx) (d : Dec) : (d.started i false).stk = (i, .left) :: d.stk := rfl

theorem Dec.started_nodeAt_ne (b : Bool) (d : Dec) {i j : NodeIdx} (hj : i ≠ j) : (d.started i b).nodeAt j = d.nodeAt j :=
  startNode_nodeAt_ne _ b hj

/-! ### A leaf -/

/-- TD after the last bit of a symbol: rules R102, R103. -/
def Dec.leafStored (sym : Byte) (d : Dec) : Dec :=
  { d.setNode d.tleaf (.leaf sym) with symacc := sym, symcnt := 0, tmode := .tag, tdone := d.tdone || d.stk.isEmpty }

/-- The symbol bits that are still missing complete the leaf. -/
theorem tdBits_sym_rest {bits : Bits} {d : Dec} (hm : d.tmode = .sym) (hd : d.tdone = false)
    (hlen : d.symcnt.val + bits.length = 8) : tdBits bits d = .ok (d.leafStored (bits.foldl shiftIn d.symacc)) := by
  induction bits generalizing d with
  | nil =>
    have := d.symcnt.isLt
    simp at hlen
    omega
  | cons b rest ih =>
    rw [List.length_cons] at hlen
    rcases Nat.lt_or_ge d.symcnt.val 7 with hlt | hge
    · have hnext : (d.symcnt + 1).val = d.symcnt.val + 1 := Fin.val_add_one_of_lt (n := 7) (i := d.symcnt) hlt
      rw [tdBits_cons_ok rest hd (tdBit_sym_more b hm hlt)]
      exact ih hm hd (by simp only [hnext]; omega)
    · obtain rfl : rest = [] := List.length_eq_zero_iff.mp (by omega)
      rw [tdBits_cons_ok [] hd (tdBit_sym_last b hm (by omega))]
      rfl

/-- Fewer symbol bits leave the leaf, and so the tree, incomplete. -/
theorem tdBits_sym_short {bits : Bits} {d : Dec} (hm : d.tmode = .sym) (hd : d.tdone = false)
    (hlen : d.symcnt.val + bits.length < 8) : ∃ e, tdBits bits d = .ok e ∧ e.tdone = false := by
  induction bits generalizing d with
  | nil => exact ⟨d, rfl, hd⟩
  | cons b rest ih =>
    rw [List.length_cons] at hlen
    have hlt : d.symcnt.val < 7 := by omega
    have hnext : (d.symcnt + 1).val = d.symcnt.val + 1 := Fin.val_add_one_of_lt (n := 7) (i := d.symcnt) hlt
    rw [tdBits_cons_ok rest hd (tdBit_sym_more b hm hlt)]
    exact ih hm hd (by simp only [hnext]; omega)

section
variable {d d1 : Dec} {i : NodeIdx} {fuel : Nat}

/-- A leaf's tag and its eight symbol bits read the leaf. -/
theorem readTo_leaf (sym : Byte) (h : d.TreeInv) (hd : d.tdone = false) (hlink : d.LinkedBy d1 i)
    (he : tdBit true d = .ok (d1.started i true)) :
    ∃ e, tdBits (CodeTree.leaf sym).ser d = .ok e ∧ d.ReadTo e (.leaf sym) i := by
  have hd1 : d1.tdone = false := by rw [hlink.frame]; exact hd
  have hread : tdBits (CodeTree.leaf sym).ser d = .ok ((d1.started i true).leafStored sym) := by
    have hrest := tdBits_sym_rest (d := d1.started i true) (bits := bitsMSB 8 sym) rfl hd1 (by rw [length_bitsMSB]; rfl)
    rw [CodeTree.ser, tdBits_cons_ok _ hd he, hrest]
    exact congrArg (fun y => Except.ok (Dec.leafStored y _)) (byteOf_bitsMSB sym)
  refine ⟨_, hread, tdBits_treeInv h hread, rfl, rfl, Dec.nodeAt_setNode_self _ i _, d1, hlink, rfl, fun j hj => ?_⟩
  exact Dec.nodeAt_setNode_ne _ (by rintro rfl; exact lt_irrefl _ hj) _

/-- A leaf that is cut off is no leaf to `Parse`. -/
theorem parseFuel_short {k : Nat} {r : Bits} (hk : k ≠ Config.nodeCap) (hr : r.length < 8) :
    parseFuel (fuel + 1) (true :: r) k = .error .exhausted := by
  simp only [parseFuel, hk, hr, if_true, if_false]

/-- TD and `Parse` on a string that begins with a leaf's tag. -/
theorem parses_leaf (r : Bits) (h : d.TreeInv) (hd : d.tdone = false) (hi : d.ncount.val = i.val) (hlink : d.LinkedBy d1 i)
    (he : tdBit true d = .ok (d1.started i true)) :
    d.Parses (true :: r) (parseFuel (fuel + 1) (true :: r) i.val) := by
  rcases Nat.lt_or_ge r.length 8 with hshort | hlong
  · rw [parseFuel_short i.isLt.ne hshort]
    have hd1 : d1.tdone = false := by rw [hlink.frame]; exact hd
    obtain ⟨e, he', hopen⟩ := tdBits_sym_short (d := d1.started i true) (bits := r) rfl hd1
      ((Nat.zero_add _).trans_lt hshort)
    exact ⟨e, (tdBits_cons_ok r hd he).trans he', hopen⟩
  · obtain ⟨sym, r, rfl⟩ := exists_byte_of_le r hlong
    have hser : true :: (bitsMSB 8 sym ++ r) = (CodeTree.leaf sym).ser ++ r := rfl
    rw [hser, parseFuel_leaf sym r i.isLt]
    obtain ⟨e, hread, hto⟩ := readTo_leaf sym h hd hlink he
    exact ⟨e, i, hi, rfl, hread, hto.count, hto⟩

/-! ### An Internal node -/

theorem parseFuel_left_error {k : Nat} {r : Bits} {x : ParseError} (hk : k ≠ Config.nodeCap)
    (hl : parseFuel fuel r (k + 1) = .error x) : parseFuel (fuel + 1) (false :: r) k = .error x := by
  simp only [parseFuel, hk, if_false, Bool.false_eq_true, hl]

theorem parseFuel_right_error {k k1 : Nat} {r r1 : Bits} {l : CodeTree} {x : ParseError} (hk : k ≠ Config.nodeCap)
    (hl : parseFuel fuel r (k + 1) = .ok (l, r1, k1)) (hr : parseFuel fuel r1 k1 = .error x) :
    parseFuel (fuel + 1) (false :: r) k = .error x := by
  simp only [parseFuel, hk, if_false, Bool.false_eq_true, hl, hr]

/-- TD has started Internal node `i` and read its left subtree: `i` waits for its right child, and the nodes before it are
as `i`'s link left them. -/
theorem readTo_left {d2 : Dec} {j : NodeIdx} {l : CodeTree} (hj : j.val = i.val + 1)
    (hto : (d1.started i false).ReadTo d2 l j) :
    d2.stk = (i, .right) :: d1.stk ∧ d2.nodeAt i = .internal (some j) none ∧
      ∀ m, m.val < i.val → d2.nodeAt m = d1.nodeAt m := by
  obtain ⟨f, hlink, hstk, hnodes⟩ := hto.linked
  obtain ⟨hstk', -, hnode, -⟩ := hlink.left i d1.stk (d1.started_internal_stk i)
  refine ⟨hstk.trans hstk', (hnodes i (by omega)).trans hnode, fun m hm => ?_⟩
  have hne : i ≠ m := by
    rintro rfl
    exact lt_irrefl _ hm
  rw [hnodes m (by omega), hlink.others m (by simpa [Dec.started_internal_stk] using hne), d1.started_nodeAt_ne false hne]

/-- Two subtrees read one after the other under a started node make one subtree. -/
theorem readTo_internal {d2 d3 : Dec} {j k : NodeIdx} {l r : CodeTree} (hlink : d.LinkedBy d1 i) (hj : j.val = i.val + 1)
    (hl : (d1.started i false).ReadTo d2 l j) (hk : d2.ncount.val = k.val)
    (hr : d2.ReadTo d3 r k) : d.ReadTo d3 (.internal l r) i := by
  obtain ⟨hstk2, hnode2, hbefore2⟩ := readTo_left hj hl
  obtain ⟨g, hlink3, hstk3, hnodes3⟩ := hr.linked
  obtain ⟨hstk3', hlt, j', hwas, hnode3⟩ := hlink3.right i d1.stk hstk2
  cases hnode2.symm.trans hwas
  have hcount := hl.count
  have hcount3 := hr.count
  have hkeep : ∀ m, m.val < k.val → m ≠ i → d3.nodeAt m = d2.nodeAt m := fun m hm hne =>
    (hnodes3 m hm).trans (hlink3.others m (by simpa [hstk2] using hne.symm))
  refine ⟨hr.tree, hr.tag, by simp only [CodeTree.nodes]; omega, ⟨j, k, (hnodes3 i hlt).trans hnode3, hj, by omega, ?_, hr.holds⟩,
    d1, hlink, hstk3.trans hstk3', fun m hm => ?_⟩
  · exact hl.holds.congr fun m hm hm' => hkeep m (by omega) (by rintro rfl; omega)
  · exact (hkeep m (by omega) (by rintro rfl; omega)).trans (hbefore2 m hm)

/-- TD and `Parse` on a string that begins with an Internal node's tag, if they agree on its subtrees. -/
theorem parses_internal (s : Bits) (h : d.TreeInv) (hd : d.tdone = false) (hi : d.ncount.val = i.val)
    (hlink : d.LinkedBy d1 i) (hm : d.tmode = .tag) (he : tdBit false d = .ok (d1.started i false))
    (ih : ∀ {s : Bits} {e : Dec}, e.TreeInv → e.tmode = .tag → e.tdone = false → d.ncount.val < e.ncount.val →
      e.Parses s (parseFuel fuel s e.ncount.val)) :
    d.Parses (false :: s) (parseFuel (fuel + 1) (false :: s) i.val) := by
  have hbits := tdBits_cons_ok s hd he
  have hT := tdBit_treeInv h hd he
  have hleft := ih (s := s) hT (by rw [hlink.frame]; exact hm) (hT.tdone_false (by simp [Dec.started_internal_stk]))
    (by simp; omega)
  rw [Dec.started_ncount] at hleft
  rcases hl : parseFuel fuel s (i.val + 1) with x | ⟨l, s1, k1⟩ <;> rw [hl] at hleft
  · rw [parseFuel_left_error i.isLt.ne hl]
    exact hleft.error_of_eq hbits
  obtain ⟨d2, j, hj, rfl, hread2, hk1, hto2⟩ := hleft
  have hj : j.val = i.val + 1 := by rw [← hj, Dec.started_ncount]
  rw [tdBits_append s1 hread2] at hbits
  obtain ⟨hstk2, -⟩ := readTo_left hj hto2
  have hright := ih (s := s1) hto2.tree hto2.tag (hto2.tree.tdone_false (by simp [hstk2]))
    (by rw [hto2.count]; omega)
  rw [hk1] at hright
  rcases hr : parseFuel fuel s1 k1 with x | ⟨r, s2, k2⟩ <;> rw [hr] at hright
  · rw [parseFuel_right_error i.isLt.ne hl hr]
    exact hright.error_of_eq hbits
  obtain ⟨d3, k, hk, rfl, hread3, hk2, hto3⟩ := hright
  rw [parseFuel_internal i.isLt hl hr]
  refine ⟨d3, i, hi, by simp [CodeTree.ser], ?_, hk2, readTo_internal hlink hj hto2 hk hto3⟩
  rw [CodeTree.ser, tdBits_cons_ok _ hd he, tdBits_append _ hread2, hread3]

end

/-- TD and `Parse` agree on every string, from every state between two nodes: the fuel is enough for the nodes left. -/
theorem parseFuel_parses {fuel : Nat} {s : Bits} {d : Dec} (h : d.TreeInv) (hm : d.tmode = .tag) (hd : d.tdone = false)
    (hfuel : Config.nodeCap < fuel + d.ncount.val) : d.Parses s (parseFuel fuel s d.ncount.val) := by
  induction fuel generalizing s d with
  | zero =>
    have := d.ncount.isLt
    omega
  | succ fuel ih =>
    rcases s with _ | ⟨b, r⟩
    · exact ⟨d, rfl, hd⟩
    by_cases hfull : d.ncount.val = Config.nodeCap
    · have hparse : parseFuel (fuel + 1) (b :: r) d.ncount.val = .error .tooManyNodes := if_pos hfull
      rw [hparse]
      exact tdBits_cons_error r hd (tdBit_full b hm hfull)
    have hlt : d.ncount.val < Config.nodeCap := by
      have := d.ncount.isLt
      omega
    obtain ⟨d1, hlink, he⟩ := tdBit_tag (i := ⟨d.ncount.val, hlt⟩) b h hm hd rfl
    cases b with
    | true => exact parses_leaf r h hd rfl hlink he
    | false =>
      have he : tdBit false d = .ok (d1.started ⟨d.ncount.val, hlt⟩ false) := he
      exact parses_internal r h hd rfl hlink hm he fun hT hm' hd' hlt' => ih hT hm' hd' (by omega)

/-- TD before the first bit of a tree section. -/
structure Dec.Fresh (d : Dec) : Prop where
  tree : d.TreeInv
  tag : d.tmode = .tag
  incomplete : d.tdone = false
  count : d.ncount.val = 0

theorem CodeTree.nodes_pos (t : CodeTree) : 0 < t.nodes := by cases t <;> exact Nat.succ_pos _

/-- TD on a whole string: it faults, leaves the tree incomplete, or holds the tree that the string begins with; and `Parse`
answers the same (rules R105, R108). -/
theorem Dec.Fresh.parse_cases {d : Dec} (h : d.Fresh) (s : Bits) :
    (tdBits s d = raiseDec .unsupportedInput ∧ parse s = .error .tooManyNodes) ∨
    (∃ e, tdBits s d = .ok e ∧ e.tdone = false ∧ parse s = .error .exhausted) ∨
    (∃ e t r, tdBits s d = .ok e ∧ e.tdone = true ∧ s = t.ser ++ r ∧ t.nodes ≤ Config.nodeCap ∧ Holds e.node t 0) := by
  have hparses := parseFuel_parses (s := s) (fuel := Config.nodeCap + 1) h.tree h.tag h.incomplete (by omega)
  rw [h.count, ← parse] at hparses
  rcases hp : parse s with x | ⟨t, r, k⟩ <;> rw [hp] at hparses
  · cases x with
    | tooManyNodes => exact .inl ⟨hparses, rfl⟩
    | exhausted =>
      obtain ⟨e, he, hopen⟩ := hparses
      exact .inr (.inl ⟨e, he, hopen, rfl⟩)
  · obtain ⟨e, i, -, rfl, hread, -, hto⟩ := hparses
    obtain ⟨d1, hlink, hstk, -⟩ := hto.linked
    obtain ⟨hroot, rfl⟩ := hlink.root (h.tree.stk_nil h.count)
    have hcount : e.ncount.val = t.nodes := hto.count.trans (Nat.zero_add _)
    have hdone : e.tdone = true := hto.tree.done_iff.mpr ⟨hto.tag, hstk.trans hroot, hcount ▸ t.nodes_pos⟩
    refine .inr (.inr ⟨e, t, r, ?_, hdone, rfl, hcount ▸ Nat.le_of_lt_succ e.ncount.isLt, hto.holds⟩)
    rw [tdBits_append r hread, tdBits_of_done r hdone]

section
variable {d e : Dec} {s : Bits}

theorem Dec.Fresh.parse_of_fault (h : d.Fresh) (he : tdBits s d = raiseDec .unsupportedInput) :
    parse s = .error .tooManyNodes := by
  rcases h.parse_cases s with ⟨-, hparse⟩ | ⟨_, hok, -⟩ | ⟨_, _, _, hok, -⟩
  · exact hparse
  · cases he.symm.trans hok
  · cases he.symm.trans hok

theorem Dec.Fresh.parse_of_open (h : d.Fresh) (he : tdBits s d = .ok e) (hopen : e.tdone = false) :
    parse s = .error .exhausted := by
  rcases h.parse_cases s with ⟨hfault, -⟩ | ⟨_, -, -, hparse⟩ | ⟨_, _, _, hok, hdone, -⟩
  · cases he.symm.trans hfault
  · exact hparse
  · cases he.symm.trans hok
    cases hopen.symm.trans hdone

theorem Dec.Fresh.ser_of_done (h : d.Fresh) (he : tdBits s d = .ok e) (hdone : e.tdone = true) :
    ∃ t r, s = CodeTree.ser t ++ r ∧ t.nodes ≤ Config.nodeCap ∧ Holds e.node t 0 := by
  rcases h.parse_cases s with ⟨hfault, -⟩ | ⟨_, hok, hopen, -⟩ | ⟨_, t, r, hok, -, hser⟩
  · cases he.symm.trans hfault
  · cases he.symm.trans hok
    cases hopen.symm.trans hdone
  · cases he.symm.trans hok
    exact ⟨t, r, hser⟩

end

/-! ## UD computes `Walk`: rules R135, R136, R141 -/

/-- The walk stands in tree `t` of the arena at its subtree `cur`, an Internal node: rule R136. -/
structure Dec.WalksOn (d : Dec) (t cur : CodeTree) : Prop where
  root : Holds d.node t 0
  here : Holds d.node cur d.cur
  internal : t.isLeaf = false ∧ cur.isLeaf = false
  inside : d.cur.val + cur.nodes ≤ t.nodes
  at_root : d.cur = 0 ↔ cur = t

/-- The two children of an Internal node in the arena, both behind it and inside its subtree. -/
theorem Holds.children {a : Vector Node Config.nodeCap} {l r : CodeTree} {i : NodeIdx} (h : Holds a (.internal l r) i) :
    ∃ j k : NodeIdx, a[i.val]'i.isLt = .internal (some j) (some k) ∧ ∀ b : Bool,
      Holds a (if b then r else l) (if b then k else j) ∧ i.val < (if b then k else j).val ∧
      (if b then k else j).val + (if b then r else l).nodes ≤ i.val + (CodeTree.internal l r).nodes := by
  obtain ⟨j, k, hn, hj, hk, hl, hr⟩ := h
  refine ⟨j, k, hn, fun b => ?_⟩
  simp only [CodeTree.nodes]
  cases b
  · exact ⟨hl, by simp [hj], by simp; omega⟩
  · exact ⟨hr, by simp; omega, by simp; omega⟩

/-- UD and `Walk` agree on every string: both overflow, or the walk ends at the root with the output, or inside a code. -/
theorem walk_cases {outCap : Nat} {t cur : CodeTree} {d : Dec} (bits : Bits) (h : d.WalksOn t cur) :
    (udBits outCap bits d = raiseDec .unsupportedInput ∧ walk outCap t cur bits d.obuf = .error .unsupportedInput) ∨
    (∃ e, udBits outCap bits d = .ok e ∧
      walk outCap t cur bits d.obuf = if e.cur = 0 then .ok e.obuf else .error .corruptPayload) := by
  induction bits generalizing d cur with
  | nil => exact .inr ⟨d, rfl, by simp only [walk_nil, h.at_root]⟩
  | cons b rest ih =>
    cases cur with
    | leaf => cases h.internal.2
    | internal l r =>
      obtain ⟨j, k, hn, hchild⟩ := h.here.children
      obtain ⟨hholds, hbehind, hinside⟩ := hchild b
      obtain ⟨hleaf, hinternal⟩ := walkBit d outCap b j k hn
      have hin := h.inside
      cases hc : (if b then r else l) with
      | leaf sym =>
        rw [hc] at hholds
        obtain ⟨hover, hemit⟩ := hleaf sym hholds
        by_cases hfull : d.obuf.length = outCap
        · exact .inl ⟨by rw [udBits, hover hfull]; rfl, walk_full hc hfull⟩
        · rw [walk_leaf hc hfull, udBits, hemit hfull]
          exact ih ⟨h.root, h.root, ⟨h.internal.1, h.internal.1⟩, by simp, by simp⟩
      | internal l' r' =>
        rw [hc] at hholds hinside
        obtain ⟨j', k', hnode, -⟩ := hholds.children
        rw [walk_internal hc, udBits, hinternal _ _ hnode]
        refine ih ⟨h.root, hholds, ⟨h.internal.1, rfl⟩, hinside.trans hin, ?_⟩
        constructor
        · intro hzero
          simp only at hzero
          simp [hzero] at hbehind
        · intro heq
          rw [heq] at hinside
          omega

/-! ## Frames: rules R91, R130 to R141 -/

/-- DEC shows the result of a frame: rule R141. -/
def Dec.Shows (d : Dec) : Except FaultCode (List Byte) → Prop
  | .ok out => d.phase = .done ∧ d.obuf = out
  | .error c => d.phase = .fault ∧ d.dfault = c ∧ d.obuf = []

/-- A DEC that shows a result shows no other. -/
theorem Dec.Shows.iff {d : Dec} {r : Except FaultCode (List Byte)} (h : d.Shows r) (r' : Except FaultCode (List Byte)) :
    r = r' ↔ d.Shows r' := by
  refine ⟨fun e => e ▸ h, fun h' => ?_⟩
  rcases r with c | out <;> rcases r' with c' | out' <;> obtain ⟨hp, hrest⟩ := h <;> obtain ⟨hp', hrest'⟩ := h'
  · obtain ⟨rfl, -⟩ := hrest
    obtain ⟨rfl, -⟩ := hrest'
    rfl
  · cases hp.symm.trans hp'
  · cases hp.symm.trans hp'
  · rw [← hrest, ← hrest']

/-- The outcome is a next state that differs from `s` in DEC alone, which shows `r`. -/
def EndsWith (s : State) (r : Except FaultCode (List Byte)) (o : Host.Outcome State Fault Refusal) : Prop :=
  ∃ d : Dec, o = .next { s with dec := d } ∧ d.Shows r

/-- The bytes of a frame are delivered one by one, the last with `last = 1`: rule R91. -/
theorem frameOf_cons (b : Byte) (rest : List Byte) : frameOf (b :: rest) = .decByte b rest.isEmpty :: frameOf rest := by
  cases rest <;> rfl

section
variable {s : State} {b : Byte} {rest : List Byte} {d : Dec}

/-- The rest of a failed frame is swallowed: rule R132. -/
theorem execAll_frameOf_fault (B : List Byte) (hp : s.dec.phase = .fault) : execAll (frameOf B) s = .next s := by
  induction B with
  | nil => rfl
  | cons b rest ih => rw [frameOf_cons, execAll_cons_of_next _ (exec_decByte_fault b _ hp), ih]

/-- A frame whose first byte faults. -/
theorem endsWith_fault {c : FaultCode} (h : exec (.decByte b rest.isEmpty) s = .next { s with dec := decFaultEntry c s.dec }) :
    EndsWith s (.error c) (execAll (frameOf (b :: rest)) s) := by
  rw [frameOf_cons, execAll_cons_of_next _ h, execAll_frameOf_fault _ rfl]
  exact ⟨_, rfl, rfl, rfl, rfl⟩

/-- A frame whose first byte is executed. -/
theorem endsWith_next {r : Except FaultCode (List Byte)} (h : exec (.decByte b rest.isEmpty) s = .next { s with dec := d })
    (hrest : EndsWith { s with dec := d } r (execAll (frameOf rest) { s with dec := d })) :
    EndsWith s r (execAll (frameOf (b :: rest)) s) := by
  rw [frameOf_cons, execAll_cons_of_next _ h]
  exact hrest

/-- A frame of one byte that is executed. -/
theorem endsWith_last {r : Except FaultCode (List Byte)} (h : exec (.decByte b true) s = .next { s with dec := d })
    (hd : d.Shows r) : EndsWith s r (execAll (frameOf [b]) s) :=
  endsWith_next h ⟨d, rfl, hd⟩

end

/-! ### The payload section: rules R137, R138 -/

/-- The logical bits of a payload section: rule R137. -/
def logicalOfSection (pad : Nat) (pl : List Byte) : Bits := (bitsOf pl).take (8 * pl.length - pad)

/-- The last byte gives its first bits. -/
theorem logicalOfSection_singleton (b : Byte) (d : Dec) : logicalOfSection d.padreg.val [b] = logicalOf b true d := by
  simp [logicalOfSection, bitsOf, logicalOf, logicalBits]

/-- Every byte but the last gives all its bits. -/
theorem logicalOfSection_cons {b : Byte} {rest : List Byte} (d : Dec) (hrest : rest ≠ []) :
    logicalOfSection d.padreg.val (b :: rest) = logicalOf b false d ++ logicalOfSection d.padreg.val rest := by
  have hpos := List.length_pos_iff.mpr hrest
  have hpad := d.padreg.isLt
  have hcount : 8 * (b :: rest).length - d.padreg.val = (bitsMSB 8 b).length + (8 * rest.length - d.padreg.val) := by
    simp only [List.length_cons, length_bitsMSB]
    omega
  rw [logicalOfSection, hcount, bitsOf, List.take_length_add_append, logicalOf, logicalBits, logicalOfSection]
  simp

theorem udBits_append {outCap : Nat} {bits : Bits} {d d' : Dec} (rest : Bits) (h : udBits outCap bits d = .ok d') :
    udBits outCap (bits ++ rest) d = udBits outCap rest d' := by
  induction bits generalizing d with
  | nil =>
    cases h
    rfl
  | cons b bits ih =>
    rw [List.cons_append, udBits]
    rw [udBits] at h
    split at h
    · exact ih h
    · cases h

theorem udBits_append_error {outCap : Nat} {bits : Bits} {d : Dec} {e : DecStop} (rest : Bits)
    (h : udBits outCap bits d = .error e) : udBits outCap (bits ++ rest) d = .error e := by
  induction bits generalizing d with
  | nil => cases h
  | cons b bits ih =>
    rw [List.cons_append, udBits]
    rw [udBits] at h
    split at h
    · exact ih h
    · exact h

section
variable {s : State} {b : Byte} {d : Dec} {pl : List Byte}

/-- The last payload byte, in which the walk does not overflow: rule R138. -/
theorem endsWith_payload_last (hp : s.dec.phase = .payload)
    (hu : udBits s.params.outCap (logicalOf b true s.dec) s.dec = .ok d) :
    EndsWith s (if d.cur = 0 then .ok d.obuf else .error .corruptPayload) (execAll (frameOf [b]) s) := by
  have hexec := exec_decByte_payload b true hp
  by_cases hcur : d.cur = 0
  · rw [if_pos hcur]
    exact endsWith_last (hexec.trans (decCommand_ok (payloadByte_done hu hcur))) ⟨rfl, rfl⟩
  · rw [if_neg hcur]
    exact endsWith_fault (hexec.trans (decCommand_fault (payloadByte_midCode hu hcur)))

/-- A payload byte in which the walk overflows: rule R135. -/
theorem endsWith_payload_overflow (hp : s.dec.phase = .payload)
    (hu : udBits s.params.outCap (logicalOf b pl.isEmpty s.dec) s.dec = raiseDec .unsupportedInput) :
    EndsWith s (.error .unsupportedInput) (execAll (frameOf (b :: pl)) s) :=
  endsWith_fault ((exec_decByte_payload b _ hp).trans (decCommand_fault (payloadByte_error hu)))

/-- The payload section of a frame: the walk over all its logical bits overflows, or ends and rule R138 decides. -/
theorem payload_section (hp : s.dec.phase = .payload) (h : s.dec.WalkInv s.params.outCap) (hpl : pl ≠ []) :
    (udBits s.params.outCap (logicalOfSection s.dec.padreg.val pl) s.dec = raiseDec .unsupportedInput ∧
      EndsWith s (.error .unsupportedInput) (execAll (frameOf pl) s)) ∨
    (∃ e, udBits s.params.outCap (logicalOfSection s.dec.padreg.val pl) s.dec = .ok e ∧
      EndsWith s (if e.cur = 0 then .ok e.obuf else .error .corruptPayload) (execAll (frameOf pl) s)) := by
  induction pl generalizing s with
  | nil => exact absurd rfl hpl
  | cons b rest ih =>
    by_cases hrest : rest = []
    · subst hrest
      rw [logicalOfSection_singleton]
      rcases udBits_keeps (logicalOf b true s.dec) h with ⟨d, e, -⟩ | e
      · exact .inr ⟨d, e, endsWith_payload_last hp e⟩
      · exact .inl ⟨e, endsWith_payload_overflow hp e⟩
    · have hlast : rest.isEmpty = false := by simpa using hrest
      rw [logicalOfSection_cons s.dec hrest]
      rcases udBits_keeps (logicalOf b false s.dec) h with ⟨d, e, hwalk, hd⟩ | e
      · have hnext : exec (.decByte b rest.isEmpty) s = .next { s with dec := d } := by
          rw [hlast, exec_decByte_payload b false hp]
          exact decCommand_ok (payloadByte_more e)
        have hphase : d.phase = .payload := by rw [hd]; exact hp
        have hpad : d.padreg = s.dec.padreg := by rw [hd]
        have htail := ih (s := { s with dec := d }) hphase hwalk hrest
        rw [udBits_append _ e, ← hpad]
        exact htail.imp (And.imp_right (endsWith_next hnext)) (Exists.imp fun _ => And.imp_right (endsWith_next hnext))
      · exact .inl ⟨udBits_append_error _ e, endsWith_payload_overflow hp (hlast ▸ e)⟩

end

/-! ### The tree section: rules R105 to R107 -/

/-- The byte that decides the tree section is the one in which TD faults or completes the tree, or else the frame's last. -/
theorem exists_deciding_byte {body : List Byte} {s : State} (hbody : body ≠ []) (hp : s.dec.phase = .tree)
    (h : s.dec.TreeInv) (hd : s.dec.tdone = false) :
    ∃ c b pl e, body = c ++ b :: pl ∧ tdBits (bitsOf c) s.dec = .ok e ∧ e.tdone = false ∧
      execAll (frameOf body) s = execAll (frameOf (b :: pl)) { s with dec := e } ∧
      (tdBits (bitsMSB 8 b) e = raiseDec .unsupportedInput ∨
        ∃ d, tdBits (bitsMSB 8 b) e = .ok d ∧ (d.tdone = true ∨ (d.tdone = false ∧ pl = []))) := by
  induction body generalizing s with
  | nil => exact absurd rfl hbody
  | cons b rest ih =>
    rcases tdBits_cases (bitsMSB 8 b) h with ⟨d, e, hT, hsame⟩ | e
    · by_cases hmore : d.tdone = true ∨ (d.tdone = false ∧ rest = [])
      · exact ⟨[], b, rest, s.dec, rfl, rfl, hd, rfl, .inr ⟨d, e, hmore⟩⟩
      · rw [not_or, Bool.not_eq_true] at hmore
        obtain ⟨hopen, hne⟩ := hmore
        have hrest : rest ≠ [] := fun hnil => hne ⟨hopen, hnil⟩
        have hlast : rest.isEmpty = false := by simpa using hrest
        have hnext : exec (.decByte b rest.isEmpty) s = .next { s with dec := d } := by
          rw [hlast, exec_decByte_tree b false hp]
          exact decCommand_ok (treeByte_open e hopen)
        obtain ⟨c, b', pl, e', rfl, hread, hopen', hrun, hdecides⟩ :=
          ih (s := { s with dec := d }) hrest (hsame.phase.trans hp) hT hopen
        refine ⟨b :: c, b', pl, e', rfl, ?_, hopen', ?_, hdecides⟩
        · rw [bitsOf, tdBits_append _ e, hread]
        · rw [frameOf_cons, execAll_cons_of_next _ hnext, hrun]
    · exact ⟨[], b, rest, s.dec, rfl, rfl, hd, rfl, .inl e⟩

/-- Fewer than eight bits are left in the byte that completes the tree: before it the tree was incomplete. -/
theorem Dec.Fresh.length_rest_lt {d e : Dec} {c : List Byte} {b : Byte} {t : CodeTree} {r : Bits} (h : d.Fresh)
    (hread : tdBits (bitsOf c) d = .ok e) (hopen : e.tdone = false) (hser : bitsOf (c ++ [b]) = t.ser ++ r)
    (ht : t.nodes ≤ Config.nodeCap) : r.length < 8 := by
  by_contra hlong
  have hlen := congrArg List.length hser
  simp only [length_bitsOf, List.length_append, List.length_singleton] at hlen
  obtain ⟨r', hr'⟩ : t.ser <+: bitsOf c :=
    List.prefix_of_prefix_length_le ⟨r, hser.symm⟩ ⟨bitsOf [b], (bitsOf_append c [b]).symm⟩
      (by rw [length_bitsOf]; omega)
  have hparse := h.parse_of_open hread hopen
  rw [← hr', parseUndoesSer t r' ht] at hparse
  cases hparse

/-! ### From the byte that completes the tree on: rules R106, R141 -/

section
variable {outCap : Nat} {t : CodeTree} {h : Byte} {pl : List Byte}

/-- No payload section and no padding: the empty output. -/
theorem decodePayload_nil (hzero : h.toNat = 0) : decodePayload outCap t h [] = .ok [] := by
  simp [decodePayload, hzero, bitsOf, walk_nil]

/-- No payload section, but padding announced. -/
theorem decodePayload_nil_padded (hpos : 0 < h.toNat) : decodePayload outCap t h [] = .error .corruptPayload :=
  if_pos ⟨rfl, hpos⟩

/-- A payload section is walked over its logical bits. -/
theorem decodePayload_of_ne_nil (hpl : pl ≠ []) :
    decodePayload outCap t h pl = walk outCap t t (logicalOfSection h.toNat pl) [] :=
  if_neg fun ⟨hnil, _⟩ => hpl hnil

end

section
variable {s : State} {b h : Byte} {pl : List Byte} {d : Dec} {t : CodeTree}

/-- A payload section ends with what `Decode` answers on it: UD computes `Walk`. -/
theorem endsWith_payload (hp : s.dec.phase = .payload) (hW : s.dec.WalkInv s.params.outCap) (hon : s.dec.WalksOn t t)
    (hpad : s.dec.padreg.val = h.toNat) (hobuf : s.dec.obuf = []) (hpl : pl ≠ []) :
    EndsWith s (decodePayload s.params.outCap t h pl) (execAll (frameOf pl) s) := by
  rw [decodePayload_of_ne_nil hpl, ← hpad, ← hobuf]
  rcases walk_cases (outCap := s.params.outCap) (logicalOfSection s.dec.padreg.val pl) hon with ⟨hu, hw⟩ | ⟨e, hu, hw⟩ <;>
    rcases payload_section hp hW hpl with ⟨hu', hends⟩ | ⟨e', hu', hends⟩ <;> cases hu.symm.trans hu'
  · exact hw ▸ hends
  · exact hw ▸ hends

/-- The byte that completes the tree, and the rest of the frame: rule R106, then the payload. -/
theorem endsWith_complete (hp : s.dec.phase = .tree) (hread : tdBits (bitsMSB 8 b) s.dec = .ok d) (hd : d.tdone = true)
    (hT : d.TreeInv) (hholds : Holds d.node t 0) (hpad : d.padreg.val = h.toNat) (hobuf : d.obuf = []) :
    EndsWith s (if t.isLeaf then .error .malformedTree else decodePayload s.params.outCap t h pl)
      (execAll (frameOf (b :: pl)) s) := by
  have hend : ∀ last, treeByte b last s.dec = treeEnd last d := fun last => treeByte_complete hread hd
  have hok : ∀ {last e}, treeEnd last d = .ok e → exec (.decByte b last) s = .next { s with dec := e } := fun he =>
    (exec_decByte_tree b _ hp).trans (decCommand_ok ((hend _).trans he))
  have hfault : ∀ {last c}, treeEnd last d = raiseDec c →
      exec (.decByte b last) s = .next { s with dec := decFaultEntry c s.dec } := fun he =>
    (exec_decByte_tree b _ hp).trans (decCommand_fault ((hend _).trans he))
  have hroot := hholds.isLeaf
  cases hleaf : t.isLeaf with
  | true => exact endsWith_fault (hfault (treeEnd_leaf (hroot.trans hleaf)))
  | false =>
    rw [hleaf] at hroot
    rw [if_neg Bool.false_ne_true]
    by_cases hpl : pl = []
    · subst hpl
      by_cases hzero : d.padreg = 0
      · rw [decodePayload_nil (hpad.symm.trans (congrArg Fin.val hzero))]
        exact endsWith_last (hok (treeEnd_empty hroot hzero)) ⟨rfl, hobuf⟩
      · rw [decodePayload_nil_padded (hpad ▸ Fin.pos_iff_ne_zero.mpr hzero)]
        exact endsWith_fault (hfault (treeEnd_padded hroot hzero))
    · have hlast : pl.isEmpty = false := by simpa using hpl
      have hnext : exec (.decByte b pl.isEmpty) s = .next { s with dec := { d with cur := 0, phase := .payload } } :=
        hok (hlast ▸ treeEnd_more hroot)
      refine endsWith_next hnext (endsWith_payload rfl ?_ ?_ hpad hobuf hpl)
      · exact ⟨{ hT with cur_low := by simp }, hd, hroot, hroot, by simp [hobuf]⟩
      · exact ⟨hholds, hholds, ⟨hleaf, hleaf⟩, by simp, by simp⟩

end

/-! ### Whole frames: rules R133, R141 -/

/-- DEC right after a header byte that is not the last: rule R133 (b). -/
structure Dec.AtTree (d : Dec) (h : Byte) : Prop extends d.Fresh where
  phase : d.phase = .tree
  header : d.padreg.val = h.toNat
  obuf : d.obuf = []

/-- A header byte from a cleared DEC: rules R131, R133 (b). -/
theorem decRestart_atTree (d : Dec) {h : Byte} (hh : h.toNat ≤ 7) :
    ({ decRestart d with padreg := Fin.ofNat 8 h.toNat, phase := .tree } : Dec).AtTree h :=
  { phase := rfl
    header := Nat.mod_eq_of_lt (Nat.lt_succ_of_le hh)
    tree := { (decRestart_inv 0 d).toTreeInv with }
    tag := rfl
    incomplete := rfl
    count := rfl
    obuf := rfl }

theorem decodeFrame_parse_error {outCap : Nat} {h : Byte} {body : List Byte} {x : ParseError} (hh : h.toNat ≤ 7)
    (hbody : body ≠ []) (hx : parse (bitsOf body) = .error x) : decodeFrame outCap (h :: body) = .error x.fault := by
  simp only [decodeFrame, if_neg (Nat.not_lt.mpr hh), if_neg hbody, hx]

/-- A frame from its first tree byte on ends with what `Decode` answers: the byte that decides the tree section decides it as
`Parse` does. -/
theorem endsWith_body {s : State} {h : Byte} {body : List Byte} (hs : s.dec.AtTree h) (hbody : body ≠ []) :
    EndsWith s (decodeFrame s.params.outCap (h :: body)) (execAll (frameOf body) s) := by
  have hh : h.toNat ≤ 7 := hs.header ▸ Nat.le_of_lt_succ s.dec.padreg.isLt
  obtain ⟨c, b, pl, e, rfl, hread, hopen, hrun, hdecides⟩ := exists_deciding_byte hbody hs.phase hs.tree hs.incomplete
  have hpe : e.phase = .tree := (hs.tree.sameOutside_of_tdBits hread).phase.trans hs.phase
  have hbits : ∀ rest, bitsOf (c ++ b :: rest) = bitsOf c ++ (bitsMSB 8 b ++ bitsOf rest) := fun rest =>
    bitsOf_append c (b :: rest)
  have hfault : ∀ {last x}, treeByte b last e = raiseDec x → exec (.decByte b last) { s with dec := e } =
      .next { s with dec := decFaultEntry x e } := fun he =>
    (exec_decByte_tree (s := { s with dec := e }) b _ hpe).trans (decCommand_fault he)
  rw [hrun]
  rcases hdecides with hover | ⟨d, hd, hdecides⟩
  · have hall : tdBits (bitsOf (c ++ b :: pl)) s.dec = raiseDec .unsupportedInput := by
      rw [hbits, tdBits_append _ hread]
      exact tdBits_append_error _ hover
    rw [decodeFrame_parse_error hh hbody (hs.parse_of_fault hall)]
    exact endsWith_fault (s := { s with dec := e }) (hfault (treeByte_error hover))
  · have hall : tdBits (bitsOf (c ++ [b])) s.dec = .ok d := by
      rw [hbits, tdBits_append _ hread, bitsOf, List.append_nil, hd]
    rcases hdecides with hdone | ⟨hundone, rfl⟩
    · obtain ⟨t, r, hser, ht, hholds⟩ := hs.ser_of_done hall hdone
      have hsame := hs.tree.sameOutside_of_tdBits hall
      rw [List.append_cons, decodeFrame_sections hh hser (hs.length_rest_lt hread hopen hser ht) ht]
      exact endsWith_complete (s := { s with dec := e }) hpe hd hdone (tdBits_treeInv hs.tree hall) hholds
        (hsame.padreg ▸ hs.header) (hsame.obuf.trans hs.obuf)
    · rw [decodeFrame_parse_error hh hbody (hs.parse_of_open hall hundone)]
      exact endsWith_fault (s := { s with dec := e }) (hfault (treeByte_open hd hundone))

/-- A whole frame from a cleared DEC: the header byte, then the rest. -/
theorem endsWith_frame {s : State} {B : List Byte} (hB : B ≠ []) (hs : s.dec = decRestart s.dec) :
    EndsWith s (decodeFrame s.params.outCap B) (execAll (frameOf B) s) := by
  obtain ⟨h, body, rfl⟩ := List.exists_cons_of_ne_nil hB
  have hexec : ∀ last, exec (.decByte h last) s = decCommand (hdrByte h last) s := fun last =>
    exec_decByte_hdr h last (by rw [hs]; rfl)
  rcases Nat.lt_or_ge 7 h.toNat with hbig | hh
  · rw [decodeFrame, if_pos hbig]
    exact endsWith_fault ((hexec _).trans (decCommand_fault (hdrByte_invalid hbig)))
  by_cases hbody : body = []
  · subst hbody
    rw [decodeFrame, if_neg (Nat.not_lt.mpr hh), if_pos rfl]
    by_cases hzero : h.toNat = 0
    · obtain rfl : h = 0#8 := BitVec.eq_of_toNat_eq hzero
      refine endsWith_last ((hexec true).trans (decCommand_ok hdrByte_empty)) ⟨rfl, ?_⟩
      rw [hs]
      rfl
    · rw [if_neg hzero]
      exact endsWith_fault ((hexec true).trans (decCommand_fault (hdrByte_alone (Nat.pos_of_ne_zero hzero) hh)))
  · have hlast : body.isEmpty = false := by simpa using hbody
    have hnext := (hexec body.isEmpty).trans (decCommand_ok (hlast ▸ hdrByte_more hh))
    refine endsWith_next hnext (endsWith_body ?_ hbody)
    rw [hs]
    exact decRestart_atTree s.dec hh

/-- Settles O38: after `DEC.CLR` the frame ends with what `Decode` answers, and a DEC shows one result. -/
theorem machineDecodesFrames : Obligations.MachineDecodesFrames := by
  intro B s hB
  obtain ⟨d, hrun, hshows⟩ := endsWith_frame (s := { s with dec := decRestart s.dec }) hB rfl
  exact ⟨_, (execAll_cons_of_next _ (exec_decClr s)).trans hrun, rfl, fun out => hshows.iff (.ok out),
    fun c => hshows.iff (.error c)⟩

end Sys2Proof.Machine

/-! # The host registers (rules R150 to R160)

What a write of `CMD` runs, and the word each read returns, field by field. -/

namespace Sys2Proof

/-! ## The command a word selects: rules R80 to R85, R150 -/

section
variable {w : Word} {c : Instr}

theorem eq_of_decodeZ {i : Instr} (h : decodeZ i w = .ok c) : c = i := by
  rw [decodeZ] at h
  split_ifs at h
  exact (Except.ok.inj h).symm

theorem eq_of_decodeS {f : Byte → Instr} (h : decodeS f w = .ok c) : c = f (byteField w) := by
  rw [decodeS] at h
  split_ifs at h
  exact (Except.ok.inj h).symm

theorem eq_of_decodeB {f : Nat → BitVec 16 → Instr} (h : decodeB f w = .ok c) : c = f (countField w).toNat (dataField w) := by
  rw [decodeB] at h
  split_ifs at h
  exact (Except.ok.inj h).symm

theorem eq_of_decodeD {f : Byte → Bool → Instr} (h : decodeD f w = .ok c) : c = f (byteField w) (lastField w) := by
  rw [decodeD] at h
  split_ifs at h
  exact (Except.ok.inj h).symm

end

namespace Machine

/-- Settles O5: the opcode chooses the format, and a format that takes the word answers the command with the word's fields. -/
theorem cmdWriteRunsTheCommand : Obligations.CmdWriteRunsTheCommand := by
  intro w s
  refine ⟨fun e he => exec_wrCmd_error he s, fun i h => ⟨exec_wrCmd_ok h s, ?_⟩⟩
  refine ⟨?_, ?_, ?_, ?_, ?_, ?_, ?_, ?_, ?_⟩ <;> intro hop <;> rw [decodeCmd, opField, hop] at h
  · exact eq_of_decodeZ h
  · exact eq_of_decodeZ h
  · exact eq_of_decodeS h
  · exact eq_of_decodeB h
  · exact eq_of_decodeB h
  · exact eq_of_decodeS h
  · exact eq_of_decodeZ h
  · exact eq_of_decodeZ h
  · exact eq_of_decodeD h

/-- The word of a well-formed command, written to `CMD`, runs the command: rule R150. -/
theorem exec_wrCmd_encodeWord {c : Instr} (hc : c.isCommand = true) (hw : c.wellFormed = true) (s : State) :
    exec (.wrCmd (encodeWord c)) s = exec c s :=
  exec_wrCmd_ok (decodeCmd_encodeWord hc hw) s

/-- The stream, that is the FIFO's bits and the pending ones, is continued by the bits appended: rule R111. -/
theorem Pk.appended_stream (p : Pk) (bits : Bits) :
    bitsOf (p.appended bits).fifo ++ (p.appended bits).acc = bitsOf p.fifo ++ p.acc ++ bits := by
  rw [Pk.appended_fifo, Pk.appended_acc, bitsOf_append, List.append_assoc, bitsOf_bytesOf_pendingOf, List.append_assoc]

/-- Settles O6: each word is the encoding of its command, whose own effect is known. -/
theorem cmdWriteCompletes : Obligations.CmdWriteCompletes := fun s =>
  ⟨(exec_wrCmd_encodeWord (c := .pkClr) rfl rfl s).trans (exec_pkClr s),
    (exec_wrCmd_encodeWord (c := .decClr) rfl rfl s).trans (exec_decClr s),
    fun n data hformat h hroom =>
      ⟨_, (exec_wrCmd_encodeWord (c := .pkPush n data) rfl hformat s).trans (exec_pkPush_of_room h hroom), h,
        s.pk.appended_stream (bitsMSB n data)⟩⟩

/-! ## The status words: rules R42, R43, R152, R154, R156 -/

/-- A field of a word as a quotient and a remainder, for `omega`. -/
theorem field_toNat (w : Word) (lo n : Nat) : (w.extractLsb' lo n).toNat = w.toNat / 2 ^ lo % 2 ^ n := by
  rw [BitVec.extractLsb'_toNat, Nat.shiftRight_eq_div_pow]

/-- The word's fields do not overlap, so as a number it is their sum. -/
theorem pkStatWord_toNat {p : Pk} (hacc : p.acc.length ≤ 7) (hfifo : p.fifo.length ≤ 65535) :
    (pkStatWord p).toNat = p.fifo.length <<< 16 + (p.acc.length <<< 8 + (p.fault.code.toNat <<< 4 + p.pad.val)) := by
  have hcode := p.fault.code.isLt
  have hpad := p.pad.isLt
  rw [Nat.shiftLeft_add_eq_or_of_lt (by omega), Nat.shiftLeft_add_eq_or_of_lt (by omega),
    Nat.shiftLeft_add_eq_or_of_lt (by omega), ← Nat.or_assoc, ← Nat.or_assoc]
  simp (disch := omega) only [pkStatWord, BitVec.toNat_or, BitVec.toNat_shiftLeft, BitVec.toNat_ofNat,
    BitVec.toNat_setWidth, Nat.shiftLeft_eq, Nat.mod_eq_of_lt]

/-- Rule R169 numbers the codes without repetition. -/
theorem FaultCode.code_inj {c d : FaultCode} : c.code = d.code ↔ c = d := by
  cases c <;> cases d <;> decide

/-- Settles O42: the bounds of the invariant keep every term of the sum within its own field. -/
theorem pkStatRead : Obligations.PkStatRead := by
  intro s h
  obtain ⟨-, hcap, -⟩ := h.params
  have hacc := h.pk.acc_short
  have hcode := s.pk.fault.code.isLt
  have hpad := s.pk.pad.isLt
  have hsum := pkStatWord_toNat hacc (h.pk.fifo_fits.trans hcap)
  have hfault : (pkStatWord s.pk).extractLsb' 4 2 = s.pk.fault.code := BitVec.eq_of_toNat_eq (by rw [field_toNat]; omega)
  have hzero : ∀ lo n, (pkStatWord s.pk).toNat / 2 ^ lo % 2 ^ n = 0 → (pkStatWord s.pk).extractLsb' lo n = 0#n :=
    fun lo n hz => BitVec.eq_of_toNat_eq (by rw [field_toNat, hz, BitVec.toNat_zero])
  have hbit : (pkStatWord s.pk).getLsbD 3 = false := by
    rw [BitVec.getLsbD, Nat.testBit_eq_decide_div_mod_eq, decide_eq_false_iff_not]
    omega
  exact ⟨pkStatWord s.pk, rfl, by rw [field_toNat]; omega, hbit, hfault, hfault ▸ FaultCode.code_inj.symm,
    hfault ▸ FaultCode.code_inj.symm, hzero 6 2 (by omega), by rw [field_toNat]; omega, hzero 11 5 (by omega),
    by rw [field_toNat]; omega⟩

/-- Settles O43: the invariant leaves no fault code outside phase FAULT and one of three inside. -/
theorem decStatRead : Obligations.DecStatRead := by
  intro s h
  refine ⟨decStatWord s.dec, rfl, ?_⟩
  have hnone := h.dec.dfault_none
  have hsome := h.dec.fault_iff.mpr
  rw [decStatWord]
  cases hp : s.dec.phase
  case fault =>
    cases hf : s.dec.dfault
    case noFault => exact absurd hf (hsome hp)
    all_goals decide
  all_goals
    rw [hnone (by simp [hp])]
    decide

/-- Settles O41: one word for each of the four values of the two flags. -/
theorem errRead : Obligations.ErrRead := by
  intro s
  refine ⟨errWord s.err, rfl, ?_⟩
  rcases s.err with ⟨ill, seq⟩
  cases ill <;> cases seq <;> decide

/-! ## The data registers: rules R44, R155, R157, R158 -/

/-- The fields of a data word: rule R44. -/
theorem validWord_eq_append (b : Byte) : validWord b = 1#1 ++ 0#23 ++ b := by
  rw [BitVec.append_def, validWord]
  rfl

theorem validWord_fields (b : Byte) :
    (validWord b).getLsbD 31 = true ∧ (validWord b).extractLsb' 8 23 = 0#23 ∧ (validWord b).extractLsb' 0 8 = b := by
  rw [validWord_eq_append]
  exact ⟨by rw [BitVec.getLsbD_append]; rfl, extractLsb'_append_middle _ _ _, BitVec.extractLsb'_append_eq_right⟩

/-- Settles O44: the oldest byte is shown and popped. -/
theorem pkDataRead : Obligations.PkDataRead := by
  refine fun s => ⟨fun b rest h => ⟨validWord b, ?_, validWord_fields b⟩, fun h => ?_⟩
  · rw [exec_rdPkData, Pk.popped, h]
    rfl
  · simp only [exec, execRdPkData, h, reply]

/-- Settles O45: the oldest symbol is shown and popped in phase DONE only. -/
theorem decDataRead : Obligations.DecDataRead := by
  refine fun s => ⟨fun b rest hp h => ⟨validWord b, ?_, validWord_fields b⟩, ?_⟩
  · rw [exec_rdDecData, Dec.popped, Dec.dataWord, if_pos hp, if_pos hp, h]
    rfl
  · rintro (hp | h)
    · rw [exec_rdDecData, Dec.popped, Dec.dataWord, if_neg hp, if_neg hp]
      rfl
    · simp only [exec, execRdDecData, h, ite_self, reply]

/-- Settles O46: the capacity of `OBUF` keeps its length within the word. -/
theorem decLenRead : Obligations.DecLenRead := by
  intro s h
  obtain ⟨-, -, -, hcap⟩ := h.params
  have hlen := h.dec.obuf_fits
  refine ⟨decLenWord s.dec, rfl, fun hp => ?_, fun hp => if_neg hp⟩
  rw [decLenWord, if_pos hp]
  exact Nat.mod_eq_of_lt (by omega)

/-! ## `CMD` read, `RSVD7`, and the writes that run no command: rules R151, R153, R159, R160 -/

/-- Settles O39: the reply is the constant 0. -/
theorem cmdReadsZero : Obligations.CmdReadsZero := fun _ => rfl

/-- Settles O40: the reply is the constant 0, and the write hands the state on. -/
theorem rsvd7IsReserved : Obligations.Rsvd7IsReserved := fun _ => ⟨rfl, fun _ => rfl⟩

/-- Settles O47: a flag stays set exactly where the word has a 0 bit. -/
theorem errWriteOneToClear : Obligations.ErrWriteOneToClear := by
  refine fun s w => ⟨s.err.clear w, rfl, ?_, ?_⟩
  · simp [Err.clear, BitVec.getLsbD, Nat.testBit_eq_decide_div_mod_eq]
  · simp [Err.clear, BitVec.getLsbD, Nat.testBit_eq_decide_div_mod_eq]

/-- Settles O48: each of the five writes hands the state on. -/
theorem readOnlyWritesAreIgnored : Obligations.ReadOnlyWritesAreIgnored := fun _ _ => ⟨rfl, rfl, rfl, rfl, rfl⟩

end Machine
end Sys2Proof

/-! # Faults and error flags (rules R168 to R177)

Which accesses fault PK, what entering a fault leaves of the state, which accesses set a flag of `ERR`, and that a faulted unit
changes by its CLR alone. An access goes by its canonical spelling: a command of PK, a command of DEC, or no command. -/

namespace Sys2Proof.Machine

/-! ## What an access leaves alone: rules R61, R90 -/

section
variable {i c : Instr} {s t : State}

/-- The two spellings of a command answer the same. -/
theorem exec_canonical_next (h : exec i s = .next t) : exec i.canonical s = .next t := (exec_canonical i s).trans h

/-- A command of DEC leaves PK alone. -/
theorem exec_decCommand_pk (hc : IsDecCommand c) (h : exec c s = .next t) : t.pk = s.pk := by
  rcases hc with rfl | ⟨byte, last, rfl⟩
  · cases h; rfl
  · exact (execDecByte_acts byte last).pk_eq h

/-- A command of PK changes PK alone. -/
theorem exec_pkCommand_pk_only (hc : c.isCommand = true) (hdec : ¬IsDecCommand c) (h : exec c s = .next t) :
    t = { s with pk := t.pk } := by
  obtain ⟨hstream, htable, -⟩ := pkCommandFrame c s t h
  cases c with
  | pkClr | pkPush | pkEnc | pkFlush => rw [hstream (by simp)]
  | pkCtclr | pkCtsel | pkCtapp => exact (htable (by simp)).1
  | decClr => exact absurd (.inl rfl) hdec
  | decByte byte last => exact absurd (.inr ⟨byte, last, rfl⟩) hdec
  | _ => cases hc

/-- An access that is no command in its canonical spelling changes PK only by the pop of `RD PK_DATA` (rule R155), and writes
`ERR` only by `WR ERR` or as an illegal word (rules R86, R153). -/
theorem exec_of_not_command (hi : i.canonical.isCommand = false) (h : exec i s = .next t) :
    (t.pk = s.pk ∨ t.pk = s.pk.popped) ∧
      (t.err = s.err ∨ (∃ w, t.err = s.err.clear w) ∨
        ((∃ w e, i = .wrCmd w ∧ decodeCmd w = .error e) ∧ t = setIll s)) := by
  cases i with
  | pkClr | pkCtclr | pkCtsel | pkCtapp | pkPush | pkEnc | pkFlush | decClr | decByte => cases hi
  | wrCmd w =>
    cases hw : decodeCmd w with
    | ok c =>
      rw [Instr.canonical, decodeCmdWrite_ok hw, decodeCmd_isCommand hw] at hi
      cases hi
    | error e =>
      cases (exec_wrCmd_error hw s).symm.trans h
      exact ⟨.inl rfl, .inr (.inr ⟨⟨w, e, rfl, hw⟩, rfl⟩)⟩
  | wrErr w =>
    cases h
    exact ⟨.inl rfl, .inr (.inl ⟨w, rfl⟩)⟩
  | rdPkData =>
    cases (exec_rdPkData s).symm.trans h
    exact ⟨.inr rfl, .inl rfl⟩
  | rdDecData =>
    cases (exec_rdDecData s).symm.trans h
    exact ⟨.inl rfl, .inl rfl⟩
  | _ =>
    cases h
    exact ⟨.inl rfl, .inl rfl⟩

end

/-! ## PK's faults: rules R168, R172 -/

/-- The causes U3, U4 and U5 of rule R168 for an access of PK. -/
def PkFaultCause (cap : Nat) (p : Pk) : Instr → Prop
  | .pkCtapp n _ => Config.maxCodeLen < (p.codeOf p.ctsym).length + n
  | .pkEnc sym => p.codeOf sym = [] ∨ cap < p.fifo.length + (p.acc.length + (p.codeOf sym).length) / 8
  | .pkPush n _ => cap < p.fifo.length + (p.acc.length + n) / 8
  | .pkFlush => p.acc ≠ [] ∧ cap < p.fifo.length + 1
  | _ => False

/-- The operation's result `r` on `p` is a fault if the cause is there, and otherwise keeps `PKFAULT`. -/
def FaultsExactlyIf (cause : Prop) (p : Pk) (r : Except FaultCode Pk) : Prop :=
  (cause ∧ r = .error .unsupportedInput) ∨ (¬cause ∧ ∃ q, r = .ok q ∧ q.fault = p.fault)

theorem append_faultsExactlyIf (cap : Nat) (bits : Bits) (p : Pk) :
    FaultsExactlyIf (cap < p.fifo.length + (p.acc.length + bits.length) / 8) p (append cap bits p) := by
  rcases append_cases cap bits p with ⟨hfull, he⟩ | ⟨hroom, q, he, hq, -⟩
  · exact .inl ⟨hfull, he⟩
  · exact .inr ⟨Nat.not_lt.mpr hroom, q, he, by rw [hq]⟩

theorem extendCode_faultsExactlyIf (n : Nat) (data : BitVec 16) (p : Pk) :
    FaultsExactlyIf (Config.maxCodeLen < (p.codeOf p.ctsym).length + n) p (extendCode n data p) := by
  rcases extendCode_cases n data p with ⟨hlong, he⟩ | ⟨hfits, he⟩
  · exact .inl ⟨hlong, he⟩
  · exact .inr ⟨Nat.not_lt.mpr hfits, _, he, rfl⟩

theorem encodeSymbol_faultsExactlyIf (cap : Nat) (sym : Byte) (p : Pk) :
    FaultsExactlyIf (p.codeOf sym = [] ∨ cap < p.fifo.length + (p.acc.length + (p.codeOf sym).length) / 8) p
      (encodeSymbol cap sym p) := by
  rcases encodeSymbol_cases cap sym p with ⟨hnone, he⟩ | ⟨hcode, he⟩
  · exact .inl ⟨.inl hnone, he⟩
  · rw [he]
    rcases append_faultsExactlyIf cap (p.codeOf sym) p with ⟨hfull, ha⟩ | ⟨hroom, hok⟩
    · exact .inl ⟨.inr hfull, ha⟩
    · exact .inr ⟨not_or.mpr ⟨hcode, hroom⟩, hok⟩

theorem flush_faultsExactlyIf (cap : Nat) (p : Pk) :
    FaultsExactlyIf (p.acc ≠ [] ∧ cap < p.fifo.length + 1) p (flush cap p) := by
  rcases flush_cases cap p with ⟨hnil, he⟩ | ⟨hne, hfull, he⟩ | ⟨-, hroom, he⟩
  · exact .inr ⟨fun ⟨hne, _⟩ => hne hnil, _, he, rfl⟩
  · exact .inl ⟨⟨hne, hfull⟩, he⟩
  · exact .inr ⟨fun ⟨_, hfull⟩ => absurd hroom (Nat.not_le.mpr hfull), _, he, rfl⟩

/-- PK, not faulted before, is faulted exactly if the cause is there, and then nothing but the fault entry has happened. -/
def EntersPkFaultExactlyIf (cause : Prop) (s t : State) : Prop :=
  (cause ∧ t = { s with pk := pkFaultEntry .unsupportedInput s.pk }) ∨ (¬cause ∧ t.pk.fault = .noFault)

section
variable {i c : Instr} {s t : State}

theorem pkCommand_entersPkFault {f : Pk → Except FaultCode Pk} {cause : Prop} (hf : s.pk.fault = .noFault)
    (hr : FaultsExactlyIf cause s.pk (f s.pk)) (h : pkCommand f s = .next t) : EntersPkFaultExactlyIf cause s t := by
  rcases hr with ⟨hcause, he⟩ | ⟨hnone, q, hq, hfault⟩
  · cases (pkCommand_of_error hf he).symm.trans h
    exact .inl ⟨hcause, rfl⟩
  · cases (pkCommand_of_ok hf hq).symm.trans h
    exact .inr ⟨hnone, hfault.trans hf⟩

theorem exec_command_entersPkFault (hc : c.isCommand = true) (hf : s.pk.fault = .noFault) (h : exec c s = .next t) :
    EntersPkFaultExactlyIf (PkFaultCause s.params.pkFifoCap s.pk c) s t := by
  cases c with
  | pkClr => cases h; exact .inr ⟨id, rfl⟩
  | pkCtclr => exact pkCommand_entersPkFault (f := fun p => .ok p.emptied) hf (.inr ⟨id, _, rfl, rfl⟩) h
  | pkCtsel sym => exact pkCommand_entersPkFault (f := fun p => .ok (p.selected sym)) hf (.inr ⟨id, _, rfl, rfl⟩) h
  | pkCtapp n data => exact pkCommand_entersPkFault hf (extendCode_faultsExactlyIf n data s.pk) h
  | pkPush n data =>
    have hr := append_faultsExactlyIf s.params.pkFifoCap (bitsMSB n data) s.pk
    rw [length_bitsMSB] at hr
    exact pkCommand_entersPkFault hf hr h
  | pkEnc sym => exact pkCommand_entersPkFault hf (encodeSymbol_faultsExactlyIf s.params.pkFifoCap sym s.pk) h
  | pkFlush => exact pkCommand_entersPkFault hf (flush_faultsExactlyIf s.params.pkFifoCap s.pk) h
  | decClr => exact .inr ⟨id, (exec_decCommand_pk (.inl rfl) h).symm ▸ hf⟩
  | decByte byte last => exact .inr ⟨id, (exec_decCommand_pk (.inr ⟨byte, last, rfl⟩) h).symm ▸ hf⟩
  | _ => cases hc

theorem not_pkFaultCause_of_not_command {cap : Nat} {p : Pk} (hc : c.isCommand = false) : ¬PkFaultCause cap p c := by
  cases c with
  | pkCtapp | pkPush | pkEnc | pkFlush => cases hc
  | _ => exact id

/-- What an access does to a PK that is not faulted, in either spelling: rules R168, R172. -/
theorem exec_entersPkFault (hf : s.pk.fault = .noFault) (h : exec i s = .next t) :
    EntersPkFaultExactlyIf (PkFaultCause s.params.pkFifoCap s.pk i.canonical) s t := by
  cases hc : i.canonical.isCommand with
  | true => exact exec_command_entersPkFault hc hf (exec_canonical_next h)
  | false =>
    refine .inr ⟨not_pkFaultCause_of_not_command hc, ?_⟩
    obtain ⟨e | e, -⟩ := exec_of_not_command hc h <;> rw [e] <;> exact hf

end

/-- Settles O18: with a cause there is the fault entry alone, without one there is no fault. -/
theorem pkFaultEntryIsPrecise : Obligations.PkFaultEntryIsPrecise := by
  intro i s t h hf hfault
  rcases exec_entersPkFault hf h with ⟨-, e⟩ | ⟨-, hnone⟩
  · exact e
  · exact absurd hnone hfault

/-- The causes of rule R168, listed by the access. -/
theorem pkFaultCause_iff (cap : Nat) (p : Pk) (c : Instr) :
    PkFaultCause cap p c ↔
      (∃ n data, c = .pkCtapp n data ∧ Config.maxCodeLen < (p.codeOf p.ctsym).length + n) ∨
      (∃ sym, c = .pkEnc sym ∧ p.codeOf sym = []) ∨
      (∃ sym, c = .pkEnc sym ∧ cap < p.fifo.length + (p.acc.length + (p.codeOf sym).length) / 8) ∨
      (∃ n data, c = .pkPush n data ∧ cap < p.fifo.length + (p.acc.length + n) / 8) ∨
      (c = .pkFlush ∧ p.acc ≠ [] ∧ cap < p.fifo.length + 1) := by
  cases c <;> simp [PkFaultCause]

/-- Settles O19: PK is faulted after the access exactly if one of the causes was there before it. -/
theorem pkFaultCauses : Obligations.PkFaultCauses := by
  intro i s t h hf
  rw [← pkFaultCause_iff]
  rcases exec_entersPkFault hf h with ⟨hcause, rfl⟩ | ⟨hcause, hnone⟩
  · exact iff_of_true nofun hcause
  · exact iff_of_false (not_not_intro hnone) hcause

/-! ## DEC's fault entry: rules R173, R175 -/

/-- What DEC makes of a byte does not end in phase FAULT but by raising a fault, and that has a code. -/
def FaultsByCode : Except DecStop Dec → Prop
  | .ok d => d.phase ≠ .fault
  | .error (.inl c) => c ≠ .noFault
  | .error (.inr _) => True

section
variable {d : Dec} {byte : Byte} {last : Bool}

theorem hdrByte_faultsByCode : FaultsByCode (hdrByte byte last d) := by
  rcases hdrByte_cases byte last d with ⟨-, e⟩ | ⟨-, -, e⟩ | ⟨-, -, e⟩ | ⟨-, -, -, e⟩ <;> rw [e] <;> exact nofun

theorem linkParent_error {i : NodeIdx} {e : DecStop} (h : linkParent i d = .error e) : e = .inr .arenaBroken := by
  rcases linkParent_cases i d with ⟨-, he⟩ | ⟨_, _, _, _, -, -, he⟩ | ⟨_, _, _, _, -, -, he⟩ | ⟨_, _, -, -, he⟩ <;>
    cases he.symm.trans h
  rfl

theorem tdTag_error {b : Bool} {e : DecStop} (h : tdTag b d = .error e) :
    e = .inr .arenaBroken ∨ e = .inl .unsupportedInput := by
  rw [tdTag] at h
  split_ifs at h with hroom
  · cases hl : linkParent ⟨d.ncount.val, hroom⟩ d with rw [hl] at h
    | ok d1 => cases h
    | error e1 => cases h; exact .inl (linkParent_error hl)
  · cases h; exact .inr rfl

theorem tdBit_faultsByCode (b : Bool) (hp : d.phase ≠ .fault) : FaultsByCode (tdBit b d) := by
  cases he : tdBit b d with
  | ok d1 => exact fun hf => hp ((tdBit_frame he).phase.symm.trans hf)
  | error e =>
    rw [tdBit] at he
    cases hm : d.tmode <;> rw [hm] at he
    · rcases tdTag_error he with rfl | rfl
      · trivial
      · exact nofun
    · cases he

theorem tdBits_faultsByCode (bits : Bits) (hp : d.phase ≠ .fault) : FaultsByCode (tdBits bits d) := by
  induction bits generalizing d with
  | nil => exact hp
  | cons b rest ih =>
    cases hd : d.tdone with
    | true => rw [tdBits_of_done _ hd]; exact hp
    | false =>
      have hbit := tdBit_faultsByCode b hp
      cases he : tdBit b d with rw [he] at hbit
      | ok d1 => rw [tdBits_cons_ok rest hd he]; exact ih hbit
      | error e => rw [tdBits_cons_error rest hd he]; exact hbit

theorem treeEnd_faultsByCode : FaultsByCode (treeEnd last d) := by
  rcases treeEnd_cases last d with ⟨-, e⟩ | ⟨-, -, e⟩ | ⟨-, -, -, e⟩ | ⟨-, -, -, e⟩ <;> rw [e] <;> exact nofun

theorem treeByte_faultsByCode (hp : d.phase ≠ .fault) : FaultsByCode (treeByte byte last d) := by
  have hbits := tdBits_faultsByCode (bitsMSB 8 byte) hp
  cases he : tdBits (bitsMSB 8 byte) d with rw [he] at hbits
  | error e => rw [treeByte_error he]; exact hbits
  | ok d1 =>
    cases hd : d1.tdone with
    | true => rw [treeByte_complete he hd]; exact treeEnd_faultsByCode
    | false =>
      rw [treeByte_open he hd]
      cases last with
      | true => exact nofun
      | false => exact hbits

variable {outCap : Nat}

theorem udBit_faultsByCode (b : Bool) (hp : d.phase ≠ .fault) : FaultsByCode (udBit outCap b d) := by
  rcases udBit_cases outCap b d with ⟨-, e⟩ | ⟨_, _, -, -, -, e⟩ | ⟨_, _, -, -, -, e⟩ | ⟨_, -, -, e⟩ <;> rw [e]
  · trivial
  · exact nofun
  · exact hp
  · exact hp

theorem udBits_faultsByCode (bits : Bits) (hp : d.phase ≠ .fault) : FaultsByCode (udBits outCap bits d) := by
  induction bits generalizing d with
  | nil => exact hp
  | cons b rest ih =>
    have hbit := udBit_faultsByCode (outCap := outCap) b hp
    rw [udBits]
    cases he : udBit outCap b d with rw [he] at hbit
    | ok d1 => exact ih hbit
    | error e => exact hbit

theorem payloadByte_faultsByCode (hp : d.phase ≠ .fault) : FaultsByCode (payloadByte outCap byte last d) := by
  have hbits := udBits_faultsByCode (outCap := outCap) (logicalOf byte last d) hp
  cases he : udBits outCap (logicalOf byte last d) d with rw [he] at hbits
  | error e => rw [payloadByte_error he]; exact hbits
  | ok d1 =>
    cases last with
    | false => rw [payloadByte_more he]; exact hbits
    | true =>
      by_cases hcur : d1.cur = 0
      · rw [payloadByte_done he hcur]; exact nofun
      · rw [payloadByte_midCode he hcur]; exact nofun

end

section
variable {s t : State}

/-- A byte that DEC accepts enters phase FAULT by the fault entry alone: rule R173. -/
theorem decCommand_entersFault {f : Dec → Except DecStop Dec} (hf : FaultsByCode (f s.dec)) (h : decCommand f s = .next t)
    (hp : t.dec.phase = .fault) : ∃ c, c ≠ .noFault ∧ t = { s with dec := decFaultEntry c s.dec } := by
  rcases decCommand_cases f s with ⟨d, hd, e⟩ | ⟨c, hc, e⟩ | ⟨r, -, e⟩ <;> cases e.symm.trans h
  · rw [hd] at hf; exact absurd hp hf
  · rw [hc] at hf; exact ⟨c, hf, rfl⟩

theorem execDecByte_entersFault {byte : Byte} {last : Bool} (h : exec (.decByte byte last) s = .next t)
    (hs : s.dec.phase ≠ .fault) (hp : t.dec.phase = .fault) :
    ∃ c, c ≠ .noFault ∧ t = { s with dec := decFaultEntry c s.dec } := by
  cases hphase : s.dec.phase with
  | hdr => exact decCommand_entersFault hdrByte_faultsByCode ((exec_decByte_hdr byte last hphase).symm.trans h) hp
  | tree => exact decCommand_entersFault (treeByte_faultsByCode hs) ((exec_decByte_tree byte last hphase).symm.trans h) hp
  | payload =>
    exact decCommand_entersFault (payloadByte_faultsByCode hs) ((exec_decByte_payload byte last hphase).symm.trans h) hp
  | done =>
    cases (exec_decByte_done byte last hphase).symm.trans h
    exact absurd hp hs
  | fault => exact absurd hphase hs

end

/-- Settles O34: only `DEC.BYTE` leads to phase FAULT, and by the fault entry. -/
theorem decFaultEntryIsPrecise : Obligations.DecFaultEntryIsPrecise := by
  intro i s t h hs hp
  by_cases hi : IsDecCommand i.canonical
  · have hc := exec_canonical_next h
    rcases hi with hi | ⟨byte, last, hi⟩ <;> rw [hi] at hc
    · cases hc
      cases hp
    · obtain ⟨c, hcode, rfl⟩ := execDecByte_entersFault hc hs hp
      exact ⟨hcode, rfl⟩
  · rcases exec_dec_of_other hi h with e | e <;> simp [e, hs] at hp

/-! ## The flags of `ERR`: rules R153, R170, R171 -/

section
variable {i c : Instr} {s t : State}

theorem exec_decByte_err {byte : Byte} {last : Bool} (h : exec (.decByte byte last) s = .next t) :
    t.err = s.err ∨ (s.dec.phase = .done ∧ t = setSeq s) := by
  cases hp : s.dec.phase with
  | hdr => rw [decCommand_latched ((exec_decByte_hdr byte last hp).symm.trans h)]; exact .inl rfl
  | tree => rw [decCommand_latched ((exec_decByte_tree byte last hp).symm.trans h)]; exact .inl rfl
  | payload => rw [decCommand_latched ((exec_decByte_payload byte last hp).symm.trans h)]; exact .inl rfl
  | done => cases (exec_decByte_done byte last hp).symm.trans h; exact .inr ⟨rfl, rfl⟩
  | fault => cases (exec_decByte_fault byte last hp).symm.trans h; exact .inl rfl

/-- A command writes `ERR` only by a `DEC.BYTE` in phase DONE. -/
theorem exec_command_err (hc : c.isCommand = true) (h : exec c s = .next t) :
    t.err = s.err ∨ (s.dec.phase = .done ∧ (∃ byte last, c = .decByte byte last) ∧ t = setSeq s) := by
  by_cases hdec : IsDecCommand c
  · rcases hdec with rfl | ⟨byte, last, rfl⟩
    · cases h; exact .inl rfl
    · exact (exec_decByte_err h).imp_right fun ⟨hp, ht⟩ => ⟨hp, ⟨byte, last, rfl⟩, ht⟩
  · rw [exec_pkCommand_pk_only hc hdec h]
    exact .inl rfl

/-- Every way an access can write `ERR`, with its cause: kept, cleared in part, or one flag set. -/
theorem exec_err_causes (h : exec i s = .next t) :
    t.err = s.err ∨ (∃ w, t.err = s.err.clear w) ∨ ((∃ w e, i = .wrCmd w ∧ decodeCmd w = .error e) ∧ t = setIll s) ∨
      (s.dec.phase = .done ∧ (∃ byte last, i.canonical = .decByte byte last) ∧ t = setSeq s) := by
  cases hc : i.canonical.isCommand with
  | true => exact (exec_command_err hc (exec_canonical_next h)).imp_right fun hseq => .inr (.inr hseq)
  | false =>
    obtain ⟨-, herr⟩ := exec_of_not_command hc h
    exact herr.imp_right (Or.imp_right .inl)

end

/-- Settles O58: a flag that was clear is set after the access only by its own cause. -/
theorem errFlagCauses : Obligations.ErrFlagCauses := by
  intro i s t h
  refine ⟨fun hs => ⟨fun ht => ?_, ?_⟩, fun hs => ⟨fun ht => ?_, ?_⟩⟩
  · rcases exec_err_causes h with e | ⟨w, e⟩ | ⟨-, rfl⟩ | ⟨hp, hbyte, -⟩
    · simp [e, hs] at ht
    · simp [e, Err.clear, hs] at ht
    · simp [hs] at ht
    · exact ⟨hp, hbyte⟩
  · rintro ⟨hp, byte, last, hi⟩
    rw [← exec_canonical, hi, exec_decByte_done byte last hp] at h
    cases h
    rfl
  · rcases exec_err_causes h with e | ⟨w, e⟩ | ⟨hword, -⟩ | ⟨-, -, rfl⟩
    · simp [e, hs] at ht
    · simp [e, Err.clear, hs] at ht
    · exact hword
    · simp [hs] at ht
  · rintro ⟨w, e, rfl, he⟩
    cases (exec_wrCmd_error he s).symm.trans h
    rfl

/-! ## A fault is held until its CLR: rules R176, R177 -/

section
variable {i c : Instr} {s t : State}

/-- A faulted PK has nothing to pop. -/
theorem Pk.Inv.popped_of_fault {cap : Nat} {p : Pk} (h : p.Inv cap) (hf : p.fault ≠ .noFault) : p.popped = p := by
  obtain ⟨hfifo, -⟩ := h.fault_empty hf
  rw [Pk.popped, hfifo, List.tail_nil, ← hfifo]

/-- A faulted PK drops every command but `PK.CLR`: rule R110. -/
theorem exec_command_pk_of_fault (hc : c.isCommand = true) (hclr : c ≠ .pkClr) (hf : s.pk.fault ≠ .noFault)
    (h : exec c s = .next t) : t.pk = s.pk := by
  obtain ⟨hctclr, hctsel, hctapp, hpush, henc, hflush⟩ := faultedPkDropsCommands s hf
  cases c with
  | pkClr => exact absurd rfl hclr
  | pkCtclr => cases hctclr.symm.trans h; rfl
  | pkCtsel sym => cases (hctsel sym).symm.trans h; rfl
  | pkCtapp n data => cases (hctapp n data).symm.trans h; rfl
  | pkPush n data => cases (hpush n data).symm.trans h; rfl
  | pkEnc sym => cases (henc sym).symm.trans h; rfl
  | pkFlush => cases hflush.symm.trans h; rfl
  | decClr => exact exec_decCommand_pk (.inl rfl) h
  | decByte byte last => exact exec_decCommand_pk (.inr ⟨byte, last, rfl⟩) h
  | _ => cases hc

theorem exec_pk_of_fault (hinv : s.Inv) (hf : s.pk.fault ≠ .noFault) (hclr : i.canonical ≠ .pkClr)
    (h : exec i s = .next t) : t.pk = s.pk := by
  cases hc : i.canonical.isCommand with
  | true => exact exec_command_pk_of_fault hc hclr hf (exec_canonical_next h)
  | false =>
    obtain ⟨e | e, -⟩ := exec_of_not_command hc h
    · exact e
    · exact e.trans (hinv.pk.popped_of_fault hf)

/-- In phase FAULT nothing but `DEC.CLR` changes DEC: rules R132, R157. -/
theorem exec_dec_of_fault (hp : s.dec.phase = .fault) (hclr : i.canonical ≠ .decClr) (h : exec i s = .next t) :
    t.dec = s.dec := by
  by_cases hi : IsDecCommand i.canonical
  · obtain ⟨byte, last, hi⟩ := hi.resolve_left hclr
    rw [← exec_canonical, hi, exec_decByte_fault byte last hp] at h
    cases h
    rfl
  · have hpopped : s.dec.popped = s.dec := if_neg (by simp [hp])
    rcases exec_dec_of_other hi h with e | e
    · exact e
    · exact e.trans hpopped

end

/-- Settles O59: a faulted unit drops its commands and its data read finds nothing; its CLR restarts it. -/
theorem faultsAreHeldUntilCleared : Obligations.FaultsAreHeldUntilCleared := by
  intro i s t hinv h
  refine ⟨fun hf hclr => exec_pk_of_fault hinv hf hclr h, fun hp hclr => exec_dec_of_fault hp hclr h, fun _ hi => ?_,
    fun _ hi => ?_⟩ <;> rw [← exec_canonical, hi] at h <;> cases h
  · rfl
  · exact ⟨rfl, rfl⟩

end Sys2Proof.Machine

/-! # Reset, and what nobody can see (rules R185 to R191)

The reset input and the reset state; the room that keeps PK from faulting; stale arena entries. Two decoders that agree on the
settled nodes take a bit, a byte and an access to two decoders that agree, since every node they look at is settled. -/

namespace Sys2Proof.Machine

/-- The reset input waits first at the port: rule R185. -/
theorem step_of_reset {s : State} {rest : List Input} (h : s.port = .reset :: rest) :
    step s = .next (resetInput { s with port := rest }) := by
  simp only [step, h]

/-! ## The same bit from two decoders that agree: rules R100 to R103 -/

/-- Two attempts answered with decoders that agree, or stopped for the same reason. -/
def SameResult (r r' : Except DecStop Dec) : Prop :=
  (∃ d e, r = .ok d ∧ r' = .ok e ∧ d.Agree e) ∨ ∃ x, r = .error x ∧ r' = .error x

section
variable {d e : Dec}

theorem Dec.Agree.exists_arena (h : d.Agree e) : ∃ a, e = { d with node := a } := ⟨e.node, h.rest.symm⟩

theorem Dec.Agree.phase_eq (h : d.Agree e) : e.phase = d.phase := by rw [← h.rest]
theorem Dec.Agree.tmode_eq (h : d.Agree e) : e.tmode = d.tmode := by rw [← h.rest]
theorem Dec.Agree.ncount_eq (h : d.Agree e) : e.ncount = d.ncount := by rw [← h.rest]
theorem Dec.Agree.tdone_eq (h : d.Agree e) : e.tdone = d.tdone := by rw [← h.rest]

/-- With nothing allocated no node is settled. -/
theorem decRestart_agree (d e : Dec) : (decRestart d).Agree (decRestart e) :=
  ⟨rfl, fun _ hi => absurd hi.1 (Nat.not_lt_zero _)⟩

theorem Dec.settled_of_tag {i : NodeIdx} (hm : d.tmode = .tag) (hi : i.val < d.ncount.val) : d.Settled i :=
  ⟨hi, fun ⟨hsym, _⟩ => by cases hm.symm.trans hsym⟩

/-- Linking looks at the open node on top of `STK` alone, and open nodes are settled. -/
theorem Dec.LinkedBy.agree {d1 e1 : Dec} {i : NodeIdx} (hT : d.TreeInv) (hm : d.tmode = .tag) (h : d.Agree e)
    (hd : d.LinkedBy d1 i) (he : e.LinkedBy e1 i) : d1.Agree e1 := by
  obtain ⟨a, rfl⟩ := h.exists_arena
  suffices key : d1.stk = e1.stk ∧ ∀ p, d.stk.head?.map Prod.fst = some p → d1.nodeAt p = e1.nodeAt p by
    obtain ⟨hstk, hhead⟩ := key
    refine ⟨by rw [hd.frame, he.frame, hstk], fun j hj => ?_⟩
    by_cases hj' : d.stk.head?.map Prod.fst = some j
    · exact hhead j hj'
    · have hset : d.Settled j := settled_of_tag hm (by rw [hd.frame] at hj; exact hj.1)
      rw [hd.others j hj', he.others j hj', h.settled j hset]
  rcases hs : d.stk with _ | ⟨⟨p, _ | _⟩, rest⟩
  · obtain ⟨hstk, -⟩ := hd.root hs
    obtain ⟨hstk', -⟩ := he.root hs
    exact ⟨hstk.trans hstk'.symm, nofun⟩
  · obtain ⟨hstk, -, hnode, -⟩ := hd.left p rest hs
    obtain ⟨hstk', -, hnode', -⟩ := he.left p rest hs
    refine ⟨hstk.trans hstk'.symm, ?_⟩
    rintro _ ⟨⟩
    exact hnode.trans hnode'.symm
  · obtain ⟨hstk, -, l, hold, hnode⟩ := hd.right p rest hs
    obtain ⟨hstk', -, l', hold', hnode'⟩ := he.right p rest hs
    obtain ⟨hset, -⟩ := hT.opens (p, .right) (by simp [hs])
    cases hold.symm.trans ((h.settled p hset).trans hold')
    refine ⟨hstk.trans hstk'.symm, ?_⟩
    rintro _ ⟨⟩
    exact hnode.trans hnode'.symm

/-- Starting a node settles it, or makes it the leaf being collected. -/
theorem Dec.Agree.started {i : NodeIdx} (b : Bool) (hm : d.tmode = .tag) (hi : d.ncount.val = i.val) (h : d.Agree e) :
    (d.started i b).Agree (e.started i b) := by
  obtain ⟨a, rfl⟩ := h.exists_arena
  refine ⟨by cases b <;> rfl, fun j hj => ?_⟩
  have hlt : j.val < i.val + 1 := by simpa using hj.1
  by_cases hij : i = j
  · subst hij
    cases b with
    | false => exact (Dec.nodeAt_setNode_self _ i _).trans (Dec.nodeAt_setNode_self _ i _).symm
    | true => exact absurd ⟨rfl, rfl⟩ hj.2
  · have hne : i.val ≠ j.val := Fin.val_ne_of_ne hij
    have hold := h.settled j (settled_of_tag hm (by omega))
    rw [Dec.started_nodeAt_ne b _ hij, hold, Dec.started_nodeAt_ne b _ hij]

/-- Storing the leaf settles it. -/
theorem Dec.Agree.leafStored (sym : Byte) (h : d.Agree e) : (d.leafStored sym).Agree (e.leafStored sym) := by
  obtain ⟨a, rfl⟩ := h.exists_arena
  refine ⟨rfl, fun j hj => ?_⟩
  by_cases hleaf : d.tleaf = j
  · subst hleaf
    exact (Dec.nodeAt_setNode_self d _ _).trans (Dec.nodeAt_setNode_self _ d.tleaf _).symm
  · have hold := h.settled j ⟨hj.1, fun ⟨_, hj'⟩ => hleaf hj'.symm⟩
    exact (Dec.nodeAt_setNode_ne d hleaf _).trans (hold.trans (Dec.nodeAt_setNode_ne _ hleaf _).symm)

theorem tdBit_agree_tag (b : Bool) (hd : d.TreeInv) (he : e.TreeInv) (hm : d.tmode = .tag) (hdone : d.tdone = false)
    (h : d.Agree e) : SameResult (tdBit b d) (tdBit b e) := by
  have hm' : e.tmode = .tag := h.tmode_eq.trans hm
  have hcount : e.ncount.val = d.ncount.val := congrArg Fin.val h.ncount_eq
  by_cases hroom : d.ncount.val < Config.nodeCap
  · obtain ⟨d1, hlink, h1⟩ := tdBit_tag (i := ⟨d.ncount.val, hroom⟩) b hd hm hdone rfl
    obtain ⟨e1, hlink', h2⟩ := tdBit_tag (i := ⟨d.ncount.val, hroom⟩) b he hm' (h.tdone_eq.trans hdone) hcount
    refine .inl ⟨_, _, h1, h2, (hlink.agree hd hm h hlink').started b ?_ ?_⟩ <;> rw [hlink.frame]
    exact hm
  · have hfull : d.ncount.val = Config.nodeCap := by have := d.ncount.isLt; omega
    exact .inr ⟨_, tdBit_full b hm hfull, tdBit_full b hm' (hcount.trans hfull)⟩

theorem tdBit_agree_sym (b : Bool) (hm : d.tmode = .sym) (h : d.Agree e) : SameResult (tdBit b d) (tdBit b e) := by
  obtain ⟨a, rfl⟩ := h.exists_arena
  rcases Nat.lt_or_ge d.symcnt.val 7 with hmore | hlast
  · exact .inl ⟨_, _, tdBit_sym_more b hm hmore, tdBit_sym_more b hm hmore, rfl, h.settled⟩
  · have hseven : d.symcnt.val = 7 := by omega
    exact .inl ⟨_, _, tdBit_sym_last b hm hseven, tdBit_sym_last b hm hseven, h.leafStored _⟩

theorem tdBit_agree (b : Bool) (hd : d.TreeInv) (he : e.TreeInv) (hdone : d.tdone = false) (h : d.Agree e) :
    SameResult (tdBit b d) (tdBit b e) := by
  cases hm : d.tmode with
  | tag => exact tdBit_agree_tag b hd he hm hdone h
  | sym => exact tdBit_agree_sym b hm h

theorem tdBits_agree (bits : Bits) (hd : d.TreeInv) (he : e.TreeInv) (h : d.Agree e) :
    SameResult (tdBits bits d) (tdBits bits e) := by
  induction bits generalizing d e with
  | nil => exact .inl ⟨d, e, rfl, rfl, h⟩
  | cons b rest ih =>
    cases hdone : d.tdone with
    | true => exact .inl ⟨d, e, tdBits_of_done _ hdone, tdBits_of_done _ (h.tdone_eq.trans hdone), h⟩
    | false =>
      have hdone' := h.tdone_eq.trans hdone
      rcases tdBit_agree b hd he hdone h with ⟨d1, e1, h1, h2, h⟩ | ⟨x, h1, h2⟩
      · rw [tdBits_cons_ok rest hdone h1, tdBits_cons_ok rest hdone' h2]
        exact ih (tdBit_treeInv hd hdone h1) (tdBit_treeInv he hdone' h2) h
      · exact .inr ⟨x, tdBits_cons_error rest hdone h1, tdBits_cons_error rest hdone' h2⟩

/-! ## The same byte: rules R105 to R107, R133 to R138 -/

theorem hdrByte_agree (byte : Byte) (last : Bool) (h : d.Agree e) : SameResult (hdrByte byte last d) (hdrByte byte last e) := by
  obtain ⟨a, rfl⟩ := h.exists_arena
  rcases hdrByte_cases byte last d with ⟨hbig, -⟩ | ⟨hle, rfl, -⟩ | ⟨rfl, rfl, -⟩ | ⟨hpos, hle, rfl, -⟩
  · exact .inr ⟨_, hdrByte_invalid hbig, hdrByte_invalid hbig⟩
  · exact .inl ⟨_, _, hdrByte_more hle, hdrByte_more hle, rfl, h.settled⟩
  · exact .inl ⟨_, _, hdrByte_empty, hdrByte_empty, rfl, h.settled⟩
  · exact .inr ⟨_, hdrByte_alone hpos hle, hdrByte_alone hpos hle⟩

/-- The end of the tree section looks at the root alone. -/
theorem treeEnd_agree (last : Bool) (hset : d.Settled 0) (h : d.Agree e) : SameResult (treeEnd last d) (treeEnd last e) := by
  have hsame : (e.nodeAt 0).isLeaf = (d.nodeAt 0).isLeaf := by rw [h.settled 0 hset]
  obtain ⟨a, rfl⟩ := h.exists_arena
  rcases treeEnd_cases last d with ⟨hroot, -⟩ | ⟨hroot, rfl, -⟩ | ⟨hroot, rfl, hpad, -⟩ | ⟨hroot, rfl, hpad, -⟩ <;>
    rw [hroot] at hsame
  · exact .inr ⟨_, treeEnd_leaf hroot, treeEnd_leaf hsame⟩
  · exact .inl ⟨_, _, treeEnd_more hroot, treeEnd_more hsame, rfl, h.settled⟩
  · exact .inl ⟨_, _, treeEnd_empty hroot hpad, treeEnd_empty hsame hpad, rfl, h.settled⟩
  · exact .inr ⟨_, treeEnd_padded hroot hpad, treeEnd_padded hsame hpad⟩

theorem treeByte_agree (byte : Byte) (last : Bool) (hd : d.TreeInv) (he : e.TreeInv) (h : d.Agree e) :
    SameResult (treeByte byte last d) (treeByte byte last e) := by
  rcases tdBits_agree (bitsMSB 8 byte) hd he h with ⟨d1, e1, h1, h2, h⟩ | ⟨x, h1, h2⟩
  · cases hdone : d1.tdone with
    | true =>
      rw [treeByte_complete h1 hdone, treeByte_complete h2 (h.tdone_eq.trans hdone)]
      obtain ⟨hm, -, hpos⟩ := (tdBits_treeInv hd h1).done_iff.mp hdone
      exact treeEnd_agree last (Dec.settled_of_tag hm hpos) h
    | false =>
      rw [treeByte_open h1 hdone, treeByte_open h2 (h.tdone_eq.trans hdone)]
      cases last with
      | true => exact .inr ⟨_, rfl, rfl⟩
      | false => exact .inl ⟨d1, e1, rfl, rfl, h⟩
  · exact .inr ⟨x, treeByte_error h1, treeByte_error h2⟩

section
variable {outCap : Nat}

/-- A step of the walk looks at `CUR` and at one child of it, both allocated in a complete tree. -/
theorem udBit_agree (b : Bool) (hW : d.WalkInv outCap) (h : d.Agree e) : SameResult (udBit outCap b d) (udBit outCap b e) := by
  obtain ⟨hm, -, hpos⟩ := hW.tree.done_iff.mp hW.done
  have hcur : d.cur.val < d.ncount.val := by have := hW.tree.cur_low; omega
  obtain ⟨l, r, hn, hl, hr⟩ := hW.tree.children hW.done hcur hW.here
  have hlow : (if b then r else l).val < d.ncount.val := by cases b <;> assumption
  have hsameCur := h.settled d.cur (Dec.settled_of_tag hm hcur)
  have hsame := h.settled _ (Dec.settled_of_tag hm hlow)
  obtain ⟨a, rfl⟩ := h.exists_arena
  obtain ⟨hleaf, hinternal⟩ := walkBit d outCap b l r hn
  obtain ⟨hleaf', hinternal'⟩ := walkBit { d with node := a } outCap b l r (hsameCur.symm.trans hn)
  cases hnode : d.nodeAt (if b then r else l) with
  | leaf sym =>
    obtain ⟨hfull, hroom⟩ := hleaf sym hnode
    obtain ⟨hfull', hroom'⟩ := hleaf' sym (hsame.symm.trans hnode)
    by_cases hlen : d.obuf.length = outCap
    · exact .inr ⟨_, hfull hlen, hfull' hlen⟩
    · exact .inl ⟨_, _, hroom hlen, hroom' hlen, rfl, h.settled⟩
  | internal l' r' =>
    exact .inl ⟨_, _, hinternal l' r' hnode, hinternal' l' r' (hsame.symm.trans hnode), rfl, h.settled⟩

theorem udBits_agree (bits : Bits) (hW : d.WalkInv outCap) (h : d.Agree e) :
    SameResult (udBits outCap bits d) (udBits outCap bits e) := by
  induction bits generalizing d e with
  | nil => exact .inl ⟨d, e, rfl, rfl, h⟩
  | cons b rest ih =>
    rcases udBit_agree b hW h with ⟨d1, e1, h1, h2, h⟩ | ⟨x, h1, h2⟩ <;> rw [udBits, h1, udBits, h2]
    · rcases udBit_keeps b hW with ⟨d1', h1', hW1, -⟩ | ⟨h1', -⟩ <;> cases h1.symm.trans h1'
      exact ih hW1 h
    · exact .inr ⟨x, rfl, rfl⟩

theorem payloadByte_agree (byte : Byte) (last : Bool) (hW : d.WalkInv outCap) (h : d.Agree e) :
    SameResult (payloadByte outCap byte last d) (payloadByte outCap byte last e) := by
  have hbits : logicalOf byte last e = logicalOf byte last d := by rw [← h.rest]; rfl
  rcases udBits_agree (logicalOf byte last d) hW h with ⟨d1, e1, h1, h2, h⟩ | ⟨x, h1, h2⟩ <;> rw [← hbits] at h2
  · cases last with
    | false => exact .inl ⟨d1, e1, payloadByte_more h1, payloadByte_more h2, h⟩
    | true =>
      obtain ⟨a, rfl⟩ := h.exists_arena
      by_cases hcur : d1.cur = 0
      · exact .inl ⟨_, _, payloadByte_done h1 hcur, payloadByte_done h2 hcur, rfl, h.settled⟩
      · exact .inr ⟨_, payloadByte_midCode h1 hcur, payloadByte_midCode h2 hcur⟩
  · exact .inr ⟨x, payloadByte_error h1, payloadByte_error h2⟩

end

theorem Dec.Agree.latched {r r' : Except DecStop Dec} (h : d.Agree e) (hr : SameResult r r') :
    (decLatched d r).Agree (decLatched e r') := by
  rcases hr with ⟨d1, e1, rfl, rfl, h1⟩ | ⟨c | x, rfl, rfl⟩
  · exact h1
  · obtain ⟨a, rfl⟩ := h.exists_arena
    exact ⟨rfl, h.settled⟩
  · exact h

end

/-! ## The same access: rule R187 -/

section
variable {i c : Instr} {s s' t t' : State}

theorem State.Agree.exists_dec (h : s.Agree s') : ∃ e, s' = { s with dec := e } := ⟨s'.dec, h.rest.symm⟩

theorem State.Agree.pk_eq (h : s.Agree s') : s'.pk = s.pk := by rw [← h.rest]
theorem State.Agree.params_eq (h : s.Agree s') : s'.params = s.params := by rw [← h.rest]
theorem State.Agree.port_eq (h : s.Agree s') : s'.port = s.port := by rw [← h.rest]
theorem State.Agree.replies_eq (h : s.Agree s') : s'.replies = s.replies := by rw [← h.rest]

theorem State.Agree.setPort (h : s.Agree s') (rest : List Input) :
    ({ s with port := rest } : State).Agree { s' with port := rest } := ⟨by rw [← h.rest], h.dec⟩

theorem decCommand_agree {f : Dec → Except DecStop Dec} (h : s.Agree s') (hf : SameResult (f s.dec) (f s'.dec))
    (ht : decCommand f s = .next t) (ht' : decCommand f s' = .next t') : t.Agree t' := by
  obtain ⟨e, rfl⟩ := h.exists_dec
  rw [decCommand_latched ht, decCommand_latched ht']
  exact ⟨rfl, h.dec.latched hf⟩

theorem exec_decByte_agree {byte : Byte} {last : Bool} (hs : s.Inv) (hs' : s'.Inv) (h : s.Agree s')
    (ht : exec (.decByte byte last) s = .next t) (ht' : exec (.decByte byte last) s' = .next t') : t.Agree t' := by
  have hphase := h.dec.phase_eq
  cases hp : s.dec.phase with
  | hdr =>
    rw [exec_decByte_hdr byte last hp] at ht
    rw [exec_decByte_hdr byte last (hphase.trans hp)] at ht'
    exact decCommand_agree h (hdrByte_agree byte last h.dec) ht ht'
  | tree =>
    rw [exec_decByte_tree byte last hp] at ht
    rw [exec_decByte_tree byte last (hphase.trans hp)] at ht'
    exact decCommand_agree h (treeByte_agree byte last hs.dec.toTreeInv hs'.dec.toTreeInv h.dec) ht ht'
  | payload =>
    rw [exec_decByte_payload byte last hp] at ht
    rw [exec_decByte_payload byte last (hphase.trans hp), h.params_eq] at ht'
    exact decCommand_agree h (payloadByte_agree byte last (hs.dec.walkInv hp) h.dec) ht ht'
  | done =>
    cases (exec_decByte_done byte last hp).symm.trans ht
    cases (exec_decByte_done byte last (hphase.trans hp)).symm.trans ht'
    exact ⟨by rw [← h.rest]; rfl, h.dec⟩
  | fault =>
    cases (exec_decByte_fault byte last hp).symm.trans ht
    cases (exec_decByte_fault byte last (hphase.trans hp)).symm.trans ht'
    exact h

/-- A command of PK does not look at DEC; one of DEC goes by the lemmas on bytes. -/
theorem exec_command_agree (hc : c.isCommand = true) (hs : s.Inv) (hs' : s'.Inv) (h : s.Agree s') (ht : exec c s = .next t)
    (ht' : exec c s' = .next t') : t.Agree t' := by
  by_cases hdec : IsDecCommand c
  · rcases hdec with rfl | ⟨byte, last, rfl⟩
    · obtain ⟨e, rfl⟩ := h.exists_dec
      cases ht; cases ht'
      exact ⟨rfl, decRestart_agree _ _⟩
    · exact exec_decByte_agree hs hs' h ht ht'
  · have hpk := exec_pk_congr h.params_eq.symm ht ht' h.pk_eq.symm
    obtain ⟨e, rfl⟩ := h.exists_dec
    rw [exec_pkCommand_pk_only hc hdec ht, exec_pkCommand_pk_only hc hdec ht', hpk]
    exact ⟨rfl, h.dec⟩

/-- No access looks at an entry that is not settled. -/
theorem exec_agree (hs : s.Inv) (hs' : s'.Inv) (h : s.Agree s') (ht : exec i s = .next t) (ht' : exec i s' = .next t') :
    t.Agree t' := by
  cases i with
  | pkClr | pkCtclr | pkCtsel | pkCtapp | pkPush | pkEnc | pkFlush | decClr | decByte =>
    exact exec_command_agree rfl hs hs' h ht ht'
  | wrCmd w =>
    cases hw : decodeCmd w with
    | ok c =>
      rw [exec_wrCmd_ok hw] at ht ht'
      exact exec_command_agree (decodeCmd_isCommand hw) hs hs' h ht ht'
    | error e =>
      cases (exec_wrCmd_error hw s).symm.trans ht
      cases (exec_wrCmd_error hw s').symm.trans ht'
      exact ⟨by rw [← h.rest]; rfl, h.dec⟩
  | rdPkData =>
    cases (exec_rdPkData s).symm.trans ht
    cases (exec_rdPkData s').symm.trans ht'
    exact ⟨by rw [← h.rest]; rfl, h.dec⟩
  | rdDecData =>
    cases (exec_rdDecData s).symm.trans ht
    cases (exec_rdDecData s').symm.trans ht'
    obtain ⟨e, rfl⟩ := h.exists_dec
    obtain ⟨a, rfl⟩ := h.dec.exists_arena
    refine ⟨rfl, ?_⟩
    simp only [reply_dec, Dec.popped]
    split_ifs
    · exact ⟨rfl, h.dec.settled⟩
    · exact h.dec
  | _ =>
    cases ht; cases ht'
    obtain ⟨e, rfl⟩ := h.exists_dec
    obtain ⟨a, rfl⟩ := h.dec.exists_arena
    exact ⟨rfl, h.dec⟩

end

/-- Two states that agree have the same at the port, and one step takes it in both. -/
theorem step_agree {s s' : State} (hs : s.Inv) (hs' : s'.Inv) (h : s.Agree s') :
    ∃ t t', step s = .next t ∧ step s' = .next t' ∧ t.Agree t' := by
  obtain ⟨t, ht, -⟩ := stepKeepsInvariant s hs
  obtain ⟨t', ht', -⟩ := stepKeepsInvariant s' hs'
  refine ⟨t, t', ht, ht', ?_⟩
  have hsame := h.port_eq
  rcases hport : s.port with _ | ⟨a | _, rest⟩ <;> rw [hport] at hsame
  · cases (step_of_empty_port hport).symm.trans ht
    cases (step_of_empty_port hsame).symm.trans ht'
    exact h
  · rw [step_of_access hport] at ht
    rw [step_of_access hsame] at ht'
    exact exec_agree (hs.setPort rest) (hs'.setPort rest) (h.setPort rest) ht ht'
  · cases (step_of_reset hport).symm.trans ht
    cases (step_of_reset hsame).symm.trans ht'
    obtain ⟨e, rfl⟩ := h.exists_dec
    exact ⟨rfl, decRestart_agree _ _⟩

/-- Settles O55: the step is `step_agree`, and states that agree have the same replies. -/
theorem staleArenaIsUnobservable : Obligations.StaleArenaIsUnobservable := by
  intro s s' hs hs' h
  obtain ⟨t, t', ht, ht', hagree⟩ := step_agree hs hs' h
  exact ⟨t, t', ht, ht', hagree, hagree.replies_eq.symm⟩

/-! ## The room that keeps PK from faulting: rule R191 -/

/-- Settles O22: fewer than 8 bits are pending, a code has at most 255 and a push at most 16. -/
theorem fifoDisciplineSuffices : Obligations.FifoDisciplineSuffices := by
  intro s h hf
  have hacc := h.pk.acc_short
  refine ⟨fun sym hcode hroom => ?_, fun n data hok hroom => ?_, fun hroom => ?_⟩
  · have hlen : (s.pk.codeOf sym).length ≤ 255 := h.pk.codes_short sym
    exact ⟨_, exec_pkEnc_of_room hf hcode (by omega), hf⟩
  · have hn : n ≤ 16 := by
      simp only [formatBOk, countOk, Bool.and_eq_true, decide_eq_true_eq] at hok
      exact hok.1.2
    exact ⟨_, exec_pkPush_of_room hf (by omega), hf⟩
  · exact ⟨_, pkCommand_of_ok hf (flush_of_room hacc (by omega)), hf⟩

/-! ## Reset: rules R47, R185, R186 -/

/-- Settles O8: a restarted DEC is a reset one with its arena. -/
theorem resetInputResets : Obligations.ResetInputResets := fun _ _ h => ⟨_, step_of_reset h, rfl⟩

theorem statusWords_reset :
    errWord .reset = 0#32 ∧ pkStatWord .reset = 0#32 ∧ decStatWord .reset = 0#32 ∧ decLenWord .reset = 0#32 := by decide

/-- Settles O9: the fields of the reset state, and the eight reads of them. -/
theorem afterReset : Obligations.AfterReset := by
  intro p
  refine ⟨⟨Pk.codeOf_replicate Pk.reset, rfl, rfl, rfl, rfl, rfl⟩, ⟨rfl, rfl, rfl, rfl, rfl, rfl⟩, ⟨rfl, rfl⟩, ?_⟩
  simp only [List.forall_mem_cons, List.not_mem_nil, false_imp_iff, implies_true, and_true]
  have hreply : ∀ w, w = 0#32 → (.next (reply w (.resetWith p)) : Host.Outcome State Fault Refusal) =
      .next { State.resetWith p with replies := [0#32] } := by
    rintro _ rfl
    rfl
  obtain ⟨herr, hpkStat, hdecStat, hdecLen⟩ := statusWords_reset
  exact ⟨rfl, hreply _ herr, hreply _ hpkStat, rfl, hreply _ hdecStat, rfl, hreply _ hdecLen, rfl⟩

end Sys2Proof.Machine
